-- ==== Sys2Proof/Word.lean ====
section
/-! DEFINITION. The words of the block. A byte is a bit vector. Pin identifiers (numbers in `[0, P)`, 20_memory R61),
`P`-bit pin patterns (bit `p` is the level of pin `p`; `P` is a parameter of the machine, so a pattern is kept as the
number it denotes) and times in microseconds (00_scope R10) are natural numbers. -/

namespace Sys2Proof

/-- An 8-bit unsigned value (30_encoding R84). -/
abbrev Byte := BitVec 8

end Sys2Proof
end

