-- ==== Sys2Proof/Config.lean ====
section
/-! DEFINITION. What a deployment fixes (00_scope R7, 42_hd44780_bus_words R161, R164) and the values the spec
leaves open. A constant with no body is a value nothing in Lean can know. -/

namespace Sys2Proof

/-- The four button channels (10_state R30). -/
inductive Channel where
  | start | stop | lap | reset
  deriving DecidableEq, Repr

/-- One value for each channel. -/
structure PerChannel (α : Type) where
  start : α
  stop : α
  lap : α
  reset : α
  deriving DecidableEq, Repr

/-- The four values are pairwise distinct. -/
def PerChannel.distinct (l : PerChannel Nat) : Bool := decide [l.start, l.stop, l.lap, l.reset].Nodup

/-- Raw edge polarity of the button lines (00_scope R7, 43_debounce R199). -/
inductive EdgePol where
  | falling | rising
  deriving DecidableEq, Repr, Inhabited

/-- Lap-delta arithmetic (00_scope R7, 44_timekeeping R243, R246). -/
inductive LapMode where
  | flattened | subfieldNoBorrow
  deriving DecidableEq, Repr

/-- The controller's execution times in microseconds (42_hd44780_bus_words R164), a configuration table. -/
structure ExecTimes where
  clear : Nat := 1520
  home : Nat := 1520
  command : Nat := 37
  data : Nat := 41
  deriving DecidableEq, Repr

/-- The parameters of the block (00_scope R7). A field with no default is OPEN there. -/
structure Params where
  /-- `P`, the number of physical pins. -/
  pinCount : Nat
  /-- `T_SETTLE_US`. -/
  tSettle : Nat
  /-- `T_PWR_US`. -/
  tPwr : Nat
  /-- `EDGE_POL`. -/
  edgePol : EdgePol
  /-- `LINE[ch]`, four distinct values (10_state R33). -/
  line : PerChannel Nat
  /-- Whether the button lines share the display's pin space (10_state R24 (c)). -/
  linesShared : Bool
  /-- `W_SUB`. -/
  wSub : Nat
  /-- `T_HD_RESET`, the end of the controller's internal reset (42_hd44780_bus_words R161). -/
  tHdReset : Nat
  /-- `LAP_MODE`. -/
  lapMode : LapMode := .flattened
  /-- `PENDING_REPLAY`. -/
  pendingReplay : Bool := false
  /-- `FS4`, `FS8`, `DISP_ON`, `CLEAR`, `HOME`. -/
  fs4 : Byte := 0x20
  fs8 : Byte := 0x38
  dispOn : Byte := 0x0C
  clear : Byte := 0x01
  home : Byte := 0x02
  /-- `NIBBLE_SEL`. -/
  nibbleSel : BitVec 4 := 0x2
  /-- `ROW_CMD[1]`, `ROW_CMD[2]`. -/
  rowCmd1 : Byte := 0x80
  rowCmd2 : Byte := 0xC0
  /-- `PAD`. -/
  pad : Byte := 0x20
  /-- `T_EXEC`. -/
  tExec : ExecTimes := {}
  deriving DecidableEq, Repr

namespace Config

/-- `T_EH_US`, minimum Enable high time (00_scope R7, 70_reset_and_hazards R310). -/
def tEnableHigh : Nat := 500

/-- `T_DB_US`, debounce quiet interval (00_scope R7). -/
def tDebounce : Nat := 30000

/-- `T_TICK_US`, tick period (00_scope R7). -/
def tTick : Nat := 10000

/-- `COLS`, characters per row (00_scope R7). -/
def cols : Nat := 16

/-- `ELAPSED_MOD`, modulus of the elapsed counter (00_scope R7, 44_timekeeping R232). -/
def elapsedMod : Nat := 360000

/-- The OPEN parameters of 00_scope R7 and 42_hd44780_bus_words R161: no value is known (log 6). -/
opaque openPinCount : Nat
opaque openSettle : Nat
opaque openPwr : Nat
opaque openEdgePol : EdgePol
opaque openLine : Nat → Nat
opaque openLinesShared : Bool
opaque openSubWidth : Nat
opaque openHdReset : Nat

/-- Four distinct values: the given ones where they are, else 0 to 3. Every four distinct values are some `l`'s. -/
def distinctLines (l : PerChannel Nat) : PerChannel Nat := if l.distinct then l else ⟨0, 1, 2, 3⟩

/-- The deployment: R7's defaults, and the OPEN values. -/
def params : Params where
  pinCount := openPinCount
  tSettle := openSettle
  tPwr := openPwr
  edgePol := openEdgePol
  line := distinctLines ⟨openLine 0, openLine 1, openLine 2, openLine 3⟩
  linesShared := openLinesShared
  wSub := openSubWidth
  tHdReset := openHdReset

/-- Free value: the tick timer's phase at reset, before it is brought into `(0, T_TICK_US]` (10_state R42, log 13). -/
opaque freePhase : Nat

/-- Free value: the level of a button line at power-up (43_debounce R199, log 13). -/
opaque freeLevel : Nat → Bool

/-- Free values, each applied to the state's draw counter (log 12): whether a firing due at Reset is still
served (44_timekeeping R244). -/
opaque freeLate : Nat → Bool

/-- Free value: DB3..DB0 of a transfer in FourBit wiring while the controller is in Eight mode
(42_hd44780_bus_words R162). -/
opaque freeNibble : Nat → BitVec 4

/-- Free value: where a cursor move leaves the address counter while it points into CGRAM
(42_hd44780_bus_words R169, log 20). -/
opaque freeAddress : Nat → BitVec 7

/-- Free value: a pin pattern, for lines never driven (10_state R27, log 17). -/
opaque freePattern : Nat → Nat

/-- Free value: which of several pending interrupts is served next (60_exceptions R278, log 2). -/
opaque freeOrder : Nat → Nat

end Config

end Sys2Proof
end

