-- ==== Sys2Proof/Syntax.lean ====
section
/-! DEFINITION. The instructions: one constructor for each row of spec/opcode_table.json (30_encoding R83, R86, R82). -/

namespace Sys2Proof

/-- BusWidth (10_state R23). -/
inductive BusWidth where
  | fourBit | eightBit
  deriving DecidableEq, Repr

/-- PinAssignment (10_state R22): D0-D3 may be absent, each on its own in the syntax, so that a partial
assignment can be spelled and refused (41_display_driver R121). -/
structure PinAssignment where
  d0 : Option Nat
  d1 : Option Nat
  d2 : Option Nat
  d3 : Option Nat
  d4 : Nat
  d5 : Nat
  d6 : Nat
  d7 : Nat
  e : Nat
  rs : Nat
  deriving DecidableEq, Repr

/-- The instruction set. Bits a row ignores are operands too, so that no bit of a word is lost. -/
inductive Instr where
  /-- CONFIGURE, 41_display_driver R120. -/
  | configure (pins : PinAssignment)
  /-- WRITE_COMMAND, R126. -/
  | writeCommand (b : Byte)
  /-- WRITE_CHAR, R127. -/
  | writeChar (b : Byte)
  /-- WRITE_LINE, R130. -/
  | writeLine (text : List Byte) (row : Nat)
  /-- WRITE_TWO_LINES, R132. -/
  | writeTwoLines (text1 text2 : List Byte)
  /-- MASK, 40_bus_masking R100. -/
  | mask (value : Byte) (width : BusWidth) (pins : PinAssignment)
  /-- TICK, 44_timekeeping R240. -/
  | tick
  /-- EDGE, 43_debounce R200. -/
  | edge (ch : Channel)
  /-- DEBOUNCE_EXPIRE, R203. -/
  | debounceExpire (ch : Channel)
  /-- CMD_START, 44_timekeeping R241. -/
  | cmdStart
  /-- CMD_STOP, R242. -/
  | cmdStop
  /-- CMD_LAP, R243, R246. -/
  | cmdLap
  /-- CMD_RESET, R244. -/
  | cmdReset
  /-- HD_CLEAR_DISPLAY, 42_hd44780_bus_words R165. -/
  | hdClearDisplay
  /-- HD_RETURN_HOME, R166; `x` is ignored. -/
  | hdReturnHome (x : Bool)
  /-- HD_ENTRY_MODE_SET, R167. -/
  | hdEntryModeSet (id s : Bool)
  /-- HD_DISPLAY_CONTROL, R168. -/
  | hdDisplayControl (d c b : Bool)
  /-- HD_CURSOR_DISPLAY_SHIFT, R169; `x` is ignored. -/
  | hdCursorDisplayShift (sc rl : Bool) (x : BitVec 2)
  /-- HD_FUNCTION_SET, R170; `x` is ignored. -/
  | hdFunctionSet (dl n f : Bool) (x : BitVec 2)
  /-- HD_SET_CGRAM_ADDR, R171. -/
  | hdSetCgramAddr (a : BitVec 6)
  /-- HD_SET_DDRAM_ADDR, R172. -/
  | hdSetDdramAddr (a : BitVec 7)
  /-- HD_WRITE_DATA, R173. -/
  | hdWriteData (d : Byte)
  /-- HD_RESERVED_00, R178. -/
  | hdReserved00
  /-- NIBBLE_MODE_SELECT, 41_display_driver R122. -/
  | nibbleModeSelect
  deriving DecidableEq, Repr

end Sys2Proof
end

