-- ==== Sys2Proof/WellFormed.lean ====
section
/-! DEFINITION. Well-formed instructions. Every operand of every type has an encoding (30_encoding R84, log 4), so no term
is ill-formed: an assignment the spec refuses (10_state R24), or a row other than 1 or 2, is syntax whose meaning is
the refusal. -/

namespace Sys2Proof

/-- Well-formedness of an instruction. -/
def Instr.wf : Instr → Bool
  | .configure _ => true
  | .writeCommand _ => true
  | .writeChar _ => true
  | .writeLine _ _ => true
  | .writeTwoLines _ _ => true
  | .mask _ _ _ => true
  | .tick => true
  | .edge _ => true
  | .debounceExpire _ => true
  | .cmdStart => true
  | .cmdStop => true
  | .cmdLap => true
  | .cmdReset => true
  | .hdClearDisplay => true
  | .hdReturnHome _ => true
  | .hdEntryModeSet _ _ => true
  | .hdDisplayControl _ _ _ => true
  | .hdCursorDisplayShift _ _ _ => true
  | .hdFunctionSet _ _ _ _ => true
  | .hdSetCgramAddr _ => true
  | .hdSetDdramAddr _ => true
  | .hdWriteData _ => true
  | .hdReserved00 => true
  | .nibbleModeSelect => true

end Sys2Proof
end

