-- ==== Sys2Proof/Decode.lean ====
section
/-! DEFINITION. The encodings (30_encoding R80-R88): frames, the opcode table, the decoder and after it the encoder.
The byte layout of an op's operands is the model's own (log 4); the selectors, the bus9 and the bus5 words are the
spec's. -/

namespace Sys2Proof

/-- One encoded instruction in its format (30_encoding R80). -/
inductive Frame where
  /-- `op`: the selector byte, then the operand bytes. -/
  | op (bytes : List Byte)
  /-- `bus9`: `rs` is bit 8, `d[7:0]` bits 7..0 (R81). -/
  | bus9 (w : BitVec 9)
  /-- `bus5`: `rs` is bit 4, `n[3:0]` bits 3..0 (R82). -/
  | bus5 (w : BitVec 5)
  deriving DecidableEq, Repr

/-- Why a frame is no instruction. -/
inductive DecodeError where
  /-- A selector that no row of 30_encoding R83 matches (R85). -/
  | unknownSelector (sel : Byte)
  /-- Operand bytes are missing. -/
  | truncated
  /-- Bytes follow the last operand. -/
  | trailing
  /-- A presence byte of an optional pin is neither 0 nor 1. -/
  | badPresence (b : Byte)
  /-- A width byte is neither 0 nor 1. -/
  | badWidth (b : Byte)
  /-- A continuation byte of a text is neither 0 nor 1. -/
  | badText (b : Byte)
  /-- A bus5 word other than the nibble-mode select: half a byte, no instruction (R82). -/
  | unpairedNibble (w : BitVec 5)
  deriving DecidableEq, Repr

/-- A row of the opcode table: mnemonic, mask and match. -/
structure Row where
  mnemonic : String
  mask : Nat
  bits : Nat
  deriving DecidableEq, Repr

/-- The op rows, in the order of 30_encoding R83. -/
def opRows : List Row :=
  [ ⟨"CONFIGURE", 0xFF, 0x01⟩, ⟨"WRITE_COMMAND", 0xFF, 0x02⟩, ⟨"WRITE_CHAR", 0xFF, 0x03⟩,
    ⟨"WRITE_LINE", 0xFF, 0x04⟩, ⟨"WRITE_TWO_LINES", 0xFF, 0x05⟩, ⟨"MASK", 0xFF, 0x06⟩,
    ⟨"TICK", 0xFF, 0x10⟩, ⟨"EDGE", 0xFC, 0x20⟩, ⟨"DEBOUNCE_EXPIRE", 0xFC, 0x30⟩,
    ⟨"CMD_START", 0xFF, 0x40⟩, ⟨"CMD_STOP", 0xFF, 0x41⟩, ⟨"CMD_LAP", 0xFF, 0x42⟩,
    ⟨"CMD_RESET", 0xFF, 0x43⟩ ]

/-- The bus9 rows, in the order of 30_encoding R86. -/
def bus9Rows : List Row :=
  [ ⟨"HD_CLEAR_DISPLAY", 0x1FF, 0x001⟩, ⟨"HD_RETURN_HOME", 0x1FE, 0x002⟩,
    ⟨"HD_ENTRY_MODE_SET", 0x1FC, 0x004⟩, ⟨"HD_DISPLAY_CONTROL", 0x1F8, 0x008⟩,
    ⟨"HD_CURSOR_DISPLAY_SHIFT", 0x1F0, 0x010⟩, ⟨"HD_FUNCTION_SET", 0x1E0, 0x020⟩,
    ⟨"HD_SET_CGRAM_ADDR", 0x1C0, 0x040⟩, ⟨"HD_SET_DDRAM_ADDR", 0x180, 0x080⟩,
    ⟨"HD_WRITE_DATA", 0x100, 0x100⟩, ⟨"HD_RESERVED_00", 0x1FF, 0x000⟩ ]

/-- The bus5 row (30_encoding R82). -/
def bus5Rows : List Row := [⟨"NIBBLE_MODE_SELECT", 0x1F, 0x02⟩]

/-- A word matches a row. -/
def Row.accepts (r : Row) (w : Nat) : Bool := w &&& r.mask == r.bits

/-- The row an instruction stands for. -/
def Instr.mnemonic : Instr → String
  | .configure _ => "CONFIGURE"
  | .writeCommand _ => "WRITE_COMMAND"
  | .writeChar _ => "WRITE_CHAR"
  | .writeLine _ _ => "WRITE_LINE"
  | .writeTwoLines _ _ => "WRITE_TWO_LINES"
  | .mask _ _ _ => "MASK"
  | .tick => "TICK"
  | .edge _ => "EDGE"
  | .debounceExpire _ => "DEBOUNCE_EXPIRE"
  | .cmdStart => "CMD_START"
  | .cmdStop => "CMD_STOP"
  | .cmdLap => "CMD_LAP"
  | .cmdReset => "CMD_RESET"
  | .hdClearDisplay => "HD_CLEAR_DISPLAY"
  | .hdReturnHome _ => "HD_RETURN_HOME"
  | .hdEntryModeSet _ _ => "HD_ENTRY_MODE_SET"
  | .hdDisplayControl _ _ _ => "HD_DISPLAY_CONTROL"
  | .hdCursorDisplayShift _ _ _ => "HD_CURSOR_DISPLAY_SHIFT"
  | .hdFunctionSet _ _ _ _ => "HD_FUNCTION_SET"
  | .hdSetCgramAddr _ => "HD_SET_CGRAM_ADDR"
  | .hdSetDdramAddr _ => "HD_SET_DDRAM_ADDR"
  | .hdWriteData _ => "HD_WRITE_DATA"
  | .hdReserved00 => "HD_RESERVED_00"
  | .nibbleModeSelect => "NIBBLE_MODE_SELECT"

/-- The channel of a 2-bit code: Start 0, Stop 1, Lap 2, Reset 3 (30_encoding R84). -/
def channelOfCode (c : BitVec 2) : Channel :=
  if c = 0 then .start else if c = 1 then .stop else if c = 2 then .lap else .reset

/-! ### Operand bytes -/

/-- One byte operand. -/
def takeByte : List Byte → Except DecodeError (Byte × List Byte)
  | [] => .error .truncated
  | b :: bs => .ok (b, bs)

/-- A text: each byte after a 1, then a 0 (log 4). -/
def takeText : List Byte → Except DecodeError (List Byte × List Byte)
  | [] => .error .truncated
  | [m] => if m = 0 then .ok ([], []) else if m = 1 then .error .truncated else .error (.badText m)
  | m :: b :: bs =>
    if m = 0 then .ok ([], b :: bs)
    else if m = 1 then do
      let (t, bs) ← takeText bs
      return (b :: t, bs)
    else .error (.badText m)

/-- The number of base-256 digits, lowest first. -/
def ofDigits : List Byte → Nat
  | [] => 0
  | b :: bs => b.toNat + 256 * ofDigits bs

/-- A number, of any size: its base-256 digits, lowest first, laid out as a text (log 4). -/
def takeNat (bs : List Byte) : Except DecodeError (Nat × List Byte) := do
  let (digits, bs) ← takeText bs
  return (ofDigits digits, bs)

/-- An optional pin identifier: 0, or 1 and the identifier (log 4). -/
def takeOptPin : List Byte → Except DecodeError (Option Nat × List Byte)
  | [] => .error .truncated
  | m :: bs =>
    if m = 0 then .ok (none, bs)
    else if m = 1 then do
      let (p, bs) ← takeNat bs
      return (some p, bs)
    else .error (.badPresence m)

/-- A bus width: 0 FourBit, 1 EightBit (log 4). -/
def takeWidth : List Byte → Except DecodeError (BusWidth × List Byte)
  | [] => .error .truncated
  | m :: bs =>
    if m = 0 then .ok (.fourBit, bs) else if m = 1 then .ok (.eightBit, bs) else .error (.badWidth m)

/-- A pin assignment: d0..d3 optional, then d4..d7, e, rs (10_state R22). -/
def takePins (bs : List Byte) : Except DecodeError (PinAssignment × List Byte) := do
  let (d0, bs) ← takeOptPin bs
  let (d1, bs) ← takeOptPin bs
  let (d2, bs) ← takeOptPin bs
  let (d3, bs) ← takeOptPin bs
  let (d4, bs) ← takeNat bs
  let (d5, bs) ← takeNat bs
  let (d6, bs) ← takeNat bs
  let (d7, bs) ← takeNat bs
  let (e, bs) ← takeNat bs
  let (rs, bs) ← takeNat bs
  return (⟨d0, d1, d2, d3, d4, d5, d6, d7, e, rs⟩, bs)

/-! ### The decoder -/

/-- An op: the selector names the row (30_encoding R83), the operand bytes follow; the rest is left over. -/
def decodeOp : List Byte → Except DecodeError (Instr × List Byte)
  | [] => .error .truncated
  | sel :: bs =>
    if sel = 0x01 then do
      let (pins, bs) ← takePins bs
      return (.configure pins, bs)
    else if sel = 0x02 then do
      let (b, bs) ← takeByte bs
      return (.writeCommand b, bs)
    else if sel = 0x03 then do
      let (b, bs) ← takeByte bs
      return (.writeChar b, bs)
    else if sel = 0x04 then do
      let (row, bs) ← takeNat bs
      let (text, bs) ← takeText bs
      return (.writeLine text row, bs)
    else if sel = 0x05 then do
      let (text1, bs) ← takeText bs
      let (text2, bs) ← takeText bs
      return (.writeTwoLines text1 text2, bs)
    else if sel = 0x06 then do
      let (value, bs) ← takeByte bs
      let (width, bs) ← takeWidth bs
      let (pins, bs) ← takePins bs
      return (.mask value width pins, bs)
    else if sel = 0x10 then .ok (.tick, bs)
    else if sel &&& 0xFC = 0x20 then .ok (.edge (channelOfCode (sel.extractLsb' 0 2)), bs)
    else if sel &&& 0xFC = 0x30 then .ok (.debounceExpire (channelOfCode (sel.extractLsb' 0 2)), bs)
    else if sel = 0x40 then .ok (.cmdStart, bs)
    else if sel = 0x41 then .ok (.cmdStop, bs)
    else if sel = 0x42 then .ok (.cmdLap, bs)
    else if sel = 0x43 then .ok (.cmdReset, bs)
    else .error (.unknownSelector sel)

/-- A bus9 word: RS = 1 is data; for RS = 0 the highest set bit of `d` selects the instruction (30_encoding R86),
with the fields of R87. -/
def decodeBus9 (w : BitVec 9) : Instr :=
  if w.getLsbD 8 then .hdWriteData (w.extractLsb' 0 8)
  else if w.getLsbD 7 then .hdSetDdramAddr (w.extractLsb' 0 7)
  else if w.getLsbD 6 then .hdSetCgramAddr (w.extractLsb' 0 6)
  else if w.getLsbD 5 then .hdFunctionSet (w.getLsbD 4) (w.getLsbD 3) (w.getLsbD 2) (w.extractLsb' 0 2)
  else if w.getLsbD 4 then .hdCursorDisplayShift (w.getLsbD 3) (w.getLsbD 2) (w.extractLsb' 0 2)
  else if w.getLsbD 3 then .hdDisplayControl (w.getLsbD 2) (w.getLsbD 1) (w.getLsbD 0)
  else if w.getLsbD 2 then .hdEntryModeSet (w.getLsbD 1) (w.getLsbD 0)
  else if w.getLsbD 1 then .hdReturnHome (w.getLsbD 0)
  else if w.getLsbD 0 then .hdClearDisplay
  else .hdReserved00

/-- A bus5 word: the nibble-mode select (30_encoding R82). -/
def decodeBus5 (w : BitVec 5) : Except DecodeError Instr :=
  if w = 0x02 then .ok .nibbleModeSelect else .error (.unpairedNibble w)

/-- The decoder. An op frame must be used up by its operands. -/
def decode : Frame → Except DecodeError Instr
  | .op bytes =>
    match decodeOp bytes with
    | .ok (i, []) => .ok i
    | .ok (_, _ :: _) => .error .trailing
    | .error err => .error err
  | .bus9 w => .ok (decodeBus9 w)
  | .bus5 w => decodeBus5 w

/-! ### The encoder -/

/-- The 2-bit channel code (30_encoding R84). -/
def Channel.code : Channel → BitVec 2
  | .start => 0
  | .stop => 1
  | .lap => 2
  | .reset => 3

/-- Operand bytes of a text. -/
def encodeText : List Byte → List Byte
  | [] => [0]
  | b :: t => 1 :: b :: encodeText t

/-- The lowest `k` base-256 digits of a number, lowest first. -/
def digits : Nat → Nat → List Byte
  | 0, _ => []
  | k + 1, n => BitVec.ofNat 8 n :: digits k (n / 256)

/-- Operand bytes of a number: all its digits (log 4). -/
def encodeNat (n : Nat) : List Byte := encodeText (digits (n.log2 / 8 + 1) n)

/-- Operand bytes of an optional pin identifier. -/
def encodeOptPin : Option Nat → List Byte
  | none => [0]
  | some p => 1 :: encodeNat p

/-- Operand byte of a width. -/
def encodeWidth : BusWidth → List Byte
  | .fourBit => [0]
  | .eightBit => [1]

/-- Operand bytes of a pin assignment. -/
def encodePins (a : PinAssignment) : List Byte :=
  encodeOptPin a.d0 ++ encodeOptPin a.d1 ++ encodeOptPin a.d2 ++ encodeOptPin a.d3 ++ encodeNat a.d4 ++
    encodeNat a.d5 ++ encodeNat a.d6 ++ encodeNat a.d7 ++ encodeNat a.e ++ encodeNat a.rs

/-- The frame of an instruction: the selector of 30_encoding R83 with its operands, or the bit pattern of R86
or R82. -/
def encode : Instr → Frame
  | .configure pins => .op (0x01 :: encodePins pins)
  | .writeCommand b => .op [0x02, b]
  | .writeChar b => .op [0x03, b]
  | .writeLine text row => .op (0x04 :: (encodeNat row ++ encodeText text))
  | .writeTwoLines text1 text2 => .op (0x05 :: (encodeText text1 ++ encodeText text2))
  | .mask value width pins => .op (0x06 :: value :: (encodeWidth width ++ encodePins pins))
  | .tick => .op [0x10]
  | .edge ch => .op [0b001000#6 ++ ch.code]
  | .debounceExpire ch => .op [0b001100#6 ++ ch.code]
  | .cmdStart => .op [0x40]
  | .cmdStop => .op [0x41]
  | .cmdLap => .op [0x42]
  | .cmdReset => .op [0x43]
  | .hdClearDisplay => .bus9 0b000000001#9
  | .hdReturnHome x => .bus9 (0b00000001#8 ++ BitVec.ofBool x)
  | .hdEntryModeSet id s => .bus9 (0b0000001#7 ++ BitVec.ofBool id ++ BitVec.ofBool s)
  | .hdDisplayControl d c b => .bus9 (0b000001#6 ++ BitVec.ofBool d ++ BitVec.ofBool c ++ BitVec.ofBool b)
  | .hdCursorDisplayShift sc rl x => .bus9 (0b00001#5 ++ BitVec.ofBool sc ++ BitVec.ofBool rl ++ x)
  | .hdFunctionSet dl n f x => .bus9 (0b0001#4 ++ BitVec.ofBool dl ++ BitVec.ofBool n ++ BitVec.ofBool f ++ x)
  | .hdSetCgramAddr a => .bus9 (0b001#3 ++ a)
  | .hdSetDdramAddr a => .bus9 (0b01#2 ++ a)
  | .hdWriteData d => .bus9 (0b1#1 ++ d)
  | .hdReserved00 => .bus9 0b000000000#9
  | .nibbleModeSelect => .bus5 0b00010#5

/-- The word of a frame, as spec/opcode_table.json numbers it: the selector byte of an op, the bus9 or bus5 word. -/
def Frame.tableWord : Frame → Nat
  | .op bytes => (bytes.headD 0).toNat
  | .bus9 w => w.toNat
  | .bus5 w => w.toNat

/-- The rows of a frame's format. -/
def Frame.rows : Frame → List Row
  | .op _ => opRows
  | .bus9 _ => bus9Rows
  | .bus5 _ => bus5Rows

/-! ### Words of the opcode table -/

/-- An op whose selector is `w` and whose operand bytes are zero: as many of them as its operands take. -/
def zeroOperandOp (w : Nat) : Frame :=
  let bytes := BitVec.ofNat 8 w :: List.replicate 31 0
  match decodeOp bytes with
  | .ok (_, rest) => .op (bytes.take (bytes.length - rest.length))
  | .error _ => .op [BitVec.ofNat 8 w]

/-- The frame of a table word: 8 bits an op, 9 bits (16 in whole bytes) a bus9 word, 5 bits a bus5 word (log 5). -/
def tableFrame (nbits w : Nat) : Option Frame :=
  if nbits = 8 then (if w < 256 then some (zeroOperandOp w) else none)
  else if nbits = 9 ∨ nbits = 16 then (if w < 512 then some (.bus9 (BitVec.ofNat 9 w)) else none)
  else if nbits = 5 then (if w < 32 then some (.bus5 (BitVec.ofNat 5 w)) else none)
  else none

/-- The instruction the decoder reads from a table word. -/
def decodeTableWord (nbits w : Nat) : Option Instr :=
  match tableFrame nbits w with
  | none => none
  | some f =>
    match decode f with
    | .ok i => some i
    | .error _ => none

end Sys2Proof
end

