-- ==== Sys2Proof/Machine/State.lean ====
section
/-! DEFINITION. The machine's state as plain data (10_state R20, 42_hd44780_bus_words R160), its reset value
(10_state R46, 42_hd44780_bus_words R161) and the reasons a step can stop. -/

namespace Sys2Proof.Machine

/-- A level of a pin or a line: 0, 1 or Unknown (10_state R27, R30). -/
inductive Level where
  | low | high | unknown
  deriving DecidableEq, Repr

/-- A pin's mode (10_state R26). -/
inductive PinMode where
  | unconfigured | outputPullUp
  deriving DecidableEq, Repr

/-- The display configuration `Config{pins, width}` (10_state R21). -/
structure DisplayCfg where
  pins : PinAssignment
  width : BusWidth
  deriving DecidableEq, Repr

/-- The display operations (00_scope R11). -/
inductive DisplayOp where
  | configure | writeCommand | writeChar | writeLine | writeTwoLines
  deriving DecidableEq, Repr

/-- A micro-step of the Foreground (00_scope R9): an atomic pin write or a busy delay. -/
inductive MicroStep where
  | pinsWrite (m v : Nat)
  | wait (d : Nat)
  deriving DecidableEq, Repr

/-- The Foreground sequencer (10_state R40). `pc` is the index of the next micro-step. -/
inductive Fg where
  | idle
  | busy (op : DisplayOp) (steps : List MicroStep) (pc : Nat)
  deriving DecidableEq, Repr

/-- A channel's debounce state (10_state R30). -/
structure ChannelState where
  suppressed : Bool
  ie : Bool
  deadline : Option Nat
  lastStable : Level
  pending : Bool
  deriving DecidableEq, Repr

/-- A button line: its level, an input of the Environment (43_debounce R199), and the line's one
interrupt-pending bit (43_debounce R200, R202). -/
structure Button where
  level : Bool
  edgePending : Bool
  deriving DecidableEq, Repr

/-- `lap_delta` (10_state R37): a 32-bit count, or three sub-fields of `W_SUB` bits. -/
inductive LapDelta where
  | flat (v : BitVec 32)
  | sub (dm ds dc : Nat)
  deriving DecidableEq, Repr

/-- Refusal reasons of the block (60_exceptions R270). -/
inductive RefuseReason where
  | badPinAssignment | configureTwice | notConfigured | badRow | reentrant | unknownSelector
  deriving DecidableEq, Repr

/-- The operation a refusal records (60_exceptions R270). -/
inductive RefusedOp where
  | display (op : DisplayOp)
  | mask
  | selector (sel : Byte)
  deriving DecidableEq, Repr

/-- What a refusal records: reason and operation. -/
structure RefusalRecord where
  reason : RefuseReason
  op : RefusedOp
  deriving DecidableEq, Repr

/-- The reference controller's interface data length (42_hd44780_bus_words R160). -/
inductive HdMode where
  | eight | four
  deriving DecidableEq, Repr

/-- The FourBit nibble phase (R160). -/
inductive HdPhase where
  | high
  | low (hi : BitVec 4) (rs : Bool)
  deriving DecidableEq, Repr

/-- The RAM the address counter points into (R160). -/
inductive HdTarget where
  | ddram | cgram
  deriving DecidableEq, Repr

/-- Faults of the reference controller (R162, R172, R178): data of the test aid, not faults of the machine. -/
inductive HdFault where
  | busyViolation | rsChangedMidByte | reservedInstruction | badDdramAddress
  deriving DecidableEq, Repr

/-- The reference controller (42_hd44780_bus_words R160). `ddram` and `cgram` are canonical cell lists: an
unlisted DDRAM address reads 0x20, an unlisted CGRAM address is Unknown (R161). -/
structure Hd where
  mode : HdMode
  phase : HdPhase
  ac : BitVec 7
  target : HdTarget
  ddram : List Host.Cell
  cgram : List Host.Cell
  n : Bool
  f : Bool
  d : Bool
  c : Bool
  b : Bool
  id : Bool
  s : Bool
  shift : Int
  busyUntil : Nat
  fault : Option HdFault
  deriving DecidableEq, Repr

/-- An event of the pin trace: `(time, PinsWrite(m, v))` (00_scope R12). -/
structure PinEvent where
  time : Nat
  m : Nat
  v : Nat
  deriving DecidableEq, Repr

/-- A transfer of the controller-facing trace (41_display_driver R141). In FourBit `data` is the nibble. `tHigh` is
absent when E was high without the block having raised it. -/
structure Transfer where
  rs : Bool
  data : Byte
  tFall : Nat
  tHigh : Option Nat
  deriving DecidableEq, Repr

/-- The stopwatch fields a Foreground reader can read (20_memory R73). -/
inductive WatchField where
  | elapsed | running | lapRef | lapDelta
  deriving DecidableEq, Repr

/-- What the Foreground reader has read last of each stopwatch field (20_memory R73); none before the first read. -/
structure Snapshot where
  elapsed : Option (BitVec 32)
  running : Option Bool
  lapRef : Option (BitVec 32)
  lapDelta : Option LapDelta
  deriving DecidableEq, Repr

/-- What moves next (log 2): a request of an operation, a Foreground turn, or an action of the Environment
(30_encoding R91). -/
inductive Event where
  /-- An encoded operation, event or bus word is presented. -/
  | request (f : Frame)
  /-- The same, presented from inside an interrupt handler (60_exceptions R270, code 5). -/
  | handlerRequest (f : Frame)
  /-- The Foreground performs its next micro-step. -/
  | foreground
  /-- The Foreground's call returns: it performs micro-steps until it is Idle. -/
  | awaitIdle
  /-- The Foreground reads one stopwatch field (20_memory R73). -/
  | read (f : WatchField)
  /-- The Foreground masks the interrupts, or lets them through again (20_memory R73, R74). -/
  | maskInterrupts (on : Bool)
  /-- The Environment sets a button line's level. -/
  | level (ch : Channel) (l : Bool)
  /-- The Environment lets `us` microseconds pass. -/
  | advance (us : Nat)
  deriving DecidableEq, Repr

/-- The state: the record `st` of 10_state R20, the button inputs, the reference controller, and below them the
model's own fields. -/
structure State where
  /-- The deployment's parameters, never written (log 6). -/
  par : Params
  cfg : Option DisplayCfg
  pinMode : List PinMode
  out : List Level
  fg : Fg
  ch : PerChannel ChannelState
  elapsed : BitVec 32
  running : Bool
  lapRef : BitVec 32
  lapDelta : LapDelta
  nextTick : Nat
  tickLate : Bool
  now : Nat
  refused : Bool
  refusal : Option RefusalRecord
  button : PerChannel Button
  hd : Hd
  /-- What moves next, oldest first (log 2). -/
  queue : List Event
  /-- The earliest time of the next Foreground step: the end of its last Wait (00_scope R9, log 8). -/
  fgReady : Nat
  /-- When E was last set to 1 (41_display_driver R141). -/
  eRise : Option Nat
  /-- The pin trace, newest first (00_scope R12). -/
  trace : List PinEvent
  /-- The transfers, newest first (41_display_driver R141). -/
  transfers : List Transfer
  /-- The Foreground reader has interrupts masked: no ISR step is scheduled (20_memory R74, log 30). -/
  irqMasked : Bool
  /-- What the Foreground reader has read (20_memory R73, log 30). -/
  snapshot : Snapshot
  /-- What MASK last returned to its caller (log 15). -/
  maskResult : Option Nat
  /-- How many free values have been drawn (log 12). -/
  draws : Nat
  deriving DecidableEq, Repr

/-- Why the machine stops. -/
inductive Fault where
  /-- Raised by `step` alone, in a state that an earlier refusal marked: no step of any agent has a meaning there
  (60_exceptions R272). Safe: the spec says the same. -/
  | stuck
  deriving DecidableEq, Repr

/-- Why there is no meaning. -/
inductive Refusal where
  /-- Raised by `exec` for an instruction with no meaning yet: by no arm of this model. Safe. -/
  | notModelled (mnemonic : String)
  /-- Raised by `step` for a frame that breaks the model's own operand layout, or for half a bus word
  (30_encoding R82): it spells no instruction. Safe. -/
  | notAnInstruction (why : DecodeError)
  deriving DecidableEq, Repr

/-- The same value for every channel. -/
def everyChannel {α : Type} (a : α) : PerChannel α := ⟨a, a, a, a⟩

/-- A channel's debounce state at reset (10_state R31). -/
def ChannelState.reset : ChannelState where
  suppressed := false
  ie := true
  deadline := none
  lastStable := .unknown
  pending := false

/-- The reference controller at power-on (42_hd44780_bus_words R161). -/
def Hd.powerOn (busyUntil : Nat) : Hd where
  mode := .eight
  phase := .high
  ac := 0
  target := .ddram
  ddram := []
  cgram := []
  n := false
  f := false
  d := false
  c := false
  b := false
  id := true
  s := false
  shift := 0
  busyUntil := busyUntil
  fault := none

/-- `lap_delta` zeroed: 0, or (0,0,0) under SubfieldNoBorrow (10_state R37, 44_timekeeping R244). -/
def LapDelta.zero : LapMode → LapDelta
  | .flattened => .flat 0
  | .subfieldNoBorrow => .sub 0 0 0

/-- The state right after reset (10_state R46) of a deployment with parameters `p`, tick phase `phase` and button
levels `levels`. The display's supply rises with it, at `now = 0`, so that the controller is in its power-on state with its
internal reset ending at `T_HD_RESET` (DESIGN CHOICE, log 35). -/
def State.resetWith (p : Params) (phase : Nat) (levels : PerChannel Bool) : State where
  par := p
  cfg := none
  pinMode := List.replicate p.pinCount .unconfigured
  out := List.replicate p.pinCount .unknown
  fg := .idle
  ch := everyChannel .reset
  elapsed := 0
  running := false
  lapRef := 0
  lapDelta := .zero p.lapMode
  nextTick := phase
  tickLate := false
  now := 0
  refused := false
  refusal := none
  button := ⟨⟨levels.start, false⟩, ⟨levels.stop, false⟩, ⟨levels.lap, false⟩, ⟨levels.reset, false⟩⟩
  hd := .powerOn p.tHdReset
  queue := []
  fgReady := 0
  eRise := none
  trace := []
  transfers := []
  irqMasked := false
  snapshot := ⟨none, none, none, none⟩
  maskResult := none
  draws := 0

/-- The tick phase at reset: a draw in `(0, T_TICK_US]` (10_state R42). -/
def resetPhase : Nat := 1 + Config.freePhase % Config.tTick

/-- The state right after reset: the OPEN parameters, the tick phase and the button levels are open values. -/
def State.reset : State :=
  .resetWith Config.params resetPhase
    ⟨Config.freeLevel 0, Config.freeLevel 1, Config.freeLevel 2, Config.freeLevel 3⟩

end Sys2Proof.Machine
end

