-- ==== Sys2Proof/Machine/Ops.lean ====
section
/-! DEFINITION. The shared operations over the state: per-channel access, memory cells, pin levels, refusals (the
block's exceptions), handler entry and return, time and the start of a display operation. -/

namespace Sys2Proof.Machine

/-! ### Per-channel values -/

/-- The value of channel `c`. -/
def chanGet {α : Type} (x : PerChannel α) : Channel → α
  | .start => x.start
  | .stop => x.stop
  | .lap => x.lap
  | .reset => x.reset

/-- `x` with the value of channel `c` replaced. -/
def chanSet {α : Type} (x : PerChannel α) (c : Channel) (a : α) : PerChannel α :=
  match c with
  | .start => { x with start := a }
  | .stop => { x with stop := a }
  | .lap => { x with lap := a }
  | .reset => { x with reset := a }

/-- `st.ch[c] <- x` (10_state R30). -/
def setCh (c : Channel) (x : ChannelState) (s : State) : State := { s with ch := chanSet s.ch c x }

/-- The button line of channel `c` becomes `b` (43_debounce R199). -/
def setButton (c : Channel) (b : Button) (s : State) : State := { s with button := chanSet s.button c b }

/-! ### Memory cells: strictly rising addresses, no entry equal to what an unlisted address reads as -/

/-- The listed byte at an address. -/
def cellAt : List Host.Cell → Nat → Option Byte
  | [], _ => none
  | (k, b) :: m, a => if k = a then some b else cellAt m a

/-- List a byte at an address. -/
def cellPut : List Host.Cell → Nat → Byte → List Host.Cell
  | [], a, b => [(a, b)]
  | (k, x) :: m, a, b =>
    if a < k then (a, b) :: (k, x) :: m else if a = k then (a, b) :: m else (k, x) :: cellPut m a b

/-- Unlist an address. -/
def cellDrop : List Host.Cell → Nat → List Host.Cell
  | [], _ => []
  | (k, x) :: m, a => if k = a then cellDrop m a else (k, x) :: cellDrop m a

/-- Write a byte, keeping the canonical form for the byte `dflt` that an unlisted address reads as. -/
def cellWrite (dflt : Option Byte) (m : List Host.Cell) (a : Nat) (b : Byte) : List Host.Cell :=
  if dflt = some b then cellDrop m a else cellPut m a b

/-- The canonical form: addresses below `size`, strictly rising, no byte equal to `dflt`. -/
def Memory.wf (dflt : Option Byte) (size : Nat) : List Host.Cell → Bool
  | [] => true
  | (k, b) :: m =>
    decide (k < size) && (dflt != some b) && m.all (fun x => decide (k < x.1)) && Memory.wf dflt size m

/-- What an unlisted DDRAM address reads as: the power-on byte 0x20 (42_hd44780_bus_words R161). -/
def ddramDefault : Byte := 0x20

/-- `hd.ddram[a]` (R160, R161). -/
def ddramRead (h : Hd) (a : BitVec 7) : Byte := (cellAt h.ddram a.toNat).getD ddramDefault

/-- `hd.ddram[a] <- b`. -/
def ddramWrite (a : BitVec 7) (b : Byte) (h : Hd) : Hd :=
  { h with ddram := cellWrite (some ddramDefault) h.ddram a.toNat b }

/-- `hd.cgram[a]`, none where it is Unknown (R160, R161). -/
def cgramRead (h : Hd) (a : BitVec 6) : Option Byte := cellAt h.cgram a.toNat

/-- `hd.cgram[a] <- b`. -/
def cgramWrite (a : BitVec 6) (b : Byte) (h : Hd) : Hd :=
  { h with cgram := cellWrite none h.cgram a.toNat b }

/-! ### Pin levels -/

/-- A known level. -/
def Level.ofBool : Bool → Level
  | false => .low
  | true => .high

/-- The level a receiver sees, `free` where the line is Unknown. -/
def Level.sample (free : Bool) : Level → Bool
  | .low => false
  | .high => true
  | .unknown => free

/-- `st.out[p]`; Unknown outside the pin space. -/
def pinLevel (out : List Level) (p : Nat) : Level := out[p]?.getD .unknown

/-- The levels after `PinsWrite(m, v)` (00_scope R9): pin `p` takes `v[p]` where `m[p] = 1`, else it keeps its level. -/
def drive : Nat → Nat → List Level → List Level
  | _, _, [] => []
  | m, v, l :: ls => (if m.testBit 0 then Level.ofBool (v.testBit 0) else l) :: drive (m / 2) (v / 2) ls

/-- The levels a receiver sees; `free` gives the bits of Unknown lines. -/
def seenLevel (out : List Level) (free : Nat) (p : Nat) : Bool := (pinLevel out p).sample (free.testBit p)

/-- The pin modes after every pin of `m` is programmed as an output with pull-up (10_state R26). -/
def programPins : Nat → List PinMode → List PinMode
  | _, [] => []
  | m, x :: xs => (if m.testBit 0 then .outputPullUp else x) :: programPins (m / 2) xs

/-! ### Refusals: the block's exceptions -/

/-- The code of a refusal reason (60_exceptions R270). -/
def RefuseReason.code : RefuseReason → Nat
  | .badPinAssignment => 1
  | .configureTwice => 2
  | .notConfigured => 3
  | .badRow => 4
  | .reentrant => 5
  | .unknownSelector => 6

/-- `raise Refuse(reason)` (00_scope R9, 60_exceptions R270): the mark is set, reason and operation are recorded,
nothing else changes. Nothing clears the mark (10_state R44). -/
def raise (reason : RefuseReason) (op : RefusedOp) (s : State) : State :=
  { s with refused := true, refusal := some ⟨reason, op⟩ }

/-! ### Handler entry and return -/

/-- Interrupt entry: the block saves nothing, and `st.fg` is left as it is (60_exceptions R279). -/
def enterHandler (s : State) : State := s

/-- Interrupt return: the Foreground continues at `st.fg`; nothing is restored and no mask changes
(60_exceptions R280). -/
def leaveHandler (s : State) : State := s

/-- One atomic handler step (60_exceptions R275). -/
def runHandler (body : State → State) (s : State) : State := leaveHandler (body (enterHandler s))

/-! ### Time and draws -/

/-- The Environment lets `us` microseconds pass (30_encoding R91, 00_scope R10). -/
def advanceTime (us : Nat) (s : State) : State := { s with now := s.now + us }

/-- The Environment lets time pass until `t`, if `t` is still to come (log 7). -/
def waitUntil (t : Nat) (s : State) : State := { s with now := max s.now t }

/-- The time of the next Foreground step: not before the end of its last Wait (00_scope R9, log 8). -/
def foregroundTime (s : State) : State := waitUntil s.fgReady s

/-- One more free value has been drawn (log 12). -/
def drawn (s : State) : State := { s with draws := s.draws + 1 }

/-! ### The start of a display operation -/

/-- A display operation's starting step (41_display_driver, opening words): Reentrant is checked first
(60_exceptions R271), then the operation's own checks; only then does it start. On an Idle sequencer it is a Foreground
step, refused or not, and comes no sooner than the end of the last Wait (00_scope R9). -/
def startOp (op : DisplayOp) (check : Option RefuseReason) (go : State → State) (s : State) : State :=
  match s.fg with
  | .busy _ _ _ => raise .reentrant (.display op) s
  | .idle =>
    match check with
    | some reason => raise reason (.display op) (foregroundTime s)
    | none => go (foregroundTime s)

end Sys2Proof.Machine
end

