-- ==== Sys2Proof/Machine/Operands.lean ====
section
/-! DEFINITION. Operand forms (30_encoding R84): pin assignments and their well-formedness (10_state R22-R24), rows,
texts, and the sub-field views of an elapsed value (10_state R34). -/

namespace Sys2Proof.Machine

/-- The data lines D0-D7 and the active ones in FourBit (00_scope R14). -/
def dataLines8 : List Nat := [0, 1, 2, 3, 4, 5, 6, 7]

/-- The active data lines in FourBit. -/
def dataLines4 : List Nat := [4, 5, 6, 7]

/-- The pin of data line D`i`, where it has one (10_state R22). -/
def dataPin (a : PinAssignment) : Nat → Option Nat
  | 0 => a.d0
  | 1 => a.d1
  | 2 => a.d2
  | 3 => a.d3
  | 4 => some a.d4
  | 5 => some a.d5
  | 6 => some a.d6
  | 7 => some a.d7
  | _ => none

/-- The pins an assignment names: the data lines present, Enable and RegisterSelect. -/
def presentPins (a : PinAssignment) : List Nat := dataLines8.filterMap (dataPin a) ++ [a.e, a.rs]

/-- The bus width of an assignment (41_display_driver R121): all of D0-D3 absent, all present, or neither. -/
def widthOf (a : PinAssignment) : Option BusWidth :=
  match a.d0, a.d1, a.d2, a.d3 with
  | none, none, none, none => some .fourBit
  | some _, some _, some _, some _ => some .eightBit
  | _, _, _, _ => none

/-- The pins of the button lines, where they share the pin space (10_state R24 (c)). -/
def buttonPins (p : Params) : List Nat :=
  if p.linesShared then [p.line.start, p.line.stop, p.line.lap, p.line.reset] else []

/-- Well-formedness of an assignment (10_state R24): (a) D0-D3 all present or all absent, (b) identifiers in `[0, P)`,
(c) pairwise distinct and distinct from the button lines. -/
def wellFormedPins (p : Params) (a : PinAssignment) : Bool :=
  (widthOf a).isSome && decide (presentPins a).Nodup &&
    (presentPins a).all (fun x => !(buttonPins p).contains x) &&
    (presentPins a).all (fun x => decide (x < p.pinCount))

/-- The row-select byte of a row; rows other than 1 and 2 have none (00_scope R7, 41_display_driver R130). -/
def rowCommand (p : Params) (row : Nat) : Option Byte :=
  if row = 1 then some p.rowCmd1 else if row = 2 then some p.rowCmd2 else none

/-- The 16 characters of a row: the text's first 16, then pads (41_display_driver R130). -/
def lineChars (pad : Byte) (text : List Byte) : List Byte :=
  (text ++ List.replicate Config.cols pad).take Config.cols

/-- `mins(e)` (10_state R34). -/
def mins (e : Nat) : Nat := e / 6000

/-- `secs(e)` (10_state R34). -/
def secs (e : Nat) : Nat := (e / 100) % 60

/-- `cents(e)` (10_state R34). -/
def cents (e : Nat) : Nat := e % 100

/-- A difference of sub-fields modulo `2^W_SUB`, without borrow (44_timekeeping R246). -/
def subField (w a b : Nat) : Nat := (((a : Int) - (b : Int)) % (2 ^ w : Nat)).toNat

end Sys2Proof.Machine
end

