-- ==== Sys2Proof/Machine/Flags.lean ====
section
/-! DEFINITION. Conditions: the block has no arithmetic flags (10_state R45), only Boolean status bits. Here is what
decides each: the pressed level, a raw edge, what is pending (60_exceptions R274), the late firing, busy time. -/

namespace Sys2Proof.Machine

/-- The pressed level `PL` (43_debounce R199): 0 for Falling, 1 for Rising. -/
def pressedLevel (p : Params) : Bool :=
  match p.edgePol with
  | .falling => false
  | .rising => true

/-- A change of level in the direction `EDGE_POL`, which leads to the pressed level (R199). -/
def isRawEdge (p : Params) (old new : Bool) : Bool := (old != new) && (new == pressedLevel p)

/-- The tick is pending: `now >= next_tick`, or a late firing (60_exceptions R274, 44_timekeeping R240). -/
def tickPending (s : State) : Bool := decide (s.nextTick ≤ s.now) || s.tickLate

/-- A firing already due at Reset is served late or dropped, as the draw says (44_timekeeping R244). -/
def tickLateAfterReset (draw : Bool) (s : State) : Bool := decide (s.nextTick ≤ s.now) && draw

/-- The edge interrupt of `c` is pending delivery on an enabled line (43_debounce R200). -/
def edgeDeliverable (c : Channel) (s : State) : Bool := (chanGet s.button c).edgePending && (chanGet s.ch c).ie

/-- The debounce timer of `c` has expired (43_debounce R203). -/
def expirePending (c : Channel) (s : State) : Bool :=
  match (chanGet s.ch c).deadline with
  | none => false
  | some d => decide (d ≤ s.now)

/-- The interrupt sources, each with its one handler (60_exceptions R274). -/
inductive Handler where
  | tick
  | edge (c : Channel)
  | expire (c : Channel)
  deriving DecidableEq, Repr

/-- The handlers, in an order that means nothing (60_exceptions R278). -/
def allHandlers : List Handler :=
  [.tick, .edge .start, .edge .stop, .edge .lap, .edge .reset, .expire .start, .expire .stop, .expire .lap,
    .expire .reset]

/-- The operation of a handler (30_encoding R83). -/
def Handler.instr : Handler → Instr
  | .tick => .tick
  | .edge c => .edge c
  | .expire c => .debounceExpire c

/-- The source of a handler is pending and its enable set (60_exceptions R274). -/
def Handler.pending (h : Handler) (s : State) : Bool :=
  match h with
  | .tick => tickPending s
  | .edge c => edgeDeliverable c s
  | .expire c => expirePending c s

/-- The handlers that may run now: the pending ones, unless the Foreground has masked interrupts (20_memory R74). -/
def enabledHandlers (s : State) : List Handler := if s.irqMasked then [] else allHandlers.filter fun h => h.pending s

/-- The handler served next where nothing else says which: any of the enabled ones (60_exceptions R278). -/
def nextHandler (s : State) : Option Handler :=
  (enabledHandlers s)[Config.freeOrder s.draws % (enabledHandlers s).length]?

/-- The controller is inside its busy time at `t` (42_hd44780_bus_words R162). -/
def hdBusy (t : Nat) (h : Hd) : Bool := decide (t < h.busyUntil)

/-- The display operation in progress, if any (10_state R40). -/
def foregroundBusy (s : State) : Bool :=
  match s.fg with
  | .idle => false
  | .busy _ _ _ => true

end Sys2Proof.Machine
end

