-- ==== Sys2Proof/Machine/Masking.lean ====
section
/-! DEFINITION. The Bus Masking Layer (40_bus_masking): `mask`, its inverse, and the derived masks of 10_state R25. -/

namespace Sys2Proof.Machine

/-- The OR of a list of patterns. -/
def orAll : List Nat → Nat
  | [] => 0
  | x :: xs => x ||| orAll xs

/-- A bit shifted to its pin; a line without a pin places nothing. -/
def placeBit (b : Bool) : Option Nat → Nat
  | none => 0
  | some p => b.toNat <<< p

/-- `mask8` (40_bus_masking R101): bit `i` of the value on the pin of D`i`. -/
def mask8 (value : Byte) (a : PinAssignment) : Nat :=
  orAll (dataLines8.map fun i => placeBit (value.getLsbD i) (dataPin a i))

/-- `mask4` (40_bus_masking R102): bit `j` of the value on the pin of D`(4+j)`; `value[7:4]` is ignored. -/
def mask4 (value : Byte) (a : PinAssignment) : Nat :=
  orAll (dataLines4.map fun i => placeBit (value.getLsbD (i - 4)) (dataPin a i))

/-- `mask` in a width (40_bus_masking R100). -/
def maskIn (w : BusWidth) (value : Byte) (a : PinAssignment) : Nat :=
  match w with
  | .eightBit => mask8 value a
  | .fourBit => mask4 value a

/-- The level of a data line, as `read` gives the level of a pin; a line without a pin reads 0. -/
def bitAt (read : Nat → Bool) : Option Nat → Bool
  | none => false
  | some p => read p

/-- The byte on D0-D7 (40_bus_masking R106), as `read` gives the level of a pin. -/
def readByte (read : Nat → Bool) (a : PinAssignment) : Byte :=
  BitVec.ofNat 8 ((dataLines8.map fun i => (bitAt read (dataPin a i)).toNat <<< i).sum)

/-- The nibble on D4-D7 (40_bus_masking R106). -/
def readNibble (read : Nat → Bool) (a : PinAssignment) : BitVec 4 :=
  BitVec.ofNat 4 ((dataLines4.map fun i => (bitAt read (dataPin a i)).toNat <<< (i - 4)).sum)

/-- `unmask8` (40_bus_masking R106). -/
def unmask8 (w : Nat) (a : PinAssignment) : Byte := readByte w.testBit a

/-- `unmask4` (40_bus_masking R106). -/
def unmask4 (w : Nat) (a : PinAssignment) : BitVec 4 := readNibble w.testBit a

/-- What a bus observer reads: a byte, or the nibble zero-extended (41_display_driver R141). -/
def readBus (width : BusWidth) (read : Nat → Bool) (a : PinAssignment) : Byte :=
  match width with
  | .eightBit => readByte read a
  | .fourBit => (readNibble read a).setWidth 8

/-- `DM`, the active data pins (10_state R25). -/
def dataMask (c : DisplayCfg) : Nat :=
  match c.width with
  | .eightBit => orAll (dataLines8.map fun i => placeBit true (dataPin c.pins i))
  | .fourBit => orAll (dataLines4.map fun i => placeBit true (dataPin c.pins i))

/-- `EM` (10_state R25). -/
def enableMask (c : DisplayCfg) : Nat := 1 <<< c.pins.e

/-- `RSM` (10_state R25). -/
def rsMask (c : DisplayCfg) : Nat := 1 <<< c.pins.rs

/-- `UM`, the used pins (10_state R25). -/
def usedMask (c : DisplayCfg) : Nat := dataMask c ||| enableMask c ||| rsMask c

/-- MASK (40_bus_masking R100-R103): the pattern goes to the caller (log 15). For an assignment without D0-D3, EightBit
places the bits of D4-D7 and nothing else (R105, log 16). It runs at once, whatever the Foreground does (log 8). -/
def execMask (value : Byte) (width : BusWidth) (pins : PinAssignment) (s : State) :
    Host.Outcome State Fault Refusal :=
  .next (if wellFormedPins s.par pins then { s with maskResult := some (maskIn width value pins) }
    else raise .badPinAssignment .mask s)

end Sys2Proof.Machine
end

