-- ==== Sys2Proof/Machine/Timekeeping.lean ====
section
/-! DEFINITION. The Timekeeping State Machine (44_timekeeping): the tick and the four commands. -/

namespace Sys2Proof.Machine

/-- `(e + 1) mod 360000` (44_timekeeping R240). -/
def incElapsed (e : BitVec 32) : BitVec 32 := BitVec.ofNat 32 ((e.toNat + 1) % Config.elapsedMod)

/-- The body of TickISR (R240). -/
def tickBody (s : State) : State :=
  let s1 := if s.running then { s with elapsed := incElapsed s.elapsed } else s
  if s1.tickLate then { s1 with tickLate := false } else { s1 with nextTick := s1.nextTick + Config.tTick }

/-- The earliest time of the next tick step: at once for a late firing, else `next_tick` (R240, log 7). -/
def tickTime (s : State) : State := if s.tickLate then s else waitUntil s.nextTick s

/-- The tick handler's step. -/
def tickIsr (s : State) : State := runHandler tickBody (tickTime s)

/-- Start (R241). -/
def startCommand (s : State) : State := if s.running then s else { s with running := true }

/-- Stop (R242). -/
def stopCommand (s : State) : State := if s.running then { s with running := false } else s

/-- The lap delta of `e` against the reference `r`, flattened (R243) or by sub-fields (R246). -/
def lapDeltaOf (p : Params) (e r : BitVec 32) : LapDelta :=
  match p.lapMode with
  | .flattened => .flat (BitVec.ofNat 32 ((((e.toNat : Int) - (r.toNat : Int)) % (Config.elapsedMod : Nat)).toNat))
  | .subfieldNoBorrow =>
    .sub (subField p.wSub (mins e.toNat) (mins r.toNat)) (subField p.wSub (secs e.toNat) (secs r.toNat))
      (subField p.wSub (cents e.toNat) (cents r.toNat))

/-- Lap (R243, R246). -/
def lapCommand (s : State) : State :=
  if s.running then { s with lapDelta := lapDeltaOf s.par s.elapsed s.lapRef, lapRef := s.elapsed } else s

/-- Reset (R244). Whether a due firing is still served is a draw (log 12). -/
def resetCommand (s : State) : State :=
  if s.running then s
  else
    drawn { s with
      elapsed := 0
      lapRef := 0
      lapDelta := .zero s.par.lapMode
      running := true
      tickLate := tickLateAfterReset (Config.freeLate s.draws) s
      nextTick := s.now + Config.tTick }

/-- `Dispatch(cmd(c))` (00_scope R9, 10_state R33): the command of the channel's name. -/
def dispatch : Channel → State → State
  | .start, s => startCommand s
  | .stop, s => stopCommand s
  | .lap, s => lapCommand s
  | .reset, s => resetCommand s

/-- A stopwatch field is read into the reader's snapshot, one field in one atomic step (20_memory R73). -/
def readField (f : WatchField) (s : State) : State :=
  match f with
  | .elapsed => { s with snapshot := { s.snapshot with elapsed := some s.elapsed } }
  | .running => { s with snapshot := { s.snapshot with running := some s.running } }
  | .lapRef => { s with snapshot := { s.snapshot with lapRef := some s.lapRef } }
  | .lapDelta => { s with snapshot := { s.snapshot with lapDelta := some s.lapDelta } }

/-- TICK (R240). -/
def execTick (s : State) : Host.Outcome State Fault Refusal := .next (tickIsr s)

/-- CMD_START (R241). -/
def execCmdStart (s : State) : Host.Outcome State Fault Refusal := .next (startCommand s)

/-- CMD_STOP (R242). -/
def execCmdStop (s : State) : Host.Outcome State Fault Refusal := .next (stopCommand s)

/-- CMD_LAP (R243, R246). -/
def execCmdLap (s : State) : Host.Outcome State Fault Refusal := .next (lapCommand s)

/-- CMD_RESET (R244). -/
def execCmdReset (s : State) : Host.Outcome State Fault Refusal := .next (resetCommand s)

end Sys2Proof.Machine
end

