-- ==== Sys2Proof/Machine/Debounce.lean ====
section
/-! DEFINITION. The Debounce Engine (43_debounce): raw edges, the edge handler and the expiry handler. -/

namespace Sys2Proof.Machine

/-- A raw edge of channel `c` while its line is disabled (R201): discarded, or remembered under PENDING_REPLAY. -/
def suppressedEdge (c : Channel) (s : State) : State :=
  if s.par.pendingReplay then setCh c { chanGet s.ch c with pending := true } s else s

/-- A raw edge of channel `c` arrives (R199-R201): on an enabled line it is pending delivery; several count as one. -/
def rawEdge (c : Channel) (s : State) : State :=
  if (chanGet s.ch c).ie then setButton c { chanGet s.button c with edgePending := true } s
  else suppressedEdge c s

/-- The Environment sets the level of channel `c` (R199). -/
def setLevel (c : Channel) (l : Bool) (s : State) : State :=
  let s1 := setButton c { chanGet s.button c with level := l } s
  if isRawEdge s.par (chanGet s.button c).level l then rawEdge c s1 else s1

/-- The body of EdgeISR(c) (R200); the step clears the line's pending bit (60_exceptions R274). -/
def edgeBody (c : Channel) (s : State) : State :=
  setCh c
    { chanGet s.ch c with ie := false, suppressed := true, deadline := some (s.now + Config.tDebounce) }
    (setButton c { chanGet s.button c with edgePending := false } s)

/-- EDGE: the handler runs when a raw edge of `c` is pending delivery and the line is enabled (R200); else it is not
enabled and nothing happens (log 9). -/
def edgeIsr (c : Channel) (s : State) : State :=
  if edgeDeliverable c s then runHandler (edgeBody c) s else s

/-- `if l = PL: Dispatch(cmd(c))` (R203). -/
def dispatchIfPressed (c : Channel) (s : State) : State :=
  if (chanGet s.button c).level = pressedLevel s.par then dispatch c s else s

/-- The line is listening again (R203): timer disarmed, interrupt enabled, a remembered edge pending delivery. -/
def rearm (c : Channel) (s : State) : State :=
  let s1 :=
    if s.par.pendingReplay && (chanGet s.ch c).pending then
      setButton c { chanGet s.button c with edgePending := true } s
    else s
  setCh c { chanGet s.ch c with deadline := none, suppressed := false, ie := true, pending := false } s1

/-- The body of DebounceISR(c) (R203). -/
def expireBody (c : Channel) (s : State) : State :=
  let sampled := setCh c { chanGet s.ch c with lastStable := Level.ofBool (chanGet s.button c).level } s
  rearm c (dispatchIfPressed c sampled)

/-- DEBOUNCE_EXPIRE: the handler runs when the armed timer has expired (R203, R204, log 7); a disarmed timer never
fires (log 10). -/
def expireIsr (c : Channel) (s : State) : State :=
  match (chanGet s.ch c).deadline with
  | none => s
  | some d => runHandler (expireBody c) (waitUntil d s)

/-- EDGE (R200). -/
def execEdge (ch : Channel) (s : State) : Host.Outcome State Fault Refusal := .next (edgeIsr ch s)

/-- DEBOUNCE_EXPIRE (R203). -/
def execDebounceExpire (ch : Channel) (s : State) : Host.Outcome State Fault Refusal := .next (expireIsr ch s)

end Sys2Proof.Machine
end

