-- ==== Sys2Proof/Machine/Controller.lean ====
section
/-! DEFINITION. The reference controller (42_hd44780_bus_words): the effect of each bus word, the reception of a
transfer, and the meanings of the bus9 and bus5 rows. -/

namespace Sys2Proof.Machine

/-! ### The effects of the instructions; `t` is the time of reception -/

/-- Clear display (R165). -/
def hdClearDisplay (x : ExecTimes) (t : Nat) (h : Hd) : Hd :=
  { h with ddram := [], ac := 0, target := .ddram, id := true, shift := 0, busyUntil := t + x.clear }

/-- Return home (R166). -/
def hdReturnHome (x : ExecTimes) (t : Nat) (h : Hd) : Hd :=
  { h with ac := 0, target := .ddram, shift := 0, busyUntil := t + x.home }

/-- Entry mode set (R167). -/
def hdEntryModeSet (x : ExecTimes) (id s : Bool) (t : Nat) (h : Hd) : Hd :=
  { h with id := id, s := s, busyUntil := t + x.command }

/-- Display on/off control (R168). -/
def hdDisplayControl (x : ExecTimes) (d c b : Bool) (t : Nat) (h : Hd) : Hd :=
  { h with d := d, c := c, b := b, busyUntil := t + x.command }

/-- The address counter's successor or predecessor in DDRAM (R173, `step`). -/
def stepAc (a : BitVec 7) (up n : Bool) : BitVec 7 :=
  match up, n with
  | true, false => if a = 0x4F then 0x00 else a + 1
  | true, true => if a = 0x27 then 0x40 else if a = 0x67 then 0x00 else a + 1
  | false, false => if a = 0x00 then 0x4F else a - 1
  | false, true => if a = 0x40 then 0x27 else if a = 0x00 then 0x67 else a - 1

/-- The address counter's successor or predecessor in CGRAM, modulo 64 (R173). -/
def stepCg (a : BitVec 7) (up : Bool) : BitVec 7 :=
  BitVec.ofNat 7 (if up then (a.toNat + 1) % 64 else (a.toNat + 63) % 64)

/-- Cursor or display shift (R169). The cursor moves through the DDRAM addresses in the order of R173; while the
counter points into CGRAM the spec states no result, and `free` is it (log 20). A display shift to the right counts
up (log 21). -/
def hdCursorDisplayShift (x : ExecTimes) (sc rl : Bool) (free : BitVec 7) (t : Nat) (h : Hd) : Hd :=
  if sc then { h with shift := if rl then h.shift + 1 else h.shift - 1, busyUntil := t + x.command }
  else
    match h.target with
    | .ddram => { h with ac := stepAc h.ac rl h.n, busyUntil := t + x.command }
    | .cgram => { h with ac := free, busyUntil := t + x.command }

/-- Function set (R170). The phase becomes High when the mode becomes Four. -/
def hdFunctionSet (x : ExecTimes) (dl n f : Bool) (t : Nat) (h : Hd) : Hd :=
  if dl then { h with mode := .eight, n := n, f := f, busyUntil := t + x.command }
  else { h with mode := .four, phase := .high, n := n, f := f, busyUntil := t + x.command }

/-- Set CGRAM address (R171). -/
def hdSetCgramAddr (x : ExecTimes) (a : BitVec 6) (t : Nat) (h : Hd) : Hd :=
  { h with ac := a.setWidth 7, target := .cgram, busyUntil := t + x.command }

/-- The backed DDRAM addresses (R172). -/
def ddramBacked (n : Bool) (a : BitVec 7) : Bool :=
  if n then decide (a ≤ 0x27) || (decide (0x40 ≤ a) && decide (a ≤ 0x67)) else decide (a ≤ 0x4F)

/-- Set DDRAM address (R172): an address outside the backed set faults. -/
def hdSetDdramAddr (x : ExecTimes) (a : BitVec 7) (t : Nat) (h : Hd) : Hd :=
  if ddramBacked h.n a then { h with ac := a, target := .ddram, busyUntil := t + x.command }
  else { h with fault := some .badDdramAddress }

/-- Write data (R173). -/
def hdWriteData (x : ExecTimes) (d : Byte) (t : Nat) (h : Hd) : Hd :=
  match h.target with
  | .ddram => { ddramWrite h.ac d h with ac := stepAc h.ac h.id h.n, busyUntil := t + x.data }
  | .cgram => { cgramWrite (h.ac.extractLsb' 0 6) d h with ac := stepCg h.ac h.id, busyUntil := t + x.data }

/-- The reserved instruction (R178): it faults and takes no other action. -/
def hdReserved00 (h : Hd) : Hd := { h with fault := some .reservedInstruction }

/-- `execute(rs, byte, t)` (R162, R165-R173, R178) of the byte `{hi, lo}`: the highest set bit selects the
instruction (30_encoding R86), with the fields of R87. `free` is for a cursor move (log 20). -/
def hdExecute (x : ExecTimes) (free : BitVec 7) (rs : Bool) (hi lo : BitVec 4) (t : Nat) (h : Hd) : Hd :=
  if rs then hdWriteData x (hi ++ lo) t h
  else if hi.getLsbD 3 then hdSetDdramAddr x (hi.extractLsb' 0 3 ++ lo) t h
  else if hi.getLsbD 2 then hdSetCgramAddr x (hi.extractLsb' 0 2 ++ lo) t h
  else if hi.getLsbD 1 then hdFunctionSet x (hi.getLsbD 0) (lo.getLsbD 3) (lo.getLsbD 2) t h
  else if hi.getLsbD 0 then hdCursorDisplayShift x (lo.getLsbD 3) (lo.getLsbD 2) free t h
  else if lo.getLsbD 3 then hdDisplayControl x (lo.getLsbD 2) (lo.getLsbD 1) (lo.getLsbD 0) t h
  else if lo.getLsbD 2 then hdEntryModeSet x (lo.getLsbD 1) (lo.getLsbD 0) t h
  else if lo.getLsbD 1 then hdReturnHome x t h
  else if lo.getLsbD 0 then hdClearDisplay x t h
  else hdReserved00 h

/-! ### Reception -/

/-- The opening of `receive` (R162): a fault is sticky, and a transfer inside the busy time faults. -/
def hdAccept (t : Nat) (act : Hd → Hd) (h : Hd) : Hd :=
  if h.fault.isSome then h
  else if hdBusy t h then { h with fault := some .busyViolation }
  else act h

/-- The four lines D7..D4 of a transfer: a FourBit transfer carries them in `data[3:0]`, an EightBit one in `data[7:4]`
(R162). -/
def highLines (wiring : BusWidth) (data : Byte) : BitVec 4 :=
  match wiring with
  | .eightBit => data.extractLsb' 4 4
  | .fourBit => data.extractLsb' 0 4

/-- The four lines DB3..DB0 of a transfer: in FourBit wiring they are not connected, and `nibble` is what the
controller reads there (R162). -/
def lowLines (wiring : BusWidth) (nibble : BitVec 4) (data : Byte) : BitVec 4 :=
  match wiring with
  | .eightBit => data.extractLsb' 0 4
  | .fourBit => nibble

/-- CONFIGURE is in progress. -/
def configuring (s : State) : Bool :=
  match s.fg with
  | .busy .configure _ _ => true
  | _ => false

/-- The last transfer recorded is one of the two of 70_reset_and_hazards R313: the first of CONFIGURE, on a controller that
waits for a high nibble, or the second, on one that holds the first. No operation before CONFIGURE makes a transfer
(41_display_driver R120, R126), so the recorded ones are its own. -/
def recovering (s : State) : Bool :=
  configuring s &&
    match s.transfers.length, s.hd.phase with
    | 1, .high => true
    | 2, .low _ _ => true
    | _, _ => false

/-- The nibble a controller in Four mode takes of a transfer: `data[3:0]` (R162), but of the two transfers of which
70_reset_and_hazards R313 speaks the lines D7..D4, which differs in EightBit wiring only (log 19). -/
def fourModeNibble (recovery : Bool) (wiring : BusWidth) (data : Byte) : BitVec 4 :=
  if recovery then highLines wiring data else data.extractLsb' 0 4

/-- What the controller does with a transfer it accepts (R162). -/
def hdTake (x : ExecTimes) (recovery : Bool) (wiring : BusWidth) (nibble : BitVec 4) (addr : BitVec 7) (rs : Bool)
    (data : Byte) (t : Nat) (h : Hd) : Hd :=
  match h.mode with
  | .eight => hdExecute x addr rs (highLines wiring data) (lowLines wiring nibble data) t h
  | .four =>
    match h.phase with
    | .high => { h with phase := .low (fourModeNibble recovery wiring data) rs }
    | .low hi r =>
      if r ≠ rs then { h with fault := some .rsChangedMidByte }
      else hdExecute x addr rs hi (fourModeNibble recovery wiring data) t { h with phase := .high }

/-- `receive(rs, data, t)` (R162), of one of the two transfers of R313 or of any other (log 19). -/
def hdReceive (x : ExecTimes) (recovery : Bool) (wiring : BusWidth) (nibble : BitVec 4) (addr : BitVec 7) (rs : Bool)
    (data : Byte) (t : Nat) (h : Hd) : Hd :=
  hdAccept t (hdTake x recovery wiring nibble addr rs data t) h

/-- A transfer reaches the controller now; its free values are drawn. -/
def deliver (wiring : BusWidth) (rs : Bool) (data : Byte) (s : State) : State :=
  drawn { s with
    hd := hdReceive s.par.tExec (recovering s) wiring (Config.freeNibble s.draws) (Config.freeAddress s.draws)
      rs data s.now s.hd }

/-- A complete bus word reaches the controller now (log 18). -/
def onHd (act : ExecTimes → Nat → Hd → Hd) (s : State) : State :=
  { s with hd := hdAccept s.now (act s.par.tExec s.now) s.hd }

/-! ### Meanings -/

/-- HD_CLEAR_DISPLAY (R165). -/
def execHdClearDisplay (s : State) : Host.Outcome State Fault Refusal := .next (onHd hdClearDisplay s)

/-- HD_RETURN_HOME (R166). -/
def execHdReturnHome (s : State) : Host.Outcome State Fault Refusal := .next (onHd hdReturnHome s)

/-- HD_ENTRY_MODE_SET (R167). -/
def execHdEntryModeSet (id sh : Bool) (s : State) : Host.Outcome State Fault Refusal :=
  .next (onHd (fun x => hdEntryModeSet x id sh) s)

/-- HD_DISPLAY_CONTROL (R168). -/
def execHdDisplayControl (d c b : Bool) (s : State) : Host.Outcome State Fault Refusal :=
  .next (onHd (fun x => hdDisplayControl x d c b) s)

/-- HD_CURSOR_DISPLAY_SHIFT (R169). -/
def execHdCursorDisplayShift (sc rl : Bool) (s : State) : Host.Outcome State Fault Refusal :=
  .next (drawn (onHd (fun x => hdCursorDisplayShift x sc rl (Config.freeAddress s.draws)) s))

/-- HD_FUNCTION_SET (R170). -/
def execHdFunctionSet (dl n f : Bool) (s : State) : Host.Outcome State Fault Refusal :=
  .next (onHd (fun x => hdFunctionSet x dl n f) s)

/-- HD_SET_CGRAM_ADDR (R171). -/
def execHdSetCgramAddr (a : BitVec 6) (s : State) : Host.Outcome State Fault Refusal :=
  .next (onHd (fun x => hdSetCgramAddr x a) s)

/-- HD_SET_DDRAM_ADDR (R172). -/
def execHdSetDdramAddr (a : BitVec 7) (s : State) : Host.Outcome State Fault Refusal :=
  .next (onHd (fun x => hdSetDdramAddr x a) s)

/-- HD_WRITE_DATA (R173). -/
def execHdWriteData (d : Byte) (s : State) : Host.Outcome State Fault Refusal :=
  .next (onHd (fun x => hdWriteData x d) s)

/-- HD_RESERVED_00 (R178). -/
def execHdReserved00 (s : State) : Host.Outcome State Fault Refusal := .next (onHd (fun _ _ => hdReserved00) s)

/-- NIBBLE_MODE_SELECT (41_display_driver R122): the transfer RS = 0, nibble 0x2 on D7..D4, received in FourBit
wiring (42_hd44780_bus_words R162, R182). -/
def execNibbleModeSelect (s : State) : Host.Outcome State Fault Refusal := .next (deliver .fourBit false 0x02 s)

end Sys2Proof.Machine
end

