-- ==== Sys2Proof/Machine/Display.lean ====
section
/-! DEFINITION. The Display Driver (41_display_driver): the shared micro-step sequences and the starting step of each
display operation. -/

namespace Sys2Proof.Machine

/-! ### Micro-step sequences -/

/-- `SEND_RS(l)` (41_display_driver R138). -/
def sendRs (c : DisplayCfg) (l : Bool) : List MicroStep := [.pinsWrite (rsMask c) (if l then rsMask c else 0)]

/-- `XFER(pattern)` (R135): clear, assert, pulse. -/
def xfer (c : DisplayCfg) (pattern : Nat) : List MicroStep :=
  [.pinsWrite (dataMask c) 0, .pinsWrite pattern pattern, .pinsWrite (enableMask c) (enableMask c),
    .wait Config.tEnableHigh, .pinsWrite (enableMask c) 0]

/-- `BYTE4(b)` (R136): the high nibble, then the low one. -/
def byte4 (c : DisplayCfg) (b : Byte) : List MicroStep :=
  xfer c (mask4 ((b.extractLsb' 4 4).setWidth 8) c.pins) ++ xfer c (mask4 ((b.extractLsb' 0 4).setWidth 8) c.pins)

/-- `BYTE8(b)` (R137). -/
def byte8 (c : DisplayCfg) (b : Byte) : List MicroStep := xfer c (mask8 b c.pins)

/-- `WRITE(b)` (R128). -/
def writeByte (c : DisplayCfg) (b : Byte) : List MicroStep :=
  match c.width with
  | .eightBit => byte8 c b
  | .fourBit => byte4 c b

/-- A byte with its RS level: the body of `write_command` (R126) and `write_char` (R127). -/
def sendByte (c : DisplayCfg) (rs : Bool) (b : Byte) : List MicroStep := sendRs c rs ++ writeByte c b

/-- A list of characters, each with its own `SEND_RS(1)` (R130). -/
def sendChars (c : DisplayCfg) : List Byte → List MicroStep
  | [] => []
  | b :: bs => sendByte c true b ++ sendChars c bs

/-- `CMD(b) ++ S` (R123): an initialisation command and its settle wait. -/
def initCommand (p : Params) (c : DisplayCfg) (b : Byte) : List MicroStep := sendByte c false b ++ [.wait p.tSettle]

/-- `INIT4` and `INIT8` (R122-R124). -/
def initSteps (p : Params) (c : DisplayCfg) : List MicroStep :=
  match c.width with
  | .fourBit =>
    sendRs c false ++ xfer c (mask4 (p.nibbleSel.setWidth 8) c.pins) ++ [.wait p.tSettle] ++
      initCommand p c p.fs4 ++ initCommand p c p.dispOn ++ initCommand p c p.clear ++ initCommand p c p.home
  | .eightBit =>
    initCommand p c p.fs8 ++ initCommand p c p.dispOn ++ initCommand p c p.clear ++ initCommand p c p.home

/-- The steps of a row write (R130): row select, then 16 characters. -/
def lineSteps (p : Params) (c : DisplayCfg) (rowCmd : Byte) (text : List Byte) : List MicroStep :=
  sendByte c false rowCmd ++ sendChars c (lineChars p.pad text)

/-! ### Starting steps -/

/-- CONFIGURE's own checks, in order (R120, 60_exceptions R271). -/
def configureCheck (pins : PinAssignment) (s : State) : Option RefuseReason :=
  if s.cfg.isSome then some .configureTwice
  else if wellFormedPins s.par pins then none
  else some .badPinAssignment

/-- CONFIGURE's effect once its checks pass (R120): the configuration, the pin modes, the initialisation list. -/
def configureStart (pins : PinAssignment) (s : State) : State :=
  match widthOf pins with
  | none => s
  | some width =>
    { s with
      cfg := some ⟨pins, width⟩
      pinMode := programPins (usedMask ⟨pins, width⟩) s.pinMode
      fg := .busy .configure (initSteps s.par ⟨pins, width⟩) 0 }

/-- The check of every display write (R126, R127, R130, R132): configured, then the operation's own. -/
def writeCheck (own : Option RefuseReason) (s : State) : Option RefuseReason :=
  match s.cfg with
  | none => some .notConfigured
  | some _ => own

/-- A display write's effect once its checks pass: `st.fg <- Busy(op, steps, 0)`. -/
def writeStart (op : DisplayOp) (steps : Params → DisplayCfg → List MicroStep) (s : State) : State :=
  match s.cfg with
  | none => s
  | some c => { s with fg := .busy op (steps s.par c) 0 }

/-- The starting step of a display write. -/
def startWrite (op : DisplayOp) (own : Option RefuseReason) (steps : Params → DisplayCfg → List MicroStep)
    (s : State) : State :=
  startOp op (writeCheck own s) (writeStart op steps) s

/-- CONFIGURE (R120-R125). -/
def execConfigure (pins : PinAssignment) (s : State) : Host.Outcome State Fault Refusal :=
  .next (startOp .configure (configureCheck pins s) (configureStart pins) s)

/-- WRITE_COMMAND (R126). -/
def execWriteCommand (b : Byte) (s : State) : Host.Outcome State Fault Refusal :=
  .next (startWrite .writeCommand none (fun _ c => sendByte c false b) s)

/-- WRITE_CHAR (R127). -/
def execWriteChar (b : Byte) (s : State) : Host.Outcome State Fault Refusal :=
  .next (startWrite .writeChar none (fun _ c => sendByte c true b) s)

/-- WRITE_LINE (R130). -/
def execWriteLine (text : List Byte) (row : Nat) (s : State) : Host.Outcome State Fault Refusal :=
  .next (match rowCommand s.par row with
    | none => startWrite .writeLine (some .badRow) (fun _ _ => []) s
    | some rowCmd => startWrite .writeLine none (fun p c => lineSteps p c rowCmd text) s)

/-- WRITE_TWO_LINES (R132): the steps of row 1, then those of row 2, as one operation. -/
def execWriteTwoLines (text1 text2 : List Byte) (s : State) : Host.Outcome State Fault Refusal :=
  .next (startWrite .writeTwoLines none
    (fun p c => lineSteps p c p.rowCmd1 text1 ++ lineSteps p c p.rowCmd2 text2) s)

end Sys2Proof.Machine
end

