-- ==== Sys2Proof/Machine/Sequencer.lean ====
section
/-! DEFINITION. The Foreground sequencer (10_state R40): micro-steps, pin writes and the transfers they make
(41_display_driver R141). -/

namespace Sys2Proof.Machine

/-- `PinsWrite(m, v)` sets pin `p` (00_scope R9). -/
def sets (m v : Nat) (p : Nat) : Bool := m.testBit p && v.testBit p

/-- `PinsWrite(m, v)` clears pin `p`. -/
def clears (m v : Nat) (p : Nat) : Bool := m.testBit p && !v.testBit p

/-- The controller latches what the lines hold (41_display_driver R141). A line never driven gives a free bit
(log 17). -/
def captureTransfer (c : DisplayCfg) (s : State) : State :=
  let seen := seenLevel s.out (Config.freePattern s.draws)
  let rs := seen c.pins.rs
  let data := readBus c.width seen c.pins
  deliver c.width rs data
    { s with transfers := ⟨rs, data, s.now, s.eRise.map fun t => s.now - t⟩ :: s.transfers }

/-- A write that lowers E while it is high makes a transfer, read before the write (R141). -/
def latch (m v : Nat) (s : State) : State :=
  match s.cfg with
  | none => s
  | some c =>
    if clears m v c.pins.e && (pinLevel s.out c.pins.e == .high) then captureTransfer c s else s

/-- When E was last set to 1. -/
def riseTime (m v : Nat) (s : State) : Option Nat :=
  match s.cfg with
  | none => s.eRise
  | some c => if sets m v c.pins.e then some s.now else s.eRise

/-- The pins after the write, and the event in the pin trace (00_scope R9, R12). -/
def drivePins (m v : Nat) (s : State) : State :=
  { s with out := drive m v s.out, eRise := riseTime m v s, trace := ⟨s.now, m, v⟩ :: s.trace }

/-- One micro-step (00_scope R9): an atomic pin write, or a Wait, after which the next Foreground step comes no
sooner than `d` from now. -/
def microStep : MicroStep → State → State
  | .pinsWrite m v, s => drivePins m v (latch m v s)
  | .wait d, s => { s with fgReady := s.now + d }

/-- The sequencer after the micro-step at `pc` (10_state R40). -/
def nextFg (op : DisplayOp) (steps : List MicroStep) (pc : Nat) : Fg :=
  if pc + 1 < steps.length then .busy op steps (pc + 1) else .idle

/-- A Foreground step (10_state R40): it performs `steps[pc]` and moves on. Idle, it does nothing. -/
def foregroundStep (s : State) : State :=
  match s.fg with
  | .idle => s
  | .busy op steps pc =>
    match steps[pc]? with
    | none => { s with fg := .idle }
    | some m => { microStep m (foregroundTime s) with fg := nextFg op steps pc }

/-- `k` Foreground steps with no other agent between them. -/
def foregroundSteps : Nat → State → State
  | 0, s => s
  | k + 1, s => foregroundSteps k (foregroundStep s)

end Sys2Proof.Machine
end

