-- ==== Sys2Proof/Machine/Dispatch.lean ====
section
/-! DEFINITION. One arm for each instruction. -/

namespace Sys2Proof.Machine

/-- The meaning of an instruction, one step of its agent (30_encoding R83, R86, R82). -/
def exec (i : Instr) (s : State) : Host.Outcome State Fault Refusal :=
  match i with
  | .configure pins => Sys2Proof.Machine.execConfigure pins s
  | .writeCommand b => Sys2Proof.Machine.execWriteCommand b s
  | .writeChar b => Sys2Proof.Machine.execWriteChar b s
  | .writeLine text row => Sys2Proof.Machine.execWriteLine text row s
  | .writeTwoLines text1 text2 => Sys2Proof.Machine.execWriteTwoLines text1 text2 s
  | .mask value width pins => Sys2Proof.Machine.execMask value width pins s
  | .tick => Sys2Proof.Machine.execTick s
  | .edge ch => Sys2Proof.Machine.execEdge ch s
  | .debounceExpire ch => Sys2Proof.Machine.execDebounceExpire ch s
  | .cmdStart => Sys2Proof.Machine.execCmdStart s
  | .cmdStop => Sys2Proof.Machine.execCmdStop s
  | .cmdLap => Sys2Proof.Machine.execCmdLap s
  | .cmdReset => Sys2Proof.Machine.execCmdReset s
  | .hdClearDisplay => Sys2Proof.Machine.execHdClearDisplay s
  | .hdReturnHome _ => Sys2Proof.Machine.execHdReturnHome s
  | .hdEntryModeSet id sh => Sys2Proof.Machine.execHdEntryModeSet id sh s
  | .hdDisplayControl d c b => Sys2Proof.Machine.execHdDisplayControl d c b s
  | .hdCursorDisplayShift sc rl _ => Sys2Proof.Machine.execHdCursorDisplayShift sc rl s
  | .hdFunctionSet dl n f _ => Sys2Proof.Machine.execHdFunctionSet dl n f s
  | .hdSetCgramAddr a => Sys2Proof.Machine.execHdSetCgramAddr a s
  | .hdSetDdramAddr a => Sys2Proof.Machine.execHdSetDdramAddr a s
  | .hdWriteData d => Sys2Proof.Machine.execHdWriteData d s
  | .hdReserved00 => Sys2Proof.Machine.execHdReserved00 s
  | .nibbleModeSelect => Sys2Proof.Machine.execNibbleModeSelect s

end Sys2Proof.Machine
end

