-- ==== Sys2Proof/Machine/Requests.lean ====
section
/-! DEFINITION. What each event of the queue does (log 2): a request is decoded and executed, the Foreground takes a
turn, the Environment acts; and what the block does with no event left. -/

namespace Sys2Proof.Machine

/-- The display operation an instruction requests, if it is one (00_scope R11). -/
def displayOpOf : Instr → Option DisplayOp
  | .configure _ => some .configure
  | .writeCommand _ => some .writeCommand
  | .writeChar _ => some .writeChar
  | .writeLine _ _ => some .writeLine
  | .writeTwoLines _ _ => some .writeTwoLines
  | .mask _ _ _ => none
  | .tick => none
  | .edge _ => none
  | .debounceExpire _ => none
  | .cmdStart => none
  | .cmdStop => none
  | .cmdLap => none
  | .cmdReset => none
  | .hdClearDisplay => none
  | .hdReturnHome _ => none
  | .hdEntryModeSet _ _ => none
  | .hdDisplayControl _ _ _ => none
  | .hdCursorDisplayShift _ _ _ => none
  | .hdFunctionSet _ _ _ _ => none
  | .hdSetCgramAddr _ => none
  | .hdSetDdramAddr _ => none
  | .hdWriteData _ => none
  | .hdReserved00 => none
  | .nibbleModeSelect => none

/-- The events of interrupt handlers and the commands they dispatch (60_exceptions R276). -/
def isHandlerOp : Instr → Bool
  | .configure _ => false
  | .writeCommand _ => false
  | .writeChar _ => false
  | .writeLine _ _ => false
  | .writeTwoLines _ _ => false
  | .mask _ _ _ => false
  | .tick => true
  | .edge _ => true
  | .debounceExpire _ => true
  | .cmdStart => true
  | .cmdStop => true
  | .cmdLap => true
  | .cmdReset => true
  | .hdClearDisplay => false
  | .hdReturnHome _ => false
  | .hdEntryModeSet _ _ => false
  | .hdDisplayControl _ _ _ => false
  | .hdCursorDisplayShift _ _ _ => false
  | .hdFunctionSet _ _ _ _ => false
  | .hdSetCgramAddr _ => false
  | .hdSetDdramAddr _ => false
  | .hdWriteData _ => false
  | .hdReserved00 => false
  | .nibbleModeSelect => false

/-- A frame that decodes to nothing: an unknown selector raises UnknownSelector (30_encoding R85, 60_exceptions
R270), at once, also while the Foreground is Busy or still has to wait: the spec gives such a request no agent and no
time (DESIGN CHOICE, log 8). Anything else is no instruction of the model's layout (log 4). -/
def rejectFrame (err : DecodeError) (s : State) : Host.Outcome State Fault Refusal :=
  match err with
  | .unknownSelector sel => .next (raise .unknownSelector (.selector sel) s)
  | other => .refused (.notAnInstruction other)

/-- An instruction is executed. A handler's step, or a command, which runs inside one, is not scheduled while the
Foreground has interrupts masked (20_memory R74): what is pending stays pending. -/
def runInstr (i : Instr) (s : State) : Host.Outcome State Fault Refusal :=
  if isHandlerOp i && s.irqMasked then .next s else exec i s

/-- A request. -/
def runFrame (f : Frame) (s : State) : Host.Outcome State Fault Refusal :=
  match decode f with
  | .ok i => runInstr i s
  | .error err => rejectFrame err s

/-- A request from inside an interrupt handler: a display operation is refused (10_state R41, 60_exceptions R270,
R276). While interrupts are masked no handler runs. -/
def runHandlerFrame (f : Frame) (s : State) : Host.Outcome State Fault Refusal :=
  if s.irqMasked then .next s
  else
    match decode f with
    | .ok i =>
      match displayOpOf i with
      | some op => .next (raise .reentrant (.display op) s)
      | none => exec i s
    | .error err => rejectFrame err s

/-- The Foreground does `act` when its call in progress has returned: while the sequencer is Busy it performs the next
micro-step, and the event `e` stays at the head of the queue. -/
def whenIdle (e : Event) (act : State → State) (s : State) : State :=
  if foregroundBusy s then foregroundStep { s with queue := e :: s.queue } else act (foregroundTime s)

/-- The Foreground masks interrupts or lets them through (20_memory R74). -/
def setMask (on : Bool) (s : State) : State := { s with irqMasked := on }

/-- One event, which has been taken off the queue of `s`. -/
def runEvent (e : Event) (s : State) : Host.Outcome State Fault Refusal :=
  match e with
  | .request f => runFrame f s
  | .handlerRequest f => runHandlerFrame f s
  | .foreground => .next (foregroundStep s)
  | .awaitIdle => .next (whenIdle .awaitIdle id s)
  | .read f => .next (whenIdle (.read f) (readField f) s)
  | .maskInterrupts on => .next (whenIdle (.maskInterrupts on) (setMask on) s)
  | .level ch l => .next (setLevel ch l s)
  | .advance us => .next (advanceTime us s)

/-- With no event left the block goes on alone: an enabled handler is served, else the Foreground performs its next
micro-step, or everything rests (60_exceptions R274, R277, R281, log 2). -/
def stepAlone (s : State) : Host.Outcome State Fault Refusal :=
  match nextHandler s with
  | some h => exec h.instr (drawn s)
  | none => .next (foregroundStep s)

end Sys2Proof.Machine
end

