-- ==== Sys2Proof/Machine/Step.lean ====
section
/-! DEFINITION. One step of the machine, and how an instruction is placed where the next step fetches it. -/

namespace Sys2Proof.Machine

/-- One step: after a refusal nothing has a meaning (60_exceptions R272); else the oldest event of the queue is taken
and run, or the block goes on alone. -/
def step (s : State) : Host.Outcome State Fault Refusal :=
  if s.refused then .fault .stuck
  else
    match s.queue with
    | [] => stepAlone s
    | e :: rest => runEvent e { s with queue := rest }

/-- `s` with the instruction of a table word placed first in the queue, from which `step` fetches (log 3), and interrupts
unmasked, as a handler's row needs (log 30). -/
def State.withFetchWord (s : State) (nbits w : Nat) : State :=
  { s with
    queue := .request ((tableFrame nbits w).getD (.op [BitVec.ofNat 8 w])) :: s.queue
    irqMasked := false }

end Sys2Proof.Machine
end

