-- ==== Sys2Proof/Machine/Program.lean ====
section
/-! DEFINITION. Programs in the assembler syntax of 30_encoding R91, the pseudo-instructions of R92, and how a program is
put into the queue (log 3). -/

namespace Sys2Proof.Machine

/-- A line of a program (30_encoding R91). -/
inductive Line where
  | configure (pins : PinAssignment)
  | wcmd (b : Byte)
  | wchar (b : Byte)
  | wline (row : Nat) (text : List Byte)
  | wlines (text1 text2 : List Byte)
  | tick
  | edge (ch : Channel)
  | expire (ch : Channel)
  | level (ch : Channel) (l : Bool)
  | advance (us : Nat)
  deriving DecidableEq, Repr

/-- A display call: the Foreground requests it and waits for its return. -/
def callEvents (i : Instr) : List Event := [.request (encode i), .awaitIdle]

/-- The events of a line. -/
def lineEvents : Line → List Event
  | .configure pins => callEvents (.configure pins)
  | .wcmd b => callEvents (.writeCommand b)
  | .wchar b => callEvents (.writeChar b)
  | .wline row text => callEvents (.writeLine text row)
  | .wlines text1 text2 => callEvents (.writeTwoLines text1 text2)
  | .tick => [.request (encode .tick)]
  | .edge ch => [.request (encode (.edge ch))]
  | .expire ch => [.request (encode (.debounceExpire ch))]
  | .level ch l => [.level ch l]
  | .advance us => [.advance us]

/-- A program's events, in order. -/
def programEvents : List Line → List Event
  | [] => []
  | l :: ls => lineEvents l ++ programEvents ls

/-- A program is loaded from outside the machine, after what is already queued (log 3). -/
def loadProgram (prog : List Line) (s : State) : State := { s with queue := s.queue ++ programEvents prog }

/-- The expansion of `wlines` (30_encoding R92). -/
def expandTwoLines (text1 text2 : List Byte) : List Line := [.wline 1 text1, .wline 2 text2]

/-- The expansion of `wline` for a row 1 or 2 (30_encoding R92); other rows have none. -/
def expandLine (p : Params) (row : Nat) (text : List Byte) : Option (List Line) :=
  (rowCommand p row).map fun rowCmd => .wcmd rowCmd :: (lineChars p.pad text).map .wchar

/-- A channel's name in the syntax. -/
def channelName : Channel → String
  | .start => "start"
  | .stop => "stop"
  | .lap => "lap"
  | .reset => "reset"

/-- An operand `d0=<p> `, or nothing. -/
def pinText (name : String) : Option Nat → String
  | none => ""
  | some p => " " ++ name ++ "=" ++ toString p

/-- A double-quoted string of bytes (30_encoding R91). Each byte is the character of its number, with no escape, also
0x22 and 0x80 and above, of which R91 says nothing (DESIGN CHOICE, log 34). -/
def textOf (t : List Byte) : String := "\"" ++ String.ofList (t.map fun b => Char.ofNat b.toNat) ++ "\""

/-- A line in the textual syntax of 30_encoding R91. -/
def lineText : Line → String
  | .configure a =>
    "configure" ++ pinText "d0" a.d0 ++ pinText "d1" a.d1 ++ pinText "d2" a.d2 ++ pinText "d3" a.d3 ++
      pinText "d4" (some a.d4) ++ pinText "d5" (some a.d5) ++ pinText "d6" (some a.d6) ++
      pinText "d7" (some a.d7) ++ pinText "e" (some a.e) ++ pinText "rs" (some a.rs)
  | .wcmd b => "wcmd " ++ toString b.toNat
  | .wchar b => "wchar " ++ toString b.toNat
  | .wline row text => "wline " ++ toString row ++ ", " ++ textOf text
  | .wlines text1 text2 => "wlines " ++ textOf text1 ++ ", " ++ textOf text2
  | .tick => "tick"
  | .edge ch => "edge " ++ channelName ch
  | .expire ch => "expire " ++ channelName ch
  | .level ch l => "level " ++ channelName ch ++ ", " ++ (if l then "1" else "0")
  | .advance us => "advance " ++ toString us

end Sys2Proof.Machine
end

