-- ==== Sys2Proof/Machine/Views.lean ====
section
/-! DEFINITION. What a reader of the state sees: the displayed time (44_timekeeping R250), the sub-field counter
(R233), the rendered rows and the panel (42_hd44780_bus_words R174, R180). -/

namespace Sys2Proof.Machine

/-- The displayed value of an elapsed or lap time: minutes, seconds, centiseconds (44_timekeeping R250). -/
def displayedTime (e : Nat) : Nat × Nat × Nat := (mins e, secs e, cents e)

/-- `inc_sub`, the sub-field carry chain (44_timekeeping R233). -/
def incSub (x : Nat × Nat × Nat) : Nat × Nat × Nat :=
  let (m, s, c) := x
  let (c1, s1) := if c + 1 = 100 then (0, s + 1) else (c + 1, s)
  let (s2, m2) := if s1 = 60 then (0, m + 1) else (s1, m)
  if m2 = 60 then (0, 0, 0) else (m2, s2, c1)

/-- The DDRAM base of a row (20_memory R62). -/
def rowBase (row : Nat) : Nat := if row = 1 then 0x00 else 0x40

/-- `row(r)` (42_hd44780_bus_words R180). -/
def renderedRow (h : Hd) (row : Nat) : List Byte :=
  (List.range Config.cols).map fun k => ddramRead h (BitVec.ofNat 7 (rowBase row + k))

/-- What a row of the panel shows: nothing the DDRAM controls, characters, or (with a display shift) something the
spec does not state. -/
inductive PanelRow where
  | dark
  | chars (l : List Byte)
  | unstated
  deriving DecidableEq, Repr

/-- The panel's rows (42_hd44780_bus_words R174). -/
def panelRow (h : Hd) (row : Nat) : PanelRow :=
  if !h.d then .dark
  else if h.shift ≠ 0 then .unstated
  else if row = 2 && !h.n then .dark
  else .chars (renderedRow h row)

end Sys2Proof.Machine
end

