-- ==== Sys2Proof/Safety.lean ====
section
/-! DEFINITION. What counts as a safe run: the launch premises of 70_reset_and_hazards R303, and the invariants that
claims speak of. -/

namespace Sys2Proof.Machine

/-- A machine that can go on: no refusal has marked it (60_exceptions R272). -/
def live (s : State) : Bool := !s.refused

/-- The controller at the launch of `configure` (70_reset_and_hazards R303, item 3): the supply has been up for
`T_PWR_US`, and the controller has completed its internal reset into its 8-bit boot mode
(41_display_driver R125, 42_hd44780_bus_words R161). A duty of the host, which `step` does not enforce (log 29).
That the supply rose at `now = 0` is the model's choice (log 35). -/
structure LaunchReady (s : State) : Prop where
  powered : s.par.tPwr ≤ s.now
  boot : s.hd = .powerOn s.hd.busyUntil
  rested : s.hd.busyUntil ≤ s.now

/-- The four button lines are distinct (00_scope R7, 10_state R33). -/
def LinesDistinct (s : State) : Prop := s.par.line.distinct = true

/-- Each line's enable is the opposite of its suppression, and its timer is armed exactly when it is suppressed
(43_debounce R205). -/
def LinesConsistent (s : State) : Prop :=
  ∀ c, (chanGet s.ch c).ie = !(chanGet s.ch c).suppressed ∧
    (chanGet s.ch c).deadline.isSome = (chanGet s.ch c).suppressed

/-- The range of `lap_delta` (10_state R37). -/
def lapDeltaInRange (p : Params) : LapDelta → Prop
  | .flat v => p.lapMode = .flattened ∧ v.toNat < Config.elapsedMod
  | .sub dm ds dc => p.lapMode = .subfieldNoBorrow ∧ dm < 2 ^ p.wSub ∧ ds < 2 ^ p.wSub ∧ dc < 2 ^ p.wSub

/-- The stopwatch values are in range (10_state R34, R36, R37). -/
structure StopwatchInRange (s : State) : Prop where
  elapsed : s.elapsed.toNat < Config.elapsedMod
  lapRef : s.lapRef.toNat < Config.elapsedMod
  lapDelta : lapDeltaInRange s.par s.lapDelta

/-- The pins a configuration uses; none without one (10_state R25). -/
def usedBy (cfg : Option DisplayCfg) (p : Nat) : Bool :=
  match cfg with
  | none => false
  | some c => (usedMask c).testBit p

/-- The pin space (10_state R21, R24, R26, R27): one mode and one level a pin, a configuration that is well formed, the
used pins programmed as outputs and no other, and no level ever driven on a pin that is not used. -/
structure PinsConsistent (s : State) : Prop where
  modes : s.pinMode.length = s.par.pinCount
  levels : s.out.length = s.par.pinCount
  wellFormed : ∀ c, s.cfg = some c → wellFormedPins s.par c.pins = true ∧ widthOf c.pins = some c.width
  programmed : ∀ p, p < s.par.pinCount →
    s.pinMode[p]? = some (if usedBy s.cfg p then .outputPullUp else .unconfigured)
  undriven : ∀ p, usedBy s.cfg p = false → pinLevel s.out p = .unknown

/-- A micro-step writes no pin outside `um` (41_display_driver R139). -/
def stepWithin (um : Nat) : MicroStep → Prop
  | .pinsWrite m _ => ∀ p, m.testBit p = true → um.testBit p = true
  | .wait _ => True

/-- The sequencer (10_state R40, 41_display_driver R139): `pc` is inside the list, and the list stays inside the used
pins of the configuration. -/
def SequencerInRange (s : State) : Prop :=
  ∀ op steps pc, s.fg = .busy op steps pc →
    pc < steps.length ∧ ∃ c, s.cfg = some c ∧ ∀ m ∈ steps, stepWithin (usedMask c) m

/-- The controller's memories keep their canonical form. -/
structure MemoriesCanonical (s : State) : Prop where
  ddram : Memory.wf (some ddramDefault) 128 s.hd.ddram = true
  cgram : Memory.wf none 64 s.hd.cgram = true

/-- Where a micro-step list stands in an Enable pulse. -/
inductive Pulse where
  /-- E is low, or its level is not the block's doing. -/
  | rest
  /-- E has been raised. -/
  | raised
  /-- The hold has been waited. -/
  | held
  deriving DecidableEq, Repr

/-- A list of micro-steps pulses E rightly from `ph` on (41_display_driver R135, R142, R143): E is lowered only after a
rise and a `Wait` of at least `T_EH_US`, and nothing else is written in between. -/
def pulsesRight (e : Nat) : Pulse → List MicroStep → Bool
  | _, [] => true
  | .rest, .wait _ :: l => pulsesRight e .rest l
  | .rest, .pinsWrite m v :: l =>
    if sets m v e then pulsesRight e .raised l else !m.testBit e && pulsesRight e .rest l
  | .raised, .wait d :: l =>
    if Config.tEnableHigh ≤ d then pulsesRight e .held l else pulsesRight e .raised l
  | .raised, .pinsWrite _ _ :: _ => false
  | .held, .wait _ :: l => pulsesRight e .held l
  | .held, .pinsWrite m v :: l => (m == 1 <<< e) && clears m v e && pulsesRight e .rest l

/-- What a pulse phase says of the times: E rose, and in `held` the Foreground goes on no sooner than `T_EH_US`
after that. -/
def pulseTimes (s : State) : Pulse → Prop
  | .rest => True
  | .raised => ∃ t, s.eRise = some t ∧ t ≤ s.now
  | .held => ∃ t, s.eRise = some t ∧ t + Config.tEnableHigh ≤ s.fgReady

/-- Every transfer made so far had E high for at least `T_EH_US`, and the operation in progress goes on so
(41_display_driver R142, 70_reset_and_hazards R310), whatever handlers run between the micro-steps. -/
structure EnableHeld (s : State) : Prop where
  past : ∀ x ∈ s.transfers, ∃ h, x.tHigh = some h ∧ Config.tEnableHigh ≤ h
  running : ∀ op steps pc, s.fg = .busy op steps pc →
    ∃ c ph, s.cfg = some c ∧ pulsesRight c.pins.e ph (steps.drop pc) = true ∧ pulseTimes s ph

/-- The controller is ready for the next operation's transfers in width `w`: no fault, its busy time over before the
first of them can come, in the interface mode of that width and between bytes, and counting up
(42_hd44780_bus_words R162, R163, R181). -/
structure ControllerReady (w : BusWidth) (s : State) : Prop where
  fault : s.hd.fault = none
  rested : s.hd.busyUntil ≤ max s.now s.fgReady + Config.tEnableHigh
  mode : match w with
    | .eightBit => s.hd.mode = .eight
    | .fourBit => s.hd.mode = .four ∧ s.hd.phase = .high
  counting : s.hd.id = true

/-- The transfers of a byte, newest first, without their times (20_memory R64, R81): one byte in EightBit, the high
nibble and then the low one in FourBit. -/
def byteTransfers (w : BusWidth) (rs : Bool) (b : Byte) : List (Bool × Byte) :=
  match w with
  | .eightBit => [(rs, b)]
  | .fourBit => [(rs, (b.extractLsb' 0 4).setWidth 8), (rs, (b.extractLsb' 4 4).setWidth 8)]

/-- The transfers of a list of bytes, newest first. -/
def bytesTransfers (w : BusWidth) : List (Bool × Byte) → List (Bool × Byte)
  | [] => []
  | x :: xs => bytesTransfers w xs ++ byteTransfers w x.1 x.2

/-- A transfer's content. -/
def Transfer.content (x : Transfer) : Bool × Byte := (x.rs, x.data)

/-- The bytes of a row write with their RS levels (41_display_driver R130). -/
def lineBytes (p : Params) (rowCmd : Byte) (text : List Byte) : List (Bool × Byte) :=
  (false, rowCmd) :: (lineChars p.pad text).map fun b => (true, b)

/-- The command operation of a channel (10_state R33, 30_encoding R83, R92). -/
def commandOf : Channel → Instr
  | .start => .cmdStart
  | .stop => .cmdStop
  | .lap => .cmdLap
  | .reset => .cmdReset

/-- The controller takes a bus word now: it has no fault and is not busy (42_hd44780_bus_words R162). -/
structure HdAccepts (s : State) : Prop where
  fault : s.hd.fault = none
  rested : s.hd.busyUntil ≤ s.now

/-- The words of the controller: the bus9 rows and the nibble-mode select. -/
def isBusWord : Instr → Bool
  | .configure _ => false
  | .writeCommand _ => false
  | .writeChar _ => false
  | .writeLine _ _ => false
  | .writeTwoLines _ _ => false
  | .mask _ _ _ => false
  | .tick => false
  | .edge _ => false
  | .debounceExpire _ => false
  | .cmdStart => false
  | .cmdStop => false
  | .cmdLap => false
  | .cmdReset => false
  | .hdClearDisplay => true
  | .hdReturnHome _ => true
  | .hdEntryModeSet _ _ => true
  | .hdDisplayControl _ _ _ => true
  | .hdCursorDisplayShift _ _ _ => true
  | .hdFunctionSet _ _ _ _ => true
  | .hdSetCgramAddr _ => true
  | .hdSetDdramAddr _ => true
  | .hdWriteData _ => true
  | .hdReserved00 => true
  | .nibbleModeSelect => true

/-- The stopwatch fields of two states agree (10_state R34-R37, R42). -/
structure SameStopwatch (s t : State) : Prop where
  elapsed : t.elapsed = s.elapsed
  running : t.running = s.running
  lapRef : t.lapRef = s.lapRef
  lapDelta : t.lapDelta = s.lapDelta
  nextTick : t.nextTick = s.nextTick
  tickLate : t.tickLate = s.tickLate

/-- The debounce state and the button inputs agree. -/
structure SameLines (s t : State) : Prop where
  ch : t.ch = s.ch
  button : t.button = s.button

/-- The pins and what was seen on them agree. -/
structure SamePins (s t : State) : Prop where
  out : t.out = s.out
  eRise : t.eRise = s.eRise
  trace : t.trace = s.trace
  transfers : t.transfers = s.transfers

/-- What the Foreground reader has read and its interrupt mask agree (20_memory R73, R74). -/
structure SameReader (s t : State) : Prop where
  irqMasked : t.irqMasked = s.irqMasked
  snapshot : t.snapshot = s.snapshot

/-- The configuration, the pin modes and the sequencer agree. -/
structure SameDriver (s t : State) : Prop where
  cfg : t.cfg = s.cfg
  pinMode : t.pinMode = s.pinMode
  fg : t.fg = s.fg
  fgReady : t.fgReady = s.fgReady

/-! ### Runs and fairness (60_exceptions R281) -/

/-- The instruction that the next step executes, if it executes one. -/
def stepInstr (s : State) : Option Instr :=
  match s.queue with
  | [] => (nextHandler s).map Handler.instr
  | .request f :: _ =>
    match decode f with
    | .ok i => if isHandlerOp i && s.irqMasked then none else some i
    | .error _ => none
  | .handlerRequest f :: _ =>
    match decode f with
    | .ok i => if s.irqMasked || (displayOpOf i).isSome then none else some i
    | .error _ => none
  | .foreground :: _ => none
  | .awaitIdle :: _ => none
  | .read _ :: _ => none
  | .maskInterrupts _ :: _ => none
  | .level _ _ :: _ => none
  | .advance _ :: _ => none

/-- The next step is the Foreground's: its micro-step while the sequencer is Busy. -/
def foregroundTurn (s : State) : Bool :=
  match s.queue with
  | [] => (nextHandler s).isNone
  | .request _ :: _ => false
  | .handlerRequest _ :: _ => false
  | .foreground :: _ => true
  | .awaitIdle :: _ => true
  | .read _ :: _ => true
  | .maskInterrupts _ :: _ => true
  | .level _ _ :: _ => false
  | .advance _ :: _ => false

/-- The agents that fairness speaks of (00_scope R11, 60_exceptions R281). -/
inductive Agent where
  | foreground
  | handler (h : Handler)
  deriving DecidableEq, Repr

/-- The agent can take a step: the Foreground while Busy, a handler whose source is pending and enabled. -/
def Agent.enabled (a : Agent) (s : State) : Bool :=
  match a with
  | .foreground => foregroundBusy s
  | .handler h => (enabledHandlers s).contains h

/-- The next step is the agent's. -/
def Agent.moves (a : Agent) (s : State) : Bool :=
  match a with
  | .foreground => foregroundTurn s
  | .handler h => stepInstr s == some h.instr

/-- An unending run. -/
def IsRun (r : Nat → State) : Prop := ∀ n, step (r n) = .next (r (n + 1))

/-- Weak fairness (60_exceptions R281): no agent stays enabled for ever without taking a step. -/
def WeaklyFair (r : Nat → State) : Prop :=
  ∀ (a : Agent) (n : Nat), ∃ m, n ≤ m ∧ (a.enabled (r m) = false ∨ a.moves (r m) = true)

end Sys2Proof.Machine
end

