-- ==== Sys2Proof/Certificates/Slice0/Obligations.lean ====
section
/-! DEFINITION. The statements about the model, from the numbered rules of spec/. -/

open Sys2Proof Sys2Proof.Machine

/-! ### Encoding -/

/-- Decoding the frame of a well-formed instruction gives it back, every operand at every value its encoding admits
(30_encoding R83, R84, R86, R82; the operand bytes of an op are the model's, log 4). -/
def Obligations.DecodeOfEncodeIsTheInstruction : Prop :=
  ∀ i : Instr, i.wf = true → decode (encode i) = .ok i

/-- Every bus9 word matches exactly one row of the table, the row it decodes to, and encoding what it decodes to
gives the word back (30_encoding R86, R87). -/
def Obligations.EveryBus9WordHasOneRow : Prop :=
  ∀ w : BitVec 9, (bus9Rows.filter fun r => r.accepts w.toNat).map Row.mnemonic = [(decodeBus9 w).mnemonic] ∧
    encode (decodeBus9 w) = .bus9 w

/-- A selector that no row matches spells no operation: the decoder refuses it by name, and a request of it, from the
Foreground or from a handler that may run, raises UnknownSelector and changes nothing else (30_encoding R85,
60_exceptions R270). That the refusal records the selector byte as its operation is the model's reading (log 1), so is
the request from a handler (log 27), and so is that it is refused at once, also while the Foreground is Busy or has to
wait (log 8). -/
def Obligations.UnmatchedSelectorIsRefusedByName : Prop :=
  ∀ (sel : Byte) (bs : List Byte) (rest : List Event) (s : State),
    (∀ r ∈ opRows, r.accepts sel.toNat = false) → s.refused = false →
    decode (.op (sel :: bs)) = .error (.unknownSelector sel) ∧
    (s.queue = .request (.op (sel :: bs)) :: rest ∨
        (s.queue = .handlerRequest (.op (sel :: bs)) :: rest ∧ s.irqMasked = false) →
      step s = .next { s with
        queue := rest, refused := true, refusal := some ⟨.unknownSelector, .selector sel⟩ })

/-- Words of the table, written out from the spec, decode to the instruction they stand for (30_encoding R82, R83,
R86; 95_test_vectors 2.5). -/
def Obligations.TableWordsDecode : Prop :=
  decodeTableWord 8 0x10 = some .tick ∧ decodeTableWord 8 0x23 = some (.edge .reset) ∧
  decodeTableWord 8 0x31 = some (.debounceExpire .stop) ∧ decodeTableWord 8 0x42 = some .cmdLap ∧
  decodeTableWord 8 0x24 = none ∧ decodeTableWord 8 0x07 = none ∧
  decodeTableWord 16 0x038 = some (.hdFunctionSet true true false 0) ∧
  decodeTableWord 16 0x00C = some (.hdDisplayControl true false false) ∧
  decodeTableWord 16 0x0C0 = some (.hdSetDdramAddr 0x40) ∧
  decodeTableWord 16 0x142 = some (.hdWriteData 0x42) ∧ decodeTableWord 5 0x02 = some .nibbleModeSelect

/-! ### The step -/

/-- A request at the head of the queue is fetched, decoded and executed, and nothing else happens in that step; while
the Foreground has interrupts masked, a handler's operation is not (30_encoding R83, 20_memory R74). That the step fetches
from the head of a queue is the model's choice (logs 2 and 3), and so is the interrupt mask as an event (log 30). -/
def Obligations.StepRunsTheDecodedRequest : Prop :=
  ∀ (s : State) (f : Frame) (rest : List Event) (i : Instr),
    s.refused = false → s.queue = .request f :: rest → decode f = .ok i →
    (s.irqMasked = false ∨ isHandlerOp i = false → step s = exec i { s with queue := rest }) ∧
    (s.irqMasked = true → isHandlerOp i = true → step s = .next { s with queue := rest })

/-- After a refusal the state is stuck: no step has a meaning, and no instruction clears the mark
(60_exceptions R272). -/
def Obligations.RefusalIsFinal : Prop :=
  ∀ s : State, s.refused = true →
    step s = .fault .stuck ∧ ∀ i t, exec i s = .next t → t.refused = true

/-- A display operation requested from inside a handler is refused with Reentrant, whatever the Foreground does;
nothing else changes (60_exceptions R276, R270). The request from a handler is an event of its own (log 27), and no
handler runs while interrupts are masked. -/
def Obligations.HandlersMayNotCallTheDisplay : Prop :=
  ∀ (s : State) (f : Frame) (rest : List Event) (i : Instr) (op : DisplayOp),
    s.refused = false → s.queue = .handlerRequest f :: rest → s.irqMasked = false → decode f = .ok i →
    displayOpOf i = some op →
    step s = .next { s with queue := rest, refused := true, refusal := some ⟨.reentrant, .display op⟩ }

/-- The Foreground reader: reading takes one stopwatch field into its snapshot, in one step, and leaves the others as
read before (20_memory R73); masking and unmasking interrupts is a step of its own. Both wait for the display call in
progress, whose micro-step the machine performs instead. While interrupts are masked no step of any kind runs a handler
or a command: the stopwatch stays, and so does every channel but for an edge remembered under PENDING_REPLAY (R74). That
reads and masking are events of the queue is the model's choice (log 30), and so is the time of such a step,
`max now fgReady`: R9 of 00_scope gives only a lower bound (logs 7 and 8). -/
def Obligations.ReaderReadsAndMasks : Prop :=
  ∀ (s : State) (rest : List Event), s.refused = false →
    (∀ f, s.queue = .read f :: rest →
      (s.fg = .idle → step s = .next { s with
        queue := rest
        now := max s.now s.fgReady
        snapshot := match f with
          | .elapsed => { s.snapshot with elapsed := some s.elapsed }
          | .running => { s.snapshot with running := some s.running }
          | .lapRef => { s.snapshot with lapRef := some s.lapRef }
          | .lapDelta => { s.snapshot with lapDelta := some s.lapDelta } }) ∧
      (s.fg ≠ .idle → step s = .next (foregroundStep s))) ∧
    (∀ on, s.queue = .maskInterrupts on :: rest →
      (s.fg = .idle → step s = .next { s with queue := rest, now := max s.now s.fgReady, irqMasked := on }) ∧
      (s.fg ≠ .idle → step s = .next (foregroundStep s))) ∧
    (s.irqMasked = true → ∀ t, step s = .next t → SameStopwatch s t ∧
      ∀ c, { chanGet t.ch c with pending := false } = { chanGet s.ch c with pending := false } ∧
        (s.par.pendingReplay = false → (chanGet t.ch c).pending = (chanGet s.ch c).pending))

/-- Left alone, with no event queued, the block is fair: in an unending run neither a Busy Foreground nor a pending
enabled handler waits for ever (60_exceptions R281, weak fairness), whatever order several pending handlers are served in
(R278; the order is a free value, log 2). -/
def Obligations.AloneTheBlockIsFair : Prop :=
  ∀ r : Nat → State, IsRun r → (r 0).queue = [] → WeaklyFair r

/-- The Environment's actions: time passes by what is asked; a level changes, and only a change to the pressed level is
a raw edge, which an enabled line keeps pending and a disabled one discards, or remembers under PENDING_REPLAY
(43_debounce R199-R201, 30_encoding R91). -/
def Obligations.EnvironmentActions : Prop :=
  ∀ (s : State) (rest : List Event), s.refused = false →
    (∀ us, s.queue = .advance us :: rest → step s = .next { s with queue := rest, now := s.now + us }) ∧
    (∀ c l, s.queue = .level c l :: rest →
      let b := chanGet s.button c
      let moved := { s with queue := rest, button := chanSet s.button c { b with level := l } }
      ((b.level = l ∨ l ≠ pressedLevel s.par) → step s = .next moved) ∧
      (b.level ≠ l → l = pressedLevel s.par → (chanGet s.ch c).ie = true →
        step s = .next { moved with button := chanSet s.button c ⟨l, true⟩ }) ∧
      (b.level ≠ l → l = pressedLevel s.par → (chanGet s.ch c).ie = false → s.par.pendingReplay = false →
        step s = .next moved) ∧
      (b.level ≠ l → l = pressedLevel s.par → (chanGet s.ch c).ie = false → s.par.pendingReplay = true →
        step s = .next { moved with ch := chanSet s.ch c { chanGet s.ch c with pending := true } }))

/-- Time never decreases (00_scope R10) and the deployment's parameters never change (R7), whatever step is taken. -/
def Obligations.TimeNeverDecreases : Prop :=
  ∀ s t : State, step s = .next t → s.now ≤ t.now ∧ t.par = s.par

/-- The configuration is set once: a step that finds one leaves it, and a step that sets one is a CONFIGURE request of
a well-formed assignment (10_state R21). -/
def Obligations.ConfigurationIsSetOnce : Prop :=
  ∀ s t : State, step s = .next t →
    (∀ c, s.cfg = some c → t.cfg = some c) ∧
    (∀ c, s.cfg = none → t.cfg = some c →
      wellFormedPins s.par c.pins = true ∧ widthOf c.pins = some c.width ∧
        ∃ f rest, (s.queue = .request f :: rest) ∧ decode f = .ok (.configure c.pins))

/-- The state right after reset (10_state R46, 70_reset_and_hazards R300): every field at its listed value, the tick
phase a draw in (0, T_TICK_US]. -/
def Obligations.ResetState : Prop :=
  let s := State.reset
  s.cfg = none ∧ s.pinMode = List.replicate s.par.pinCount .unconfigured ∧
  s.out = List.replicate s.par.pinCount .unknown ∧ s.fg = .idle ∧
  (∀ c, (chanGet s.ch c).suppressed = false ∧ (chanGet s.ch c).ie = true ∧ (chanGet s.ch c).deadline = none ∧
    (chanGet s.ch c).lastStable = .unknown ∧ (chanGet s.ch c).pending = false) ∧
  s.elapsed = 0 ∧ s.running = false ∧ s.lapRef = 0 ∧
  s.lapDelta = (match s.par.lapMode with | .flattened => .flat 0 | .subfieldNoBorrow => .sub 0 0 0) ∧
  (0 < s.nextTick ∧ s.nextTick ≤ Config.tTick) ∧ s.tickLate = false ∧ s.now = 0 ∧ s.refused = false

/-- The reference controller right after reset is in its power-on state (42_hd44780_bus_words R161). That its fault
field is empty there is the model's own reading (log 18), and that the supply rises at time 0 is its choice (log 35). -/
def Obligations.ControllerPowerOn : Prop :=
  let h := State.reset.hd
  h.mode = .eight ∧ h.phase = .high ∧ h.n = false ∧ h.f = false ∧ h.d = false ∧ h.c = false ∧ h.b = false ∧
  h.id = true ∧ h.s = false ∧ (∀ a, ddramRead h a = 0x20) ∧ (∀ a, cgramRead h a = none) ∧ h.ac = 0 ∧
  h.target = .ddram ∧ h.shift = 0 ∧ h.busyUntil = State.reset.par.tHdReset ∧ h.fault = none

/-! ### Invariants -/

/-- The state right after reset meets the invariants that the next statements say every step keeps: the lines, the
stopwatch, the pin space, the sequencer, the controller's memories and the Enable hold; and its four button lines are
distinct (00_scope R7, 10_state R33), as they stay, since the parameters never change. -/
def Obligations.ResetMeetsTheInvariants : Prop :=
  let l := State.reset.par.line
  LinesConsistent State.reset ∧ StopwatchInRange State.reset ∧ PinsConsistent State.reset ∧
  SequencerInRange State.reset ∧ MemoriesCanonical State.reset ∧ EnableHeld State.reset ∧
  (l.start ≠ l.stop ∧ l.start ≠ l.lap ∧ l.start ≠ l.reset ∧ l.stop ≠ l.lap ∧ l.stop ≠ l.reset ∧ l.lap ≠ l.reset)

/-- Every step keeps each line's enable the opposite of its suppression, and its timer armed exactly when it is
suppressed (43_debounce R205). -/
def Obligations.StepKeepsLinesConsistent : Prop :=
  ∀ s t : State, LinesConsistent s → step s = .next t → LinesConsistent t

/-- Every step keeps `elapsed`, `lap_ref` and `lap_delta` in range, in either lap mode (10_state R34, R36, R37). -/
def Obligations.StepKeepsStopwatchInRange : Prop :=
  ∀ s t : State, StopwatchInRange s → step s = .next t → StopwatchInRange t

/-- Every step keeps the pin space as the spec has it: the configuration well formed, the used pins programmed as
outputs and no other pin, no level driven on an unused pin (10_state R24, R26, R27). -/
def Obligations.StepKeepsPinsConsistent : Prop :=
  ∀ s t : State, PinsConsistent s → SequencerInRange s → step s = .next t → PinsConsistent t

/-- Every step keeps the sequencer's `pc` inside its list, and no operation's list ever writes a pin outside the used
ones (10_state R40, 41_display_driver R139). -/
def Obligations.StepKeepsSequencerInRange : Prop :=
  ∀ s t : State, SequencerInRange s → step s = .next t → SequencerInRange t

/-- Every step keeps the controller's two memories (42_hd44780_bus_words R160, R161) in the model's canonical form, which is
its own choice of representation (log 32). -/
def Obligations.StepKeepsMemoriesCanonical : Prop :=
  ∀ s t : State, MemoriesCanonical s → step s = .next t → MemoriesCanonical t

/-- Every transfer has E high for at least T_EH_US, whatever handlers and delays fall between the micro-steps
(41_display_driver R142, R143, 70_reset_and_hazards R310): every step keeps it so. -/
def Obligations.StepKeepsEnableHeld : Prop :=
  ∀ s t : State, PinsConsistent s → EnableHeld s → step s = .next t → EnableHeld t

/-! ### Whole-machine rules -/

/-- No handler step and no command writes a pin, the configuration, the pin modes, the sequencer or the controller
(60_exceptions R276), none is refused (R273), and none touches what the Foreground reader has read or its mask. -/
def Obligations.HandlersLeaveTheDisplayAlone : Prop :=
  ∀ (i : Instr) (s : State), isHandlerOp i = true →
    ∃ t, exec i s = .next t ∧ SameDriver s t ∧ SamePins s t ∧ SameReader s t ∧ t.hd = s.hd ∧
      t.maskResult = s.maskResult ∧ t.refused = s.refused ∧ t.refusal = s.refusal

/-- `elapsed` changes only by a tick while running, or by Reset while idle, which zeroes it; `lap_delta` only by Lap
while running, or by that Reset (44_timekeeping R247, 10_state R38). It is so of every instruction, and of every step of
the machine: one that changes either executes such an instruction. -/
def Obligations.OnlyTicksLapsAndResetsMoveTheStopwatch : Prop :=
  let allowed := fun (i : Instr) (s t : State) =>
    (t.elapsed ≠ s.elapsed →
      (i = .tick ∧ s.running = true) ∨
      ((i = .cmdReset ∨ i = .debounceExpire .reset) ∧ s.running = false ∧ t.elapsed = 0)) ∧
    (t.lapDelta ≠ s.lapDelta →
      ((i = .cmdLap ∨ i = .debounceExpire .lap) ∧ s.running = true) ∨
      ((i = .cmdReset ∨ i = .debounceExpire .reset) ∧ s.running = false ∧ t.lapDelta = .zero s.par.lapMode))
  (∀ (i : Instr) (s t : State), exec i s = .next t → allowed i s t) ∧
  (∀ s t : State, step s = .next t →
    (t.elapsed = s.elapsed ∧ t.lapDelta = s.lapDelta) ∨ ∃ i, stepInstr s = some i ∧ allowed i s t)

/-- The handlers of one channel leave the debounce state and the line of every other channel alone
(43_debounce R210). -/
def Obligations.ChannelsAreIndependent : Prop :=
  ∀ (c c' : Channel) (s t : State), c' ≠ c →
    (exec (.edge c) s = .next t ∨ exec (.debounceExpire c) s = .next t) →
    chanGet t.ch c' = chanGet s.ch c' ∧ chanGet t.button c' = chanGet s.button c'

/-- A display operation's starting step writes no pin, no stopwatch field, no line and no byte of the controller; only
CONFIGURE's writes the configuration and the pin modes (41_display_driver R139 and its opening words). -/
def Obligations.StartingStepsWriteNoPin : Prop :=
  ∀ (i : Instr) (op : DisplayOp) (s t : State), displayOpOf i = some op → exec i s = .next t →
    SamePins s t ∧ SameStopwatch s t ∧ SameLines s t ∧ SameReader s t ∧ t.hd = s.hd ∧ t.maskResult = s.maskResult ∧
    t.draws = s.draws ∧ t.queue = s.queue ∧ t.fgReady = s.fgReady ∧
    (op ≠ .configure → t.cfg = s.cfg ∧ t.pinMode = s.pinMode)

/-- A bus word of the controller, presented to the machine, changes the controller and nothing of the block. That it
reaches the controller so is the model's choice (log 18), and that NIBBLE_MODE_SELECT moves no pin and records no
transfer is its reading (log 28). -/
def Obligations.BusWordsTouchOnlyTheController : Prop :=
  ∀ (i : Instr) (s t : State), isBusWord i = true → exec i s = .next t →
    SameDriver s t ∧ SamePins s t ∧ SameStopwatch s t ∧ SameLines s t ∧ SameReader s t ∧ t.now = s.now ∧
    t.refused = s.refused ∧ t.refusal = s.refusal ∧ t.maskResult = s.maskResult ∧ t.queue = s.queue

/-! ### Bus masking -/

/-- Reading back the asserted pins gives the value's bits at the assigned positions and zero elsewhere
(40_bus_masking R105). -/
def Obligations.MaskReadsBack : Prop :=
  ∀ (p : Params) (a : PinAssignment) (w : BusWidth) (v : Byte),
    wellFormedPins p a = true →
    (w = .eightBit → ∀ i x, i < 8 → dataPin a i = some x → (maskIn w v a).testBit x = v.getLsbD i) ∧
    (w = .fourBit → ∀ j x, j < 4 → dataPin a (4 + j) = some x → (maskIn w v a).testBit x = v.getLsbD j) ∧
    (∀ x, (dataMask ⟨a, w⟩).testBit x = false → (maskIn w v a).testBit x = false)

/-- `unmask8` and `unmask4` invert the masks on the bits they place, so `mask` is injective on those bits
(40_bus_masking R106). -/
def Obligations.UnmaskInvertsMask : Prop :=
  ∀ (p : Params) (a : PinAssignment), wellFormedPins p a = true →
    (widthOf a = some .eightBit → ∀ v, unmask8 (mask8 v a) a = v) ∧
    (∀ v, unmask4 (mask4 v a) a = v.extractLsb' 0 4) ∧
    (widthOf a = some .eightBit → ∀ v v', mask8 v a = mask8 v' a → v = v') ∧
    (∀ v v', mask4 v a = mask4 v' a → v.extractLsb' 0 4 = v'.extractLsb' 0 4)

/-- MASK returns the pattern of its width for every well-formed assignment and changes nothing else, so the pattern
depends on its arguments alone; a malformed assignment is refused (40_bus_masking R100-R103). For EightBit without D0-D3
the pattern has the bits of D4-D7 and no other, read from R105 (log 16). Where the result goes is the model's choice
(log 15), and so is that it comes at once, also while the Foreground is Busy or has to wait (log 8). -/
def Obligations.MaskReturnsThePattern : Prop :=
  ∀ (s : State) (v : Byte) (w : BusWidth) (a : PinAssignment),
    (wellFormedPins s.par a = true → ∃ r, exec (.mask v w a) s = .next { s with maskResult := some r } ∧
      ∀ x, r.testBit x = true ↔ ∃ i, i < 8 ∧ dataPin a i = some x ∧
        (match w with | .eightBit => v.getLsbD i = true | .fourBit => 4 ≤ i ∧ v.getLsbD (i - 4) = true)) ∧
    (wellFormedPins s.par a = false →
      exec (.mask v w a) s = .next { s with refused := true, refusal := some ⟨.badPinAssignment, .mask⟩ })

/-! ### Display driver -/

/-- CONFIGURE on an idle, unconfigured block with a well-formed assignment: the configuration with the width it
determines, the used pins programmed as outputs and the others left, the initialisation list started, and nothing
else changed but the time (41_display_driver R120, R121, 10_state R26). That the starting step comes no sooner than the
last Wait ends is the model's reading (log 8), and that it comes exactly then if requested earlier its choice (log 7). -/
def Obligations.ConfigureStartsTheInitialisation : Prop :=
  ∀ (s : State) (pins : PinAssignment) (w : BusWidth),
    s.fg = .idle → s.cfg = none → wellFormedPins s.par pins = true →
    (w = .fourBit → pins.d0 = none ∧ pins.d1 = none ∧ pins.d2 = none ∧ pins.d3 = none) →
    (w = .eightBit → pins.d0.isSome ∧ pins.d1.isSome ∧ pins.d2.isSome ∧ pins.d3.isSome) →
    ∃ modes, exec (.configure pins) s = .next { s with
        now := max s.now s.fgReady
        cfg := some ⟨pins, w⟩
        pinMode := modes
        fg := .busy .configure (initSteps s.par ⟨pins, w⟩) 0 } ∧
      ∀ p, modes[p]? = s.pinMode[p]?.map fun m => if (usedMask ⟨pins, w⟩).testBit p then .outputPullUp else m

/-- The refusals of the display operations on an idle block, in their order, each before any other state changes
(41_display_driver R120, R121, R126, R127, R130, R132, 60_exceptions R270, R271): CONFIGURE twice, even with a malformed
assignment; a malformed assignment; a write before CONFIGURE, WRITE_LINE with any row NotConfigured first; when
configured, a row other than 1 and 2. Malformed is what 10_state R24 excludes, written out: D0-D3 neither all present nor
all absent, an identifier at P or above, two roles on one pin, a pin of a button line that shares the pin space. The
refused call is a Foreground step, so it comes no sooner than the last Wait ends (logs 7 and 8). -/
def Obligations.DisplayRefusalsComeFirst : Prop :=
  let low := fun (a : PinAssignment) => [a.d0, a.d1, a.d2, a.d3]
  let roles := fun (a : PinAssignment) => low a ++ [some a.d4, some a.d5, some a.d6, some a.d7, some a.e, some a.rs]
  let malformed := fun (p : Params) (a : PinAssignment) =>
    (none ∈ low a ∧ ∃ x, some x ∈ low a) ∨ (∃ x, some x ∈ roles a ∧ p.pinCount ≤ x) ∨
    (∃ (j k x : Nat), j < k ∧ (roles a)[j]? = some (some x) ∧ (roles a)[k]? = some (some x)) ∨
    (p.linesShared = true ∧ ∃ c, some (chanGet p.line c) ∈ roles a)
  (∀ p a, wellFormedPins p a = true ↔ ¬ malformed p a) ∧
  ∀ s : State, s.fg = .idle →
    let refusedWith := fun (r : RefuseReason) (op : DisplayOp) =>
      { s with now := max s.now s.fgReady, refused := true, refusal := some ⟨r, .display op⟩ }
    (∀ pins, s.cfg ≠ none → exec (.configure pins) s = .next (refusedWith .configureTwice .configure)) ∧
    (∀ pins, s.cfg = none → malformed s.par pins →
      exec (.configure pins) s = .next (refusedWith .badPinAssignment .configure)) ∧
    (∀ i op, s.cfg = none → displayOpOf i = some op → op ≠ .configure →
      exec i s = .next (refusedWith .notConfigured op)) ∧
    (∀ text row, s.cfg ≠ none → row ≠ 1 → row ≠ 2 →
      exec (.writeLine text row) s = .next (refusedWith .badRow .writeLine))

/-- The display writes start on an idle, configured block: WRITE_COMMAND and WRITE_CHAR for every byte with RS, then the
byte in the configured width (41_display_driver R126-R128); WRITE_LINE on rows 1 and 2 with the row select and 16
characters, padded or truncated (R130); WRITE_TWO_LINES with the steps of row 1 and then those of row 2 (R132). The time
of a starting step, the end of the last Wait if that is still to come, is the model's (logs 7 and 8). -/
def Obligations.DisplayWritesStart : Prop :=
  ∀ (s : State) (c : DisplayCfg), s.fg = .idle → s.cfg = some c →
    let started := fun (op : DisplayOp) (steps : List MicroStep) =>
      { s with now := max s.now s.fgReady, fg := .busy op steps 0 }
    (∀ b, exec (.writeCommand b) s = .next (started .writeCommand (sendByte c false b))) ∧
    (∀ b, exec (.writeChar b) s = .next (started .writeChar (sendByte c true b))) ∧
    (∀ text, exec (.writeLine text 1) s = .next (started .writeLine (lineSteps s.par c s.par.rowCmd1 text))) ∧
    (∀ text, exec (.writeLine text 2) s = .next (started .writeLine (lineSteps s.par c s.par.rowCmd2 text))) ∧
    (∀ text1 text2, exec (.writeTwoLines text1 text2) s = .next (started .writeTwoLines
      (lineSteps s.par c s.par.rowCmd1 text1 ++ lineSteps s.par c s.par.rowCmd2 text2)))

/-- A display operation starts only when the sequencer is Idle: requested while it is Busy, it is refused with
Reentrant before any check of its own, and no instruction moves a sequencer that is Busy (10_state R41, 60_exceptions
R270, R271). That the refusal comes at once, `now` as it was, is the model's reading: no rule gives its time (log 8). -/
def Obligations.BusyForegroundRefusesCalls : Prop :=
  ∀ (s : State) (op' : DisplayOp) (steps : List MicroStep) (pc : Nat), s.fg = .busy op' steps pc →
    (∀ i op, displayOpOf i = some op → exec i s =
      .next { s with refused := true, refusal := some ⟨.reentrant, .display op⟩ }) ∧
    (∀ i t, exec i s = .next t → t.fg = s.fg)

/-- Every row write sends exactly 17 bytes, one command and 16 characters: the text's first 16 bytes, then pads
(41_display_driver R130, R131). In EightBit that is 17 pulses of E, in FourBit 34. -/
def Obligations.RowWriteSendsSeventeenBytes : Prop :=
  ∀ (p : Params) (c : DisplayCfg) (rowCmd : Byte) (text : List Byte),
    lineSteps p c rowCmd text = (lineBytes p rowCmd text).flatMap (fun x => sendByte c x.1 x.2) ∧
    (lineBytes p rowCmd text).length = 17 ∧
    (∀ k, k < 16 → (lineChars p.pad text)[k]? = some (if h : k < text.length then text[k] else p.pad)) ∧
    (lineSteps p c rowCmd text).countP (fun m => m == .wait Config.tEnableHigh) =
      (match c.width with | .eightBit => 17 | .fourBit => 34)

/-- A Foreground step of a Busy sequencer performs the micro-step at `pc` and moves on by one; after the last it is
Idle; on an Idle one it does nothing (10_state R40, 00_scope R9). The step comes exactly when the last Wait ends if it is
its turn before (logs 7 and 8: the spec gives a lower bound). That is the machine's step with a Foreground turn at the
head of the queue, or with an empty queue and no handler enabled; with an empty queue and some enabled, one of them is
served, which one being free (60_exceptions R277, R278, log 2). -/
def Obligations.ForegroundPerformsItsMicroStep : Prop :=
  ∀ (s : State) (rest : List Event), s.refused = false →
    (s.queue = [] → enabledHandlers s = [] → step s = .next (foregroundStep s)) ∧
    (s.queue = [] → enabledHandlers s ≠ [] →
      ∃ h ∈ enabledHandlers s, step s = exec h.instr { s with draws := s.draws + 1 }) ∧
    (s.queue = .foreground :: rest → step s = .next (foregroundStep { s with queue := rest })) ∧
    (s.fg = .idle → foregroundStep s = s) ∧
    (∀ op steps pc m, s.fg = .busy op steps pc → steps[pc]? = some m →
      foregroundStep s = { microStep m { s with now := max s.now s.fgReady } with
        fg := if pc + 1 < steps.length then .busy op steps (pc + 1) else .idle }) ∧
    (∀ d, microStep (.wait d) s = { s with fgReady := s.now + d })

/-- `PinsWrite(m, v)` sets each pin of `m` to its bit of `v` and leaves every other pin (00_scope R9), and it joins the
pin trace (R12). -/
def Obligations.PinsWriteSetsExactlyItsPins : Prop :=
  ∀ (m v : Nat) (s : State),
    let t := microStep (.pinsWrite m v) s
    (∀ p, p < s.out.length →
      pinLevel t.out p = if m.testBit p then (if v.testBit p then .high else .low) else pinLevel s.out p) ∧
    t.out.length = s.out.length ∧ t.trace = ⟨s.now, m, v⟩ :: s.trace ∧ SameStopwatch s t ∧ SameLines s t ∧
    SameDriver s t ∧ SameReader s t ∧ t.now = s.now

/-- A pin write makes a transfer exactly when it lowers E while E is high; its content is what RS and the data lines
held before the write (41_display_driver R141), and the controller, wired to the block, receives it (log 18): as
one of the two transfers of 70_reset_and_hazards R313 exactly if CONFIGURE is in progress and this is its first transfer,
no nibble being held, or its second, one being held (log 19). -/
def Obligations.EnableFallMakesTheTransfer : Prop :=
  ∀ (s : State) (c : DisplayCfg) (m v : Nat) (rs recovery : Bool) (data : Byte), s.cfg = some c →
    (recovery = true ↔ (∃ steps pc, s.fg = .busy .configure steps pc) ∧
      (s.transfers.length = 0 ∧ s.hd.phase = .high ∨ s.transfers.length = 1 ∧ ∃ hi r, s.hd.phase = .low hi r)) →
    pinLevel s.out c.pins.rs = Level.ofBool rs →
    (∀ i x, i ∈ (match c.width with | .eightBit => dataLines8 | .fourBit => dataLines4) →
      dataPin c.pins i = some x →
      pinLevel s.out x = Level.ofBool (data.getLsbD (match c.width with | .eightBit => i | .fourBit => i - 4))) →
    (c.width = .eightBit → widthOf c.pins = some .eightBit) → (c.width = .fourBit → data.toNat < 16) →
    let t := microStep (.pinsWrite m v) s
    ((m.testBit c.pins.e = true ∧ v.testBit c.pins.e = false ∧ pinLevel s.out c.pins.e = .high) →
      t.transfers = ⟨rs, data, s.now, s.eRise.map fun r => s.now - r⟩ :: s.transfers ∧
      ∃ nib addr, t.hd = hdReceive s.par.tExec recovery c.width nib addr rs data s.now s.hd) ∧
    (¬ (m.testBit c.pins.e = true ∧ v.testBit c.pins.e = false ∧ pinLevel s.out c.pins.e = .high) →
      t.transfers = s.transfers ∧ t.hd = s.hd)

/-- Each XFER, its five micro-steps run with no other agent between, makes exactly one transfer, whatever level E had
before it: the RS level and the pattern decoded, with E high for at least T_EH_US (41_display_driver R142). -/
def Obligations.XferMakesExactlyOneTransfer : Prop :=
  ∀ (s : State) (c : DisplayCfg) (op : DisplayOp) (pre post : List MicroStep) (v : Byte) (rs : Bool),
    PinsConsistent s → s.cfg = some c → pinLevel s.out c.pins.rs = Level.ofBool rs →
    s.fg = .busy op (pre ++ xfer c (maskIn c.width v c.pins) ++ post) pre.length →
    ∃ tf h, Config.tEnableHigh ≤ h ∧
      (foregroundSteps 5 s).transfers =
        ⟨rs, (match c.width with | .eightBit => v | .fourBit => (v.extractLsb' 0 4).setWidth 8), tf, some h⟩ ::
          s.transfers

/-- A byte write run to its end with no other agent between: the transfers of 41_display_driver R146, in FourBit the
high nibble first (20_memory R64), in the time R147 asks for; it leaves E low and RS at its level (R145). -/
def Obligations.ByteWriteTransfers : Prop :=
  ∀ (s : State) (c : DisplayCfg) (rs : Bool) (b : Byte),
    PinsConsistent s → s.fg = .idle → s.cfg = some c →
    ∃ t, exec (if rs then .writeChar b else .writeCommand b) s = .next t ∧
      let u := foregroundSteps (match c.width with | .eightBit => 6 | .fourBit => 11) t
      u.fg = .idle ∧
      u.transfers.map Transfer.content = byteTransfers c.width rs b ++ s.transfers.map Transfer.content ∧
      s.now + (match c.width with | .eightBit => 1 | .fourBit => 2) * Config.tEnableHigh ≤ u.now ∧
      pinLevel u.out c.pins.e = .low ∧ pinLevel u.out c.pins.rs = Level.ofBool rs

/-- A row write run to its end with no other agent between: the row select, then 16 characters, each byte as
41_display_driver R146 has it, 17 or 34 transfers (R131), in the time R147 asks for; WRITE_TWO_LINES makes those of
row 1 and then those of row 2 (R132). -/
def Obligations.RowWriteTransfers : Prop :=
  ∀ (s : State) (c : DisplayCfg), PinsConsistent s → s.fg = .idle → s.cfg = some c →
    (∀ text row rowCmd, rowCommand s.par row = some rowCmd → ∃ t, exec (.writeLine text row) s = .next t ∧
      let u := foregroundSteps (match c.width with | .eightBit => 102 | .fourBit => 187) t
      u.fg = .idle ∧
      u.transfers.map Transfer.content =
        bytesTransfers c.width (lineBytes s.par rowCmd text) ++ s.transfers.map Transfer.content ∧
      s.now + (match c.width with | .eightBit => 17 | .fourBit => 34) * Config.tEnableHigh ≤ u.now) ∧
    (∀ text1 text2, ∃ t, exec (.writeTwoLines text1 text2) s = .next t ∧
      let u := foregroundSteps (match c.width with | .eightBit => 204 | .fourBit => 374) t
      u.fg = .idle ∧
      u.transfers.map Transfer.content =
        bytesTransfers c.width (lineBytes s.par s.par.rowCmd1 text1 ++ lineBytes s.par s.par.rowCmd2 text2) ++
          s.transfers.map Transfer.content ∧
      s.now + (match c.width with | .eightBit => 34 | .fourBit => 68) * Config.tEnableHigh ≤ u.now)

/-- The rendered row: with a ready controller, a row write leaves the row holding the text's first 16 bytes padded with
spaces, the other row unchanged and no fault, and WRITE_TWO_LINES leaves each row holding its text whatever the rows held
before (42_hd44780_bus_words R180, 41_display_driver R151), when no other agent runs between. The controller is wired to
the block (log 18). -/
def Obligations.RowWriteRendersTheRow : Prop :=
  ∀ (s : State) (c : DisplayCfg),
    PinsConsistent s → s.fg = .idle → s.cfg = some c → ControllerReady c.width s →
    s.par.rowCmd1 = 0x80 → s.par.rowCmd2 = 0xC0 →
    s.par.tExec.command ≤ Config.tEnableHigh → s.par.tExec.data ≤ Config.tEnableHigh →
    (∀ text row, (row = 1 ∨ row = 2) → ∃ t, exec (.writeLine text row) s = .next t ∧
      let u := foregroundSteps (match c.width with | .eightBit => 102 | .fourBit => 187) t
      u.fg = .idle ∧ u.hd.fault = none ∧ renderedRow u.hd row = lineChars s.par.pad text ∧
      renderedRow u.hd (3 - row) = renderedRow s.hd (3 - row)) ∧
    (∀ text1 text2, ∃ t, exec (.writeTwoLines text1 text2) s = .next t ∧
      let u := foregroundSteps (match c.width with | .eightBit => 204 | .fourBit => 374) t
      u.fg = .idle ∧ u.hd.fault = none ∧ renderedRow u.hd 1 = lineChars s.par.pad text1 ∧
      renderedRow u.hd 2 = lineChars s.par.pad text2)

/-- CONFIGURE run to its end with no other agent between brings a controller from its boot state to the state of
42_hd44780_bus_words R182 and R183, with no busy violation when T_SETTLE_US is at least 1020 (R181,
70_reset_and_hazards R312), by the transfers of 41_display_driver R146. The controller is wired to the block (log 18). The launch premise
(R303, item 3) counts T_PWR_US from time 0, when in the model the supply rises (log 35). -/
def Obligations.ConfigureBringsUpTheController : Prop :=
  ∀ (s : State) (pins : PinAssignment) (w : BusWidth),
    PinsConsistent s → LaunchReady s → s.fg = .idle → s.cfg = none → wellFormedPins s.par pins = true →
    widthOf pins = some w → s.par.tExec = {} → 1020 ≤ s.par.tSettle →
    s.par.fs4 = 0x20 → s.par.fs8 = 0x38 → s.par.dispOn = 0x0C → s.par.clear = 0x01 → s.par.home = 0x02 →
    s.par.nibbleSel = 0x2 →
    ∃ t, exec (.configure pins) s = .next t ∧
      let u := foregroundSteps (match w with | .eightBit => 28 | .fourBit => 55) t
      u.fg = .idle ∧ ControllerReady w u ∧
      u.hd.n = (match w with | .eightBit => true | .fourBit => false) ∧ u.hd.f = false ∧
      u.hd.d = true ∧ u.hd.c = false ∧ u.hd.b = false ∧ u.hd.ac = 0 ∧ u.hd.target = .ddram ∧
      (∀ a, ddramRead u.hd a = 0x20) ∧
      u.transfers.map Transfer.content =
        (match w with
        | .eightBit => [(false, 0x02), (false, 0x01), (false, 0x0C), (false, 0x38)]
        | .fourBit => [(false, 0x2), (false, 0x0), (false, 0x1), (false, 0x0), (false, 0xC), (false, 0x0),
            (false, 0x0), (false, 0x2), (false, 0x2)]) ++ s.transfers.map Transfer.content

/-! ### Debounce engine -/

/-- EDGE with a raw edge of the channel pending delivery on an enabled line: the line is disabled, the channel suppressed
and its timer armed for T_DB_US, and the edge is no longer pending; nothing else changes (43_debounce R200, 60_exceptions
R274). Without a pending edge, or on a disabled line, no handler is enabled (R200, R201); EDGE requested there changes
nothing (the model's choice, log 9). -/
def Obligations.EdgeArmsTheTimer : Prop :=
  ∀ (s : State) (c : Channel),
    ((chanGet s.button c).edgePending = true → (chanGet s.ch c).ie = true →
      exec (.edge c) s = .next { s with
        ch := chanSet s.ch c { chanGet s.ch c with
          ie := false, suppressed := true, deadline := some (s.now + 30000) }
        button := chanSet s.button c { chanGet s.button c with edgePending := false } }) ∧
    ((chanGet s.button c).edgePending = false ∨ (chanGet s.ch c).ie = false → exec (.edge c) s = .next s)

/-- DEBOUNCE_EXPIRE of an armed timer: at its deadline or later (requested early, it waits: log 7) the level is sampled,
the channel's command is dispatched once if it is the pressed level (as the CMD operation of that channel, 30_encoding
R92), and the line listens again whatever the sample; a remembered edge becomes pending (43_debounce R203, R204). Of a
disarmed timer it changes nothing (the model's choice, log 10). -/
def Obligations.ExpirySamplesAndRearms : Prop :=
  ∀ (s : State) (c : Channel),
    ((chanGet s.ch c).deadline = none → exec (.debounceExpire c) s = .next s) ∧
    ∀ d, (chanGet s.ch c).deadline = some d →
    ∃ s2, (if (chanGet s.button c).level = pressedLevel s.par
        then exec (commandOf c) { s with now := max s.now d } = .next s2
        else s2 = { s with now := max s.now d }) ∧
      exec (.debounceExpire c) s = .next { s2 with
        ch := chanSet s.ch c {
          suppressed := false
          ie := true
          deadline := none
          lastStable := if (chanGet s.button c).level then .high else .low
          pending := false }
        button := if s.par.pendingReplay && (chanGet s.ch c).pending
          then chanSet s.button c { chanGet s.button c with edgePending := true } else s.button }

/-- Bounce within the window: a released button is pressed, its line enabled and without PENDING_REPLAY, its edge handled;
within T_DB_US it is released, pressed again (a second raw edge) and left at some level until the expiry. The second edge
is discarded, and the stopwatch is as one command leaves it if the sampled level is the pressed one, and untouched
otherwise; the line listens again with no edge pending (43_debounce R207). A run of seven events with no other agent
between; the expiry is requested inside the window and waits for its deadline (log 7), and the edge handler runs because
an edge is pending (log 9). -/
def Obligations.BounceDispatchesAtMostOnce : Prop :=
  ∀ (s : State) (c : Channel) (k : Nat) (l : Bool),
    s.refused = false → s.irqMasked = false → s.par.pendingReplay = false → (chanGet s.ch c).ie = true →
    (chanGet s.button c).level = (!pressedLevel s.par) → k < Config.tDebounce →
    ∃ t : State, Host.Core.run Sys2Proof.core 7 { s with queue :=
        [.level c (pressedLevel s.par), .request (encode (.edge c)), .advance k, .level c (!pressedLevel s.par),
          .level c (pressedLevel s.par), .level c l, .request (encode (.debounceExpire c))] } = .next t ∧
      t.queue = [] ∧ t.now = s.now + Config.tDebounce ∧
      (chanGet t.ch c).ie = true ∧ (chanGet t.button c).edgePending = false ∧
      (if l = pressedLevel s.par
        then ∃ s2, exec (commandOf c) { s with now := s.now + Config.tDebounce } = .next s2 ∧ SameStopwatch s2 t
        else SameStopwatch s t)

/-- No hold or repeat (43_debounce R208): a line with no edge pending and its timer disarmed, as an expiry without a
remembered edge leaves it whatever level the button is held at, stays so in every step but a raw edge that reaches the
enabled line, and until then its handlers dispatch nothing. That a handler requested there does nothing is logs 9
and 10. -/
def Obligations.NoHoldOrRepeat : Prop :=
  ∀ (s t : State) (c : Channel),
    (exec (.debounceExpire c) s = .next t → (chanGet s.button c).edgePending = false →
      (s.par.pendingReplay = false ∨ (chanGet s.ch c).pending = false) →
      (chanGet t.button c).edgePending = false ∧ (chanGet t.ch c).deadline = none) ∧
    (step s = .next t → (chanGet s.button c).edgePending = false → (chanGet s.ch c).deadline = none →
      (stepInstr s = some (.edge c) ∨ stepInstr s = some (.debounceExpire c) → SameStopwatch s t) ∧
      ((∀ l rest, s.queue = .level c l :: rest →
          l = (chanGet s.button c).level ∨ l ≠ pressedLevel s.par ∨ (chanGet s.ch c).ie = false) →
        (chanGet t.button c).edgePending = false ∧ (chanGet t.ch c).deadline = none))

/-! ### Timekeeping -/

/-- TICK: at its firing time or later (requested early, it waits: log 7), one centisecond more modulo 360000 while running and no stopwatch change while
idle; a late firing is cleared, any other moves the next firing by T_TICK_US; nothing else changes
(44_timekeeping R240, R232). -/
def Obligations.TickAdvancesWhileRunning : Prop :=
  ∀ s : State,
    (s.tickLate = false → exec .tick s = .next { s with
      now := max s.now s.nextTick
      nextTick := s.nextTick + 10000
      elapsed := if s.running then BitVec.ofNat 32 ((s.elapsed.toNat + 1) % 360000) else s.elapsed }) ∧
    (s.tickLate = true → exec .tick s = .next { s with
      tickLate := false
      elapsed := if s.running then BitVec.ofNat 32 ((s.elapsed.toNat + 1) % 360000) else s.elapsed })

/-- CMD_START sets `running` and nothing else, a no-op while running; CMD_STOP clears it and nothing else, a no-op while
idle (44_timekeeping R241, R242). Invalid transitions are silent no-ops: Lap changes nothing unless the stopwatch runs,
Reset nothing unless it is idle (R248). -/
def Obligations.StartRunsAndStopHalts : Prop :=
  ∀ s : State, (s.running = false → exec .cmdStart s = .next { s with running := true }) ∧
    (s.running = true → exec .cmdStart s = .next s) ∧
    (s.running = true → exec .cmdStop s = .next { s with running := false }) ∧
    (s.running = false → exec .cmdStop s = .next s) ∧
    (s.running = false → exec .cmdLap s = .next s) ∧ (s.running = true → exec .cmdReset s = .next s)

/-- CMD_LAP while running, in both lap modes: the delta, then the reference becomes `elapsed`; nothing else changes
(44_timekeeping R243, R246). -/
def Obligations.LapComputesTheDelta : Prop :=
  ∀ s : State, s.running = true →
    (s.par.lapMode = .flattened → ∃ v : BitVec 32,
      (v.toNat : Int) = ((s.elapsed.toNat : Int) - (s.lapRef.toNat : Int)) % 360000 ∧
      exec .cmdLap s = .next { s with lapDelta := .flat v, lapRef := s.elapsed }) ∧
    (s.par.lapMode = .subfieldNoBorrow → ∃ dm ds dc : Nat,
      (dm : Int) = ((mins s.elapsed.toNat : Int) - (mins s.lapRef.toNat : Int)) % (2 ^ s.par.wSub : Nat) ∧
      (ds : Int) = ((secs s.elapsed.toNat : Int) - (secs s.lapRef.toNat : Int)) % (2 ^ s.par.wSub : Nat) ∧
      (dc : Int) = ((cents s.elapsed.toNat : Int) - (cents s.lapRef.toNat : Int)) % (2 ^ s.par.wSub : Nat) ∧
      exec .cmdLap s = .next { s with lapDelta := .sub dm ds dc, lapRef := s.elapsed })

/-- CMD_RESET while idle zeroes `elapsed`, `lap_ref` and `lap_delta`, starts running and restarts the tick period from
now; a firing already due is served late or dropped, and none other becomes late (44_timekeeping R244). -/
def Obligations.ResetRestartsTheStopwatch : Prop :=
  ∀ s : State, s.running = false → ∃ late : Bool, (late = true → s.nextTick ≤ s.now) ∧
    exec .cmdReset s = .next { s with
      elapsed := 0
      lapRef := 0
      lapDelta := match s.par.lapMode with | .flattened => .flat 0 | .subfieldNoBorrow => .sub 0 0 0
      running := true
      tickLate := late
      nextTick := s.now + 10000
      draws := s.draws + 1 }

/-- The flat counter and the minutes, seconds, centiseconds carry chain are the same (44_timekeeping R233). -/
def Obligations.SubfieldsCarryLikeTheCounter : Prop :=
  ∀ e : Nat, e < 360000 → displayedTime ((e + 1) % 360000) = incSub (displayedTime e)

/-! ### The reference controller

A bus word presented to the machine reaches the controller whole and at once (the model's choice, log 18). -/

/-- Clear display, return home and the reserved word, taken by a controller that accepts a word: after clear every DDRAM
address reads a space; home leaves DDRAM; the reserved word faults the controller and has no other effect, and the
block goes on (42_hd44780_bus_words R165, R166, R178). The word reaches the controller whole (log 18). -/
def Obligations.ClearHomeAndReservedWords : Prop :=
  ∀ s : State, HdAccepts s →
    (∃ ram, (∀ a, ddramRead { s.hd with ddram := ram } a = 0x20) ∧
      exec .hdClearDisplay s = .next { s with hd := { s.hd with
        ddram := ram, ac := 0, target := .ddram, id := true, shift := 0
        busyUntil := s.now + s.par.tExec.clear } }) ∧
    (∀ x, exec (.hdReturnHome x) s = .next { s with hd := { s.hd with
      ac := 0, target := .ddram, shift := 0, busyUntil := s.now + s.par.tExec.home } }) ∧
    exec .hdReserved00 s = .next { s with hd := { s.hd with fault := some .reservedInstruction } }

/-- Entry mode set, display control and function set change exactly their bits; the phase becomes High when the mode
becomes Four (42_hd44780_bus_words R167, R168, R170). The word reaches the controller whole (log 18). -/
def Obligations.ModeWords : Prop :=
  ∀ s : State, HdAccepts s →
    (∀ i sh, exec (.hdEntryModeSet i sh) s = .next { s with hd := { s.hd with
      id := i, s := sh, busyUntil := s.now + s.par.tExec.command } }) ∧
    (∀ d c b, exec (.hdDisplayControl d c b) s = .next { s with hd := { s.hd with
      d := d, c := c, b := b, busyUntil := s.now + s.par.tExec.command } }) ∧
    (∀ dl n f x, exec (.hdFunctionSet dl n f x) s = .next { s with hd := { s.hd with
      mode := if dl then .eight else .four
      phase := if dl then s.hd.phase else .high
      n := n, f := f, busyUntil := s.now + s.par.tExec.command } })

/-- A display shift moves the offset by one and leaves the address counter; a cursor move changes the counter and leaves
the offset; neither changes DDRAM (42_hd44780_bus_words R169). The rest is the model's reading, for R169 states no wrap:
in DDRAM a cursor move steps the counter in the order of R173's table, wrap points included (log 20), and from an address
R172 does not back by one modulo 128 (log 23); in CGRAM the counter's new value is free, and whatever it is, nothing else
changes (log 20); the offset's sign, and that it never wraps, are log 21. The word reaches the controller whole
(log 18). -/
def Obligations.CursorAndShiftWords : Prop :=
  let counted := fun (a : BitVec 7) (up n : Bool) (a' : BitVec 7) =>
    if up then
      if n = false ∧ a = 0x4F then a' = 0x00
      else if n = true ∧ a = 0x27 then a' = 0x40
      else if n = true ∧ a = 0x67 then a' = 0x00
      else a'.toNat = (a.toNat + 1) % 128
    else
      if n = false ∧ a = 0x00 then a' = 0x4F
      else if n = true ∧ a = 0x40 then a' = 0x27
      else if n = true ∧ a = 0x00 then a' = 0x67
      else a'.toNat + 1 = a.toNat
  ∀ (s : State) (rl : Bool) (x : BitVec 2), HdAccepts s →
    (∃ k : Int, k = (if rl then 1 else -1) ∧
      exec (.hdCursorDisplayShift true rl x) s = .next { s with
        hd := { s.hd with shift := s.hd.shift + k, busyUntil := s.now + s.par.tExec.command }
        draws := s.draws + 1 }) ∧
    (∃ a : BitVec 7, (s.hd.target = .ddram → counted s.hd.ac rl s.hd.n a) ∧
      exec (.hdCursorDisplayShift false rl x) s = .next { s with
        hd := { s.hd with ac := a, busyUntil := s.now + s.par.tExec.command }
        draws := s.draws + 1 })

/-- Set CGRAM address and set DDRAM address: a backed DDRAM address, which depends on the line count, becomes the
address counter, and any other faults (42_hd44780_bus_words R171, R172; that the fault changes nothing else is
log 24). -/
def Obligations.AddressWords : Prop :=
  ∀ s : State, HdAccepts s →
    (∀ a : BitVec 6, exec (.hdSetCgramAddr a) s = .next { s with hd := { s.hd with
      ac := a.setWidth 7, target := .cgram, busyUntil := s.now + s.par.tExec.command } }) ∧
    (∀ a : BitVec 7,
      let backed := if s.hd.n then a.toNat ≤ 0x27 ∨ (0x40 ≤ a.toNat ∧ a.toNat ≤ 0x67) else a.toNat ≤ 0x4F
      (backed → exec (.hdSetDdramAddr a) s = .next { s with hd := { s.hd with
        ac := a, target := .ddram, busyUntil := s.now + s.par.tExec.command } }) ∧
      (¬ backed → exec (.hdSetDdramAddr a) s = .next { s with hd := { s.hd with
        fault := some .badDdramAddress } }))

/-- Write data stores one byte: at the address counter's address of its target, every other byte of both memories as
before, the counter moved as the entry mode says by R173's table (42_hd44780_bus_words R173). At a DDRAM address R172 does
not back the byte goes to that address of the 128, and the counter steps by one modulo 128 (the model's reading, log 23).
That a write leaves the display shift, also with S = 1, is its reading too (log 22). The word reaches the controller whole
(log 18). -/
def Obligations.WriteDataStoresOneByte : Prop :=
  let counted := fun (a : BitVec 7) (up n : Bool) (a' : BitVec 7) =>
    if up then
      if n = false ∧ a = 0x4F then a' = 0x00
      else if n = true ∧ a = 0x27 then a' = 0x40
      else if n = true ∧ a = 0x67 then a' = 0x00
      else a'.toNat = (a.toNat + 1) % 128
    else
      if n = false ∧ a = 0x00 then a' = 0x4F
      else if n = true ∧ a = 0x40 then a' = 0x27
      else if n = true ∧ a = 0x00 then a' = 0x67
      else a'.toNat + 1 = a.toNat
  ∀ (s : State) (d : Byte), HdAccepts s → ∃ h, exec (.hdWriteData d) s = .next { s with hd := h } ∧
    h.busyUntil = s.now + s.par.tExec.data ∧ h.fault = none ∧ h.target = s.hd.target ∧ h.n = s.hd.n ∧
    h.id = s.hd.id ∧ h.mode = s.hd.mode ∧ h.phase = s.hd.phase ∧ h.shift = s.hd.shift ∧
    (h.f, h.d, h.c, h.b, h.s) = (s.hd.f, s.hd.d, s.hd.c, s.hd.b, s.hd.s) ∧
    (s.hd.target = .ddram →
      ddramRead h s.hd.ac = d ∧ (∀ a, a ≠ s.hd.ac → ddramRead h a = ddramRead s.hd a) ∧
      (∀ a, cgramRead h a = cgramRead s.hd a) ∧ counted s.hd.ac s.hd.id s.hd.n h.ac) ∧
    (s.hd.target = .cgram →
      cgramRead h (s.hd.ac.extractLsb' 0 6) = some d ∧
      (∀ a, a ≠ s.hd.ac.extractLsb' 0 6 → cgramRead h a = cgramRead s.hd a) ∧
      (∀ a, ddramRead h a = ddramRead s.hd a) ∧
      (h.ac.toNat : Int) = ((s.hd.ac.toNat : Int) + (if s.hd.id then 1 else -1)) % 64)

/-- A controller with a fault ignores every bus word, and one inside its busy time faults with BusyViolation and does
nothing else (42_hd44780_bus_words R162; that it does nothing else is log 24); the block goes on in both cases. -/
def Obligations.BusyOrFaultedControllerTakesNoWord : Prop :=
  ∀ (i : Instr) (s : State), isBusWord i = true → ∃ t, exec i s = .next t ∧
    (s.hd.fault ≠ none → t.hd = s.hd) ∧
    (s.hd.fault = none → s.now < s.hd.busyUntil → t.hd = { s.hd with fault := some .busyViolation })

/-- The nibble-mode select, received in the boot mode, is a function set with DL = 0: the controller is in Four mode
between bytes, with N and F free (42_hd44780_bus_words R162, R170, R182). Received in Four mode between bytes it is a high
nibble; after a high nibble sent with RS = 1 it faults, and after one sent with RS = 0 it completes the byte, whose word is
executed (R162). That the row is a transfer in FourBit wiring is log 28, and that the fault changes nothing else log 24. -/
def Obligations.NibbleModeSelectLeavesBootMode : Prop :=
  ∀ s : State, HdAccepts s →
    (s.hd.mode = .eight → ∃ n f, exec .nibbleModeSelect s = .next { s with
      hd := { s.hd with mode := .four, phase := .high, n := n, f := f, busyUntil := s.now + s.par.tExec.command }
      draws := s.draws + 1 }) ∧
    (s.hd.mode = .four → s.hd.phase = .high → exec .nibbleModeSelect s = .next { s with
      hd := { s.hd with phase := .low 2 false }
      draws := s.draws + 1 }) ∧
    (∀ hi, s.hd.mode = .four → s.hd.phase = .low hi true → exec .nibbleModeSelect s = .next { s with
      hd := { s.hd with fault := some .rsChangedMidByte }
      draws := s.draws + 1 }) ∧
    (∀ hi, s.hd.mode = .four → s.hd.phase = .low hi false →
      ∃ t, exec (decodeBus9 (0#1 ++ hi ++ 2#4)) { s with hd := { s.hd with phase := .high } } = .next t ∧
        exec .nibbleModeSelect s = .next { s with hd := t.hd, draws := s.draws + 1 })

/-- A transfer is executed as the bus word it carries: an EightBit transfer by a controller in Eight mode, and the two
nibbles of a byte, high first, by one in Four mode, leave the controller as the decoded bus9 instruction does
(30_encoding R81, R86, 42_hd44780_bus_words R162). -/
def Obligations.TransfersExecuteTheDecodedWord : Prop :=
  ∀ (s : State) (rs q q' : Bool) (d : Byte) (nib nib' : BitVec 4) (addr' : BitVec 7), HdAccepts s →
    ∃ t, exec (decodeBus9 (BitVec.ofBool rs ++ d)) s = .next t ∧
    (s.hd.mode = .eight → hdReceive s.par.tExec q .eightBit nib (Config.freeAddress s.draws) rs d s.now s.hd =
      t.hd) ∧
    (s.hd.mode = .four → s.hd.phase = .high →
      hdReceive s.par.tExec q' .fourBit nib' (Config.freeAddress s.draws) rs ((d.extractLsb' 0 4).setWidth 8) s.now
        (hdReceive s.par.tExec q .fourBit nib addr' rs ((d.extractLsb' 4 4).setWidth 8) s.now s.hd) = t.hd)

/-- What a controller already in Four mode makes of the block's transfers. A nibble pair whose RS levels differ faults
(42_hd44780_bus_words R162). The FourBit initialisation is read as 0x22 and then the reserved 0x00, on which it faults
(70_reset_and_hazards R313). Of an EightBit transfer it takes `data[3:0]` (R162), so that the commands 0x38 and 0x0C are
read as 0x8C, set DDRAM address 0x0C; but of the two transfers of which R313 speaks, the first two of the EightBit
CONFIGURE, it sees only D7..D4: they are read as 0x30, which brings back Eight mode, and the initialisation ends with no
fault, the display still on or off as before. That R313's words hold for those two alone is the model's reading of the
two rules (log 19). -/
def Obligations.DesynchronisedControllerMisreads : Prop :=
  ∀ (x : ExecTimes) (nib : BitVec 4) (addr : BitVec 7) (t1 t2 t3 t4 : Nat) (h : Hd),
    h.fault = none → h.mode = .four → h.phase = .high →
    h.busyUntil ≤ t1 → t1 ≤ t2 → t2 + x.command ≤ t3 → t3 ≤ t4 →
    (∀ q w rs d d', (hdReceive x q w nib addr (!rs) d' t2 (hdReceive x q w nib addr rs d t1 h)).fault =
      some .rsChangedMidByte) ∧
    (∀ q, (hdReceive x q .fourBit nib addr false 0x0 t4 (hdReceive x q .fourBit nib addr false 0x0 t3
      (hdReceive x q .fourBit nib addr false 0x2 t2 (hdReceive x q .fourBit nib addr false 0x2 t1 h)))).fault =
      some .reservedInstruction) ∧
    (∀ q rs d, hdReceive x q .eightBit nib addr rs d t1 h = { h with
      phase := .low (if q then d.extractLsb' 4 4 else d.extractLsb' 0 4) rs }) ∧
    hdReceive x false .eightBit nib addr false 0x0C t2 (hdReceive x false .eightBit nib addr false 0x38 t1 h) =
      { h with ac := 0x0C, target := .ddram, busyUntil := t2 + x.command } ∧
    let h2 := hdReceive x true .eightBit nib addr false 0x0C t2 (hdReceive x true .eightBit nib addr false 0x38 t1 h)
    h2 = { h with mode := .eight, n := false, f := false, busyUntil := t2 + x.command } ∧
    (t3 + x.clear ≤ t4 →
      let h4 := hdReceive x false .eightBit nib addr false 0x02 t4 (hdReceive x false .eightBit nib addr false 0x01 t3 h2)
      h4.fault = none ∧ h4.mode = .eight ∧ h4.d = h.d ∧ h4.ac = 0)
end

