-- ==== Sys2Proof/Laws/Memory.lean ====
section
/-! SUPPORT. Per-channel access and the memory cells: read after write, and every write keeps the canonical form. -/

namespace Sys2Proof.Machine

/-! ### Per-channel values -/

@[simp] theorem chanGet_chanSet_same {α : Type} (x : PerChannel α) (c : Channel) (a : α) :
    chanGet (chanSet x c a) c = a := by cases c <;> rfl

theorem chanGet_chanSet_other {α : Type} (x : PerChannel α) {c c' : Channel} (h : c' ≠ c) (a : α) :
    chanGet (chanSet x c a) c' = chanGet x c' := by
  cases c <;> cases c' <;> first | rfl | exact absurd rfl h

@[simp] theorem chanSet_chanGet {α : Type} (x : PerChannel α) (c : Channel) : chanSet x c (chanGet x c) = x := by
  cases c <;> rfl

@[simp] theorem chanSet_chanSet {α : Type} (x : PerChannel α) (c : Channel) (a b : α) :
    chanSet (chanSet x c a) c b = chanSet x c b := by cases c <;> rfl

/-! ### Memory cells -/

theorem cellAt_cellPut (m : List Host.Cell) (a : Nat) (b : Byte) (k : Nat) :
    cellAt (cellPut m a b) k = if k = a then some b else cellAt m k := by
  induction m with
  | nil => simp [cellPut, cellAt, eq_comm]
  | cons e m ih =>
    obtain ⟨j, x⟩ := e
    by_cases h1 : a < j
    · simp [cellPut, h1, cellAt, eq_comm]
    by_cases h2 : a = j
    · subst h2
      by_cases hk : a = k
      · simp [cellPut, cellAt, hk]
      · simp [cellPut, cellAt, hk, Ne.symm hk]
    · by_cases hj : j = k
      · subst hj
        simp [cellPut, h1, h2, cellAt, Ne.symm h2]
      · simp [cellPut, h1, h2, cellAt, hj, ih]

/-- Unlisting an address leaves every other. -/
theorem cellAt_cellDrop (m : List Host.Cell) (a k : Nat) :
    cellAt (cellDrop m a) k = if k = a then none else cellAt m k := by
  induction m with
  | nil => simp [cellDrop, cellAt]
  | cons e m ih =>
    obtain ⟨j, x⟩ := e
    by_cases hj : j = a
    · subst hj
      by_cases hk : k = j
      · subst hk
        simpa [cellDrop] using ih
      · simp [cellDrop, ih, cellAt, hk, Ne.symm hk]
    · by_cases hk : j = k
      · subst hk
        simp [cellDrop, cellAt, hj]
      · simp [cellDrop, cellAt, hj, hk, ih]

/-- What an address reads as, after a write of `b` at `a`. -/
theorem cellAt_cellWrite (d : Option Byte) (m : List Host.Cell) (a : Nat) (b : Byte) (k : Nat) :
    cellAt (cellWrite d m a b) k = if k = a then (if d = some b then none else some b) else cellAt m k := by
  by_cases h : d = some b
  · simp [cellWrite, h, cellAt_cellDrop]
  · simp [cellWrite, h, cellAt_cellPut]

theorem mem_cellPut {m : List Host.Cell} {a : Nat} {b : Byte} {x : Host.Cell} (h : x ∈ cellPut m a b) :
    x = (a, b) ∨ x ∈ m := by
  induction m with
  | nil => simpa [cellPut] using h
  | cons e m ih =>
    obtain ⟨j, y⟩ := e
    simp only [cellPut] at h
    split at h
    · simpa using h
    · split at h
      · simp only [List.mem_cons] at h ⊢
        tauto
      · simp only [List.mem_cons] at h ⊢
        rcases h with h | h
        · tauto
        · rcases ih h with h | h <;> tauto

theorem mem_cellDrop {m : List Host.Cell} {a : Nat} {x : Host.Cell} (h : x ∈ cellDrop m a) : x ∈ m := by
  induction m with
  | nil => simp [cellDrop] at h
  | cons e m ih =>
    obtain ⟨j, y⟩ := e
    simp only [cellDrop] at h
    split at h
    · exact List.mem_cons_of_mem _ (ih h)
    · simp only [List.mem_cons] at h ⊢
      rcases h with h | h
      · exact .inl h
      · exact .inr (ih h)

theorem wf_cellPut {d : Option Byte} {n : Nat} {m : List Host.Cell} (hm : Memory.wf d n m = true) {a : Nat} {b : Byte}
    (ha : a < n) (hb : d ≠ some b) : Memory.wf d n (cellPut m a b) = true := by
  induction m with
  | nil => simp [cellPut, Memory.wf, ha, hb]
  | cons e m ih =>
    obtain ⟨j, y⟩ := e
    have hm' := hm
    simp only [Memory.wf, Bool.and_eq_true, List.all_eq_true, decide_eq_true_eq, bne_iff_ne, ne_eq] at hm
    obtain ⟨⟨⟨hj, hy⟩, hall⟩, hw⟩ := hm
    simp only [cellPut]
    split
    · rename_i hlt
      rw [Memory.wf]
      simp only [Bool.and_eq_true, List.all_eq_true, decide_eq_true_eq, bne_iff_ne, ne_eq]
      refine ⟨⟨⟨ha, hb⟩, ?_⟩, hm'⟩
      intro x hx
      rcases List.mem_cons.1 hx with rfl | hx
      · exact hlt
      · exact lt_trans hlt (hall x hx)
    · split
      · rename_i heq
        subst heq
        simp only [Memory.wf, Bool.and_eq_true, List.all_eq_true, decide_eq_true_eq, bne_iff_ne, ne_eq]
        exact ⟨⟨⟨ha, hb⟩, hall⟩, hw⟩
      · rename_i h1 h2
        simp only [Memory.wf, Bool.and_eq_true, List.all_eq_true, decide_eq_true_eq, bne_iff_ne, ne_eq]
        refine ⟨⟨⟨hj, hy⟩, ?_⟩, ih hw⟩
        intro x hx
        rcases mem_cellPut hx with rfl | hx
        · show j < a
          omega
        · exact hall x hx

theorem wf_cellDrop {d : Option Byte} {n : Nat} {m : List Host.Cell} (hm : Memory.wf d n m = true) (a : Nat) :
    Memory.wf d n (cellDrop m a) = true := by
  induction m with
  | nil => rfl
  | cons e m ih =>
    obtain ⟨j, y⟩ := e
    simp only [Memory.wf, Bool.and_eq_true, List.all_eq_true, decide_eq_true_eq, bne_iff_ne, ne_eq] at hm
    obtain ⟨⟨⟨hj, hy⟩, hall⟩, hw⟩ := hm
    simp only [cellDrop]
    split
    · exact ih hw
    · simp only [Memory.wf, Bool.and_eq_true, List.all_eq_true, decide_eq_true_eq, bne_iff_ne, ne_eq]
      exact ⟨⟨⟨hj, hy⟩, fun x hx => hall x (mem_cellDrop hx)⟩, ih hw⟩

/-- A write inside the memory keeps the canonical form. -/
theorem wf_cellWrite {d : Option Byte} {n : Nat} {m : List Host.Cell} (hm : Memory.wf d n m = true) {a : Nat}
    (ha : a < n) (b : Byte) : Memory.wf d n (cellWrite d m a b) = true := by
  by_cases h : d = some b
  · simp only [cellWrite, h, if_true]
    exact wf_cellDrop (h ▸ hm) a
  · simp only [cellWrite, h, if_false]
    exact wf_cellPut hm ha h

/-! ### The controller's memories -/

theorem wf_ddramWrite {h : Hd} (hm : Memory.wf (some ddramDefault) 128 h.ddram = true) (a : BitVec 7) (b : Byte) :
    Memory.wf (some ddramDefault) 128 (ddramWrite a b h).ddram = true :=
  wf_cellWrite hm a.isLt b

theorem wf_cgramWrite {h : Hd} (hm : Memory.wf none 64 h.cgram = true) (a : BitVec 6) (b : Byte) :
    Memory.wf none 64 (cgramWrite a b h).cgram = true :=
  wf_cellWrite hm a.isLt b

/-- Read after write in DDRAM. -/
theorem ddramRead_ddramWrite (h : Hd) (a : BitVec 7) (b : Byte) (k : BitVec 7) :
    ddramRead (ddramWrite a b h) k = if k = a then b else ddramRead h k := by
  simp only [ddramRead, ddramWrite, cellAt_cellWrite, BitVec.toNat_inj]
  by_cases hk : k = a
  · by_cases hb : ddramDefault = b <;> simp [hk, hb]
  · simp [hk]

/-- Read after write in CGRAM. -/
theorem cgramRead_cgramWrite (h : Hd) (a : BitVec 6) (b : Byte) (k : BitVec 6) :
    cgramRead (cgramWrite a b h) k = if k = a then some b else cgramRead h k := by
  simp only [cgramRead, cgramWrite, cellAt_cellWrite, BitVec.toNat_inj]
  by_cases hk : k = a <;> simp [hk]

end Sys2Proof.Machine
end

