-- ==== Sys2Proof/Laws/State.lean ====
section
/-! SUPPORT. What each named update of the state leaves in each field, by definition. -/

namespace Sys2Proof.Machine

variable (s : State)

@[simp] theorem raise_par (r : RefuseReason) (o : RefusedOp) : (raise r o s).par = s.par := rfl
@[simp] theorem raise_cfg (r : RefuseReason) (o : RefusedOp) : (raise r o s).cfg = s.cfg := rfl
@[simp] theorem raise_pinMode (r : RefuseReason) (o : RefusedOp) : (raise r o s).pinMode = s.pinMode := rfl
@[simp] theorem raise_out (r : RefuseReason) (o : RefusedOp) : (raise r o s).out = s.out := rfl
@[simp] theorem raise_fg (r : RefuseReason) (o : RefusedOp) : (raise r o s).fg = s.fg := rfl
@[simp] theorem raise_ch (r : RefuseReason) (o : RefusedOp) : (raise r o s).ch = s.ch := rfl
@[simp] theorem raise_elapsed (r : RefuseReason) (o : RefusedOp) : (raise r o s).elapsed = s.elapsed := rfl
@[simp] theorem raise_running (r : RefuseReason) (o : RefusedOp) : (raise r o s).running = s.running := rfl
@[simp] theorem raise_lapRef (r : RefuseReason) (o : RefusedOp) : (raise r o s).lapRef = s.lapRef := rfl
@[simp] theorem raise_lapDelta (r : RefuseReason) (o : RefusedOp) : (raise r o s).lapDelta = s.lapDelta := rfl
@[simp] theorem raise_nextTick (r : RefuseReason) (o : RefusedOp) : (raise r o s).nextTick = s.nextTick := rfl
@[simp] theorem raise_tickLate (r : RefuseReason) (o : RefusedOp) : (raise r o s).tickLate = s.tickLate := rfl
@[simp] theorem raise_now (r : RefuseReason) (o : RefusedOp) : (raise r o s).now = s.now := rfl
@[simp] theorem raise_refused (r : RefuseReason) (o : RefusedOp) : (raise r o s).refused = true := rfl
@[simp] theorem raise_refusal (r : RefuseReason) (o : RefusedOp) : (raise r o s).refusal = some ⟨r, o⟩ := rfl
@[simp] theorem raise_button (r : RefuseReason) (o : RefusedOp) : (raise r o s).button = s.button := rfl
@[simp] theorem raise_hd (r : RefuseReason) (o : RefusedOp) : (raise r o s).hd = s.hd := rfl
@[simp] theorem raise_queue (r : RefuseReason) (o : RefusedOp) : (raise r o s).queue = s.queue := rfl
@[simp] theorem raise_fgReady (r : RefuseReason) (o : RefusedOp) : (raise r o s).fgReady = s.fgReady := rfl
@[simp] theorem raise_eRise (r : RefuseReason) (o : RefusedOp) : (raise r o s).eRise = s.eRise := rfl
@[simp] theorem raise_trace (r : RefuseReason) (o : RefusedOp) : (raise r o s).trace = s.trace := rfl
@[simp] theorem raise_transfers (r : RefuseReason) (o : RefusedOp) : (raise r o s).transfers = s.transfers := rfl
@[simp] theorem raise_irqMasked (r : RefuseReason) (o : RefusedOp) : (raise r o s).irqMasked = s.irqMasked := rfl
@[simp] theorem raise_snapshot (r : RefuseReason) (o : RefusedOp) : (raise r o s).snapshot = s.snapshot := rfl
@[simp] theorem raise_maskResult (r : RefuseReason) (o : RefusedOp) : (raise r o s).maskResult = s.maskResult := rfl
@[simp] theorem raise_draws (r : RefuseReason) (o : RefusedOp) : (raise r o s).draws = s.draws := rfl

@[simp] theorem setCh_par (c : Channel) (x : ChannelState) : (setCh c x s).par = s.par := rfl
@[simp] theorem setCh_cfg (c : Channel) (x : ChannelState) : (setCh c x s).cfg = s.cfg := rfl
@[simp] theorem setCh_pinMode (c : Channel) (x : ChannelState) : (setCh c x s).pinMode = s.pinMode := rfl
@[simp] theorem setCh_out (c : Channel) (x : ChannelState) : (setCh c x s).out = s.out := rfl
@[simp] theorem setCh_fg (c : Channel) (x : ChannelState) : (setCh c x s).fg = s.fg := rfl
@[simp] theorem setCh_ch (c : Channel) (x : ChannelState) : (setCh c x s).ch = chanSet s.ch c x := rfl
@[simp] theorem setCh_elapsed (c : Channel) (x : ChannelState) : (setCh c x s).elapsed = s.elapsed := rfl
@[simp] theorem setCh_running (c : Channel) (x : ChannelState) : (setCh c x s).running = s.running := rfl
@[simp] theorem setCh_lapRef (c : Channel) (x : ChannelState) : (setCh c x s).lapRef = s.lapRef := rfl
@[simp] theorem setCh_lapDelta (c : Channel) (x : ChannelState) : (setCh c x s).lapDelta = s.lapDelta := rfl
@[simp] theorem setCh_nextTick (c : Channel) (x : ChannelState) : (setCh c x s).nextTick = s.nextTick := rfl
@[simp] theorem setCh_tickLate (c : Channel) (x : ChannelState) : (setCh c x s).tickLate = s.tickLate := rfl
@[simp] theorem setCh_now (c : Channel) (x : ChannelState) : (setCh c x s).now = s.now := rfl
@[simp] theorem setCh_refused (c : Channel) (x : ChannelState) : (setCh c x s).refused = s.refused := rfl
@[simp] theorem setCh_refusal (c : Channel) (x : ChannelState) : (setCh c x s).refusal = s.refusal := rfl
@[simp] theorem setCh_button (c : Channel) (x : ChannelState) : (setCh c x s).button = s.button := rfl
@[simp] theorem setCh_hd (c : Channel) (x : ChannelState) : (setCh c x s).hd = s.hd := rfl
@[simp] theorem setCh_queue (c : Channel) (x : ChannelState) : (setCh c x s).queue = s.queue := rfl
@[simp] theorem setCh_fgReady (c : Channel) (x : ChannelState) : (setCh c x s).fgReady = s.fgReady := rfl
@[simp] theorem setCh_eRise (c : Channel) (x : ChannelState) : (setCh c x s).eRise = s.eRise := rfl
@[simp] theorem setCh_trace (c : Channel) (x : ChannelState) : (setCh c x s).trace = s.trace := rfl
@[simp] theorem setCh_transfers (c : Channel) (x : ChannelState) : (setCh c x s).transfers = s.transfers := rfl
@[simp] theorem setCh_irqMasked (c : Channel) (x : ChannelState) : (setCh c x s).irqMasked = s.irqMasked := rfl
@[simp] theorem setCh_snapshot (c : Channel) (x : ChannelState) : (setCh c x s).snapshot = s.snapshot := rfl
@[simp] theorem setCh_maskResult (c : Channel) (x : ChannelState) : (setCh c x s).maskResult = s.maskResult := rfl
@[simp] theorem setCh_draws (c : Channel) (x : ChannelState) : (setCh c x s).draws = s.draws := rfl

@[simp] theorem setButton_par (c : Channel) (b : Button) : (setButton c b s).par = s.par := rfl
@[simp] theorem setButton_cfg (c : Channel) (b : Button) : (setButton c b s).cfg = s.cfg := rfl
@[simp] theorem setButton_pinMode (c : Channel) (b : Button) : (setButton c b s).pinMode = s.pinMode := rfl
@[simp] theorem setButton_out (c : Channel) (b : Button) : (setButton c b s).out = s.out := rfl
@[simp] theorem setButton_fg (c : Channel) (b : Button) : (setButton c b s).fg = s.fg := rfl
@[simp] theorem setButton_ch (c : Channel) (b : Button) : (setButton c b s).ch = s.ch := rfl
@[simp] theorem setButton_elapsed (c : Channel) (b : Button) : (setButton c b s).elapsed = s.elapsed := rfl
@[simp] theorem setButton_running (c : Channel) (b : Button) : (setButton c b s).running = s.running := rfl
@[simp] theorem setButton_lapRef (c : Channel) (b : Button) : (setButton c b s).lapRef = s.lapRef := rfl
@[simp] theorem setButton_lapDelta (c : Channel) (b : Button) : (setButton c b s).lapDelta = s.lapDelta := rfl
@[simp] theorem setButton_nextTick (c : Channel) (b : Button) : (setButton c b s).nextTick = s.nextTick := rfl
@[simp] theorem setButton_tickLate (c : Channel) (b : Button) : (setButton c b s).tickLate = s.tickLate := rfl
@[simp] theorem setButton_now (c : Channel) (b : Button) : (setButton c b s).now = s.now := rfl
@[simp] theorem setButton_refused (c : Channel) (b : Button) : (setButton c b s).refused = s.refused := rfl
@[simp] theorem setButton_refusal (c : Channel) (b : Button) : (setButton c b s).refusal = s.refusal := rfl
@[simp] theorem setButton_button (c : Channel) (b : Button) : (setButton c b s).button = chanSet s.button c b := rfl
@[simp] theorem setButton_hd (c : Channel) (b : Button) : (setButton c b s).hd = s.hd := rfl
@[simp] theorem setButton_queue (c : Channel) (b : Button) : (setButton c b s).queue = s.queue := rfl
@[simp] theorem setButton_fgReady (c : Channel) (b : Button) : (setButton c b s).fgReady = s.fgReady := rfl
@[simp] theorem setButton_eRise (c : Channel) (b : Button) : (setButton c b s).eRise = s.eRise := rfl
@[simp] theorem setButton_trace (c : Channel) (b : Button) : (setButton c b s).trace = s.trace := rfl
@[simp] theorem setButton_transfers (c : Channel) (b : Button) : (setButton c b s).transfers = s.transfers := rfl
@[simp] theorem setButton_irqMasked (c : Channel) (b : Button) : (setButton c b s).irqMasked = s.irqMasked := rfl
@[simp] theorem setButton_snapshot (c : Channel) (b : Button) : (setButton c b s).snapshot = s.snapshot := rfl
@[simp] theorem setButton_maskResult (c : Channel) (b : Button) : (setButton c b s).maskResult = s.maskResult := rfl
@[simp] theorem setButton_draws (c : Channel) (b : Button) : (setButton c b s).draws = s.draws := rfl

@[simp] theorem advanceTime_par (us : Nat) : (advanceTime us s).par = s.par := rfl
@[simp] theorem advanceTime_cfg (us : Nat) : (advanceTime us s).cfg = s.cfg := rfl
@[simp] theorem advanceTime_pinMode (us : Nat) : (advanceTime us s).pinMode = s.pinMode := rfl
@[simp] theorem advanceTime_out (us : Nat) : (advanceTime us s).out = s.out := rfl
@[simp] theorem advanceTime_fg (us : Nat) : (advanceTime us s).fg = s.fg := rfl
@[simp] theorem advanceTime_ch (us : Nat) : (advanceTime us s).ch = s.ch := rfl
@[simp] theorem advanceTime_elapsed (us : Nat) : (advanceTime us s).elapsed = s.elapsed := rfl
@[simp] theorem advanceTime_running (us : Nat) : (advanceTime us s).running = s.running := rfl
@[simp] theorem advanceTime_lapRef (us : Nat) : (advanceTime us s).lapRef = s.lapRef := rfl
@[simp] theorem advanceTime_lapDelta (us : Nat) : (advanceTime us s).lapDelta = s.lapDelta := rfl
@[simp] theorem advanceTime_nextTick (us : Nat) : (advanceTime us s).nextTick = s.nextTick := rfl
@[simp] theorem advanceTime_tickLate (us : Nat) : (advanceTime us s).tickLate = s.tickLate := rfl
@[simp] theorem advanceTime_now (us : Nat) : (advanceTime us s).now = s.now + us := rfl
@[simp] theorem advanceTime_refused (us : Nat) : (advanceTime us s).refused = s.refused := rfl
@[simp] theorem advanceTime_refusal (us : Nat) : (advanceTime us s).refusal = s.refusal := rfl
@[simp] theorem advanceTime_button (us : Nat) : (advanceTime us s).button = s.button := rfl
@[simp] theorem advanceTime_hd (us : Nat) : (advanceTime us s).hd = s.hd := rfl
@[simp] theorem advanceTime_queue (us : Nat) : (advanceTime us s).queue = s.queue := rfl
@[simp] theorem advanceTime_fgReady (us : Nat) : (advanceTime us s).fgReady = s.fgReady := rfl
@[simp] theorem advanceTime_eRise (us : Nat) : (advanceTime us s).eRise = s.eRise := rfl
@[simp] theorem advanceTime_trace (us : Nat) : (advanceTime us s).trace = s.trace := rfl
@[simp] theorem advanceTime_transfers (us : Nat) : (advanceTime us s).transfers = s.transfers := rfl
@[simp] theorem advanceTime_irqMasked (us : Nat) : (advanceTime us s).irqMasked = s.irqMasked := rfl
@[simp] theorem advanceTime_snapshot (us : Nat) : (advanceTime us s).snapshot = s.snapshot := rfl
@[simp] theorem advanceTime_maskResult (us : Nat) : (advanceTime us s).maskResult = s.maskResult := rfl
@[simp] theorem advanceTime_draws (us : Nat) : (advanceTime us s).draws = s.draws := rfl

@[simp] theorem waitUntil_par (t : Nat) : (waitUntil t s).par = s.par := rfl
@[simp] theorem waitUntil_cfg (t : Nat) : (waitUntil t s).cfg = s.cfg := rfl
@[simp] theorem waitUntil_pinMode (t : Nat) : (waitUntil t s).pinMode = s.pinMode := rfl
@[simp] theorem waitUntil_out (t : Nat) : (waitUntil t s).out = s.out := rfl
@[simp] theorem waitUntil_fg (t : Nat) : (waitUntil t s).fg = s.fg := rfl
@[simp] theorem waitUntil_ch (t : Nat) : (waitUntil t s).ch = s.ch := rfl
@[simp] theorem waitUntil_elapsed (t : Nat) : (waitUntil t s).elapsed = s.elapsed := rfl
@[simp] theorem waitUntil_running (t : Nat) : (waitUntil t s).running = s.running := rfl
@[simp] theorem waitUntil_lapRef (t : Nat) : (waitUntil t s).lapRef = s.lapRef := rfl
@[simp] theorem waitUntil_lapDelta (t : Nat) : (waitUntil t s).lapDelta = s.lapDelta := rfl
@[simp] theorem waitUntil_nextTick (t : Nat) : (waitUntil t s).nextTick = s.nextTick := rfl
@[simp] theorem waitUntil_tickLate (t : Nat) : (waitUntil t s).tickLate = s.tickLate := rfl
@[simp] theorem waitUntil_now (t : Nat) : (waitUntil t s).now = max s.now t := rfl
@[simp] theorem waitUntil_refused (t : Nat) : (waitUntil t s).refused = s.refused := rfl
@[simp] theorem waitUntil_refusal (t : Nat) : (waitUntil t s).refusal = s.refusal := rfl
@[simp] theorem waitUntil_button (t : Nat) : (waitUntil t s).button = s.button := rfl
@[simp] theorem waitUntil_hd (t : Nat) : (waitUntil t s).hd = s.hd := rfl
@[simp] theorem waitUntil_queue (t : Nat) : (waitUntil t s).queue = s.queue := rfl
@[simp] theorem waitUntil_fgReady (t : Nat) : (waitUntil t s).fgReady = s.fgReady := rfl
@[simp] theorem waitUntil_eRise (t : Nat) : (waitUntil t s).eRise = s.eRise := rfl
@[simp] theorem waitUntil_trace (t : Nat) : (waitUntil t s).trace = s.trace := rfl
@[simp] theorem waitUntil_transfers (t : Nat) : (waitUntil t s).transfers = s.transfers := rfl
@[simp] theorem waitUntil_irqMasked (t : Nat) : (waitUntil t s).irqMasked = s.irqMasked := rfl
@[simp] theorem waitUntil_snapshot (t : Nat) : (waitUntil t s).snapshot = s.snapshot := rfl
@[simp] theorem waitUntil_maskResult (t : Nat) : (waitUntil t s).maskResult = s.maskResult := rfl
@[simp] theorem waitUntil_draws (t : Nat) : (waitUntil t s).draws = s.draws := rfl

@[simp] theorem foregroundTime_par : (foregroundTime s).par = s.par := rfl
@[simp] theorem foregroundTime_cfg : (foregroundTime s).cfg = s.cfg := rfl
@[simp] theorem foregroundTime_pinMode : (foregroundTime s).pinMode = s.pinMode := rfl
@[simp] theorem foregroundTime_out : (foregroundTime s).out = s.out := rfl
@[simp] theorem foregroundTime_fg : (foregroundTime s).fg = s.fg := rfl
@[simp] theorem foregroundTime_ch : (foregroundTime s).ch = s.ch := rfl
@[simp] theorem foregroundTime_elapsed : (foregroundTime s).elapsed = s.elapsed := rfl
@[simp] theorem foregroundTime_running : (foregroundTime s).running = s.running := rfl
@[simp] theorem foregroundTime_lapRef : (foregroundTime s).lapRef = s.lapRef := rfl
@[simp] theorem foregroundTime_lapDelta : (foregroundTime s).lapDelta = s.lapDelta := rfl
@[simp] theorem foregroundTime_nextTick : (foregroundTime s).nextTick = s.nextTick := rfl
@[simp] theorem foregroundTime_tickLate : (foregroundTime s).tickLate = s.tickLate := rfl
@[simp] theorem foregroundTime_now : (foregroundTime s).now = max s.now s.fgReady := rfl
@[simp] theorem foregroundTime_refused : (foregroundTime s).refused = s.refused := rfl
@[simp] theorem foregroundTime_refusal : (foregroundTime s).refusal = s.refusal := rfl
@[simp] theorem foregroundTime_button : (foregroundTime s).button = s.button := rfl
@[simp] theorem foregroundTime_hd : (foregroundTime s).hd = s.hd := rfl
@[simp] theorem foregroundTime_queue : (foregroundTime s).queue = s.queue := rfl
@[simp] theorem foregroundTime_fgReady : (foregroundTime s).fgReady = s.fgReady := rfl
@[simp] theorem foregroundTime_eRise : (foregroundTime s).eRise = s.eRise := rfl
@[simp] theorem foregroundTime_trace : (foregroundTime s).trace = s.trace := rfl
@[simp] theorem foregroundTime_transfers : (foregroundTime s).transfers = s.transfers := rfl
@[simp] theorem foregroundTime_irqMasked : (foregroundTime s).irqMasked = s.irqMasked := rfl
@[simp] theorem foregroundTime_snapshot : (foregroundTime s).snapshot = s.snapshot := rfl
@[simp] theorem foregroundTime_maskResult : (foregroundTime s).maskResult = s.maskResult := rfl
@[simp] theorem foregroundTime_draws : (foregroundTime s).draws = s.draws := rfl

@[simp] theorem drawn_par : (drawn s).par = s.par := rfl
@[simp] theorem drawn_cfg : (drawn s).cfg = s.cfg := rfl
@[simp] theorem drawn_pinMode : (drawn s).pinMode = s.pinMode := rfl
@[simp] theorem drawn_out : (drawn s).out = s.out := rfl
@[simp] theorem drawn_fg : (drawn s).fg = s.fg := rfl
@[simp] theorem drawn_ch : (drawn s).ch = s.ch := rfl
@[simp] theorem drawn_elapsed : (drawn s).elapsed = s.elapsed := rfl
@[simp] theorem drawn_running : (drawn s).running = s.running := rfl
@[simp] theorem drawn_lapRef : (drawn s).lapRef = s.lapRef := rfl
@[simp] theorem drawn_lapDelta : (drawn s).lapDelta = s.lapDelta := rfl
@[simp] theorem drawn_nextTick : (drawn s).nextTick = s.nextTick := rfl
@[simp] theorem drawn_tickLate : (drawn s).tickLate = s.tickLate := rfl
@[simp] theorem drawn_now : (drawn s).now = s.now := rfl
@[simp] theorem drawn_refused : (drawn s).refused = s.refused := rfl
@[simp] theorem drawn_refusal : (drawn s).refusal = s.refusal := rfl
@[simp] theorem drawn_button : (drawn s).button = s.button := rfl
@[simp] theorem drawn_hd : (drawn s).hd = s.hd := rfl
@[simp] theorem drawn_queue : (drawn s).queue = s.queue := rfl
@[simp] theorem drawn_fgReady : (drawn s).fgReady = s.fgReady := rfl
@[simp] theorem drawn_eRise : (drawn s).eRise = s.eRise := rfl
@[simp] theorem drawn_trace : (drawn s).trace = s.trace := rfl
@[simp] theorem drawn_transfers : (drawn s).transfers = s.transfers := rfl
@[simp] theorem drawn_irqMasked : (drawn s).irqMasked = s.irqMasked := rfl
@[simp] theorem drawn_snapshot : (drawn s).snapshot = s.snapshot := rfl
@[simp] theorem drawn_maskResult : (drawn s).maskResult = s.maskResult := rfl
@[simp] theorem drawn_draws : (drawn s).draws = s.draws + 1 := rfl

@[simp] theorem onHd_par (f : ExecTimes → Nat → Hd → Hd) : (onHd f s).par = s.par := rfl
@[simp] theorem onHd_cfg (f : ExecTimes → Nat → Hd → Hd) : (onHd f s).cfg = s.cfg := rfl
@[simp] theorem onHd_pinMode (f : ExecTimes → Nat → Hd → Hd) : (onHd f s).pinMode = s.pinMode := rfl
@[simp] theorem onHd_out (f : ExecTimes → Nat → Hd → Hd) : (onHd f s).out = s.out := rfl
@[simp] theorem onHd_fg (f : ExecTimes → Nat → Hd → Hd) : (onHd f s).fg = s.fg := rfl
@[simp] theorem onHd_ch (f : ExecTimes → Nat → Hd → Hd) : (onHd f s).ch = s.ch := rfl
@[simp] theorem onHd_elapsed (f : ExecTimes → Nat → Hd → Hd) : (onHd f s).elapsed = s.elapsed := rfl
@[simp] theorem onHd_running (f : ExecTimes → Nat → Hd → Hd) : (onHd f s).running = s.running := rfl
@[simp] theorem onHd_lapRef (f : ExecTimes → Nat → Hd → Hd) : (onHd f s).lapRef = s.lapRef := rfl
@[simp] theorem onHd_lapDelta (f : ExecTimes → Nat → Hd → Hd) : (onHd f s).lapDelta = s.lapDelta := rfl
@[simp] theorem onHd_nextTick (f : ExecTimes → Nat → Hd → Hd) : (onHd f s).nextTick = s.nextTick := rfl
@[simp] theorem onHd_tickLate (f : ExecTimes → Nat → Hd → Hd) : (onHd f s).tickLate = s.tickLate := rfl
@[simp] theorem onHd_now (f : ExecTimes → Nat → Hd → Hd) : (onHd f s).now = s.now := rfl
@[simp] theorem onHd_refused (f : ExecTimes → Nat → Hd → Hd) : (onHd f s).refused = s.refused := rfl
@[simp] theorem onHd_refusal (f : ExecTimes → Nat → Hd → Hd) : (onHd f s).refusal = s.refusal := rfl
@[simp] theorem onHd_button (f : ExecTimes → Nat → Hd → Hd) : (onHd f s).button = s.button := rfl
@[simp] theorem onHd_hd (f : ExecTimes → Nat → Hd → Hd) :
    (onHd f s).hd = hdAccept s.now (f s.par.tExec s.now) s.hd := rfl
@[simp] theorem onHd_queue (f : ExecTimes → Nat → Hd → Hd) : (onHd f s).queue = s.queue := rfl
@[simp] theorem onHd_fgReady (f : ExecTimes → Nat → Hd → Hd) : (onHd f s).fgReady = s.fgReady := rfl
@[simp] theorem onHd_eRise (f : ExecTimes → Nat → Hd → Hd) : (onHd f s).eRise = s.eRise := rfl
@[simp] theorem onHd_trace (f : ExecTimes → Nat → Hd → Hd) : (onHd f s).trace = s.trace := rfl
@[simp] theorem onHd_transfers (f : ExecTimes → Nat → Hd → Hd) : (onHd f s).transfers = s.transfers := rfl
@[simp] theorem onHd_irqMasked (f : ExecTimes → Nat → Hd → Hd) : (onHd f s).irqMasked = s.irqMasked := rfl
@[simp] theorem onHd_snapshot (f : ExecTimes → Nat → Hd → Hd) : (onHd f s).snapshot = s.snapshot := rfl
@[simp] theorem onHd_maskResult (f : ExecTimes → Nat → Hd → Hd) : (onHd f s).maskResult = s.maskResult := rfl
@[simp] theorem onHd_draws (f : ExecTimes → Nat → Hd → Hd) : (onHd f s).draws = s.draws := rfl

@[simp] theorem fourModeNibble_fourBit (q : Bool) (d : Byte) :
    fourModeNibble q .fourBit d = d.extractLsb' 0 4 := by cases q <;> rfl
@[simp] theorem fourModeNibble_false (w : BusWidth) (d : Byte) : fourModeNibble false w d = d.extractLsb' 0 4 := rfl
@[simp] theorem fourModeNibble_true_eightBit (d : Byte) : fourModeNibble true .eightBit d = d.extractLsb' 4 4 := rfl

/-- When a transfer is one of the two of R313. -/
theorem recovering_eq_true_iff : recovering s = true ↔ configuring s = true ∧
    (s.transfers.length = 1 ∧ s.hd.phase = .high ∨ s.transfers.length = 2 ∧ ∃ hi rs, s.hd.phase = .low hi rs) := by
  rw [recovering, Bool.and_eq_true]
  refine and_congr_right fun _ => ?_
  split <;> simp_all

/-- `configuring` says that CONFIGURE is in progress. -/
theorem configuring_eq_true_iff : configuring s = true ↔ ∃ steps pc, s.fg = .busy .configure steps pc := by
  rw [configuring]
  split <;> simp_all

@[simp] theorem deliver_par (w : BusWidth) (rs : Bool) (d : Byte) : (deliver w rs d s).par = s.par := rfl
@[simp] theorem deliver_cfg (w : BusWidth) (rs : Bool) (d : Byte) : (deliver w rs d s).cfg = s.cfg := rfl
@[simp] theorem deliver_pinMode (w : BusWidth) (rs : Bool) (d : Byte) :
    (deliver w rs d s).pinMode = s.pinMode := rfl
@[simp] theorem deliver_out (w : BusWidth) (rs : Bool) (d : Byte) : (deliver w rs d s).out = s.out := rfl
@[simp] theorem deliver_fg (w : BusWidth) (rs : Bool) (d : Byte) : (deliver w rs d s).fg = s.fg := rfl
@[simp] theorem deliver_ch (w : BusWidth) (rs : Bool) (d : Byte) : (deliver w rs d s).ch = s.ch := rfl
@[simp] theorem deliver_elapsed (w : BusWidth) (rs : Bool) (d : Byte) :
    (deliver w rs d s).elapsed = s.elapsed := rfl
@[simp] theorem deliver_running (w : BusWidth) (rs : Bool) (d : Byte) :
    (deliver w rs d s).running = s.running := rfl
@[simp] theorem deliver_lapRef (w : BusWidth) (rs : Bool) (d : Byte) : (deliver w rs d s).lapRef = s.lapRef := rfl
@[simp] theorem deliver_lapDelta (w : BusWidth) (rs : Bool) (d : Byte) :
    (deliver w rs d s).lapDelta = s.lapDelta := rfl
@[simp] theorem deliver_nextTick (w : BusWidth) (rs : Bool) (d : Byte) :
    (deliver w rs d s).nextTick = s.nextTick := rfl
@[simp] theorem deliver_tickLate (w : BusWidth) (rs : Bool) (d : Byte) :
    (deliver w rs d s).tickLate = s.tickLate := rfl
@[simp] theorem deliver_now (w : BusWidth) (rs : Bool) (d : Byte) : (deliver w rs d s).now = s.now := rfl
@[simp] theorem deliver_refused (w : BusWidth) (rs : Bool) (d : Byte) :
    (deliver w rs d s).refused = s.refused := rfl
@[simp] theorem deliver_refusal (w : BusWidth) (rs : Bool) (d : Byte) :
    (deliver w rs d s).refusal = s.refusal := rfl
@[simp] theorem deliver_button (w : BusWidth) (rs : Bool) (d : Byte) : (deliver w rs d s).button = s.button := rfl
@[simp] theorem deliver_hd (w : BusWidth) (rs : Bool) (d : Byte) :
    (deliver w rs d s).hd =
      hdReceive s.par.tExec (recovering s) w (Config.freeNibble s.draws) (Config.freeAddress s.draws) rs d
        s.now s.hd := rfl
@[simp] theorem deliver_queue (w : BusWidth) (rs : Bool) (d : Byte) : (deliver w rs d s).queue = s.queue := rfl
@[simp] theorem deliver_fgReady (w : BusWidth) (rs : Bool) (d : Byte) :
    (deliver w rs d s).fgReady = s.fgReady := rfl
@[simp] theorem deliver_eRise (w : BusWidth) (rs : Bool) (d : Byte) : (deliver w rs d s).eRise = s.eRise := rfl
@[simp] theorem deliver_trace (w : BusWidth) (rs : Bool) (d : Byte) : (deliver w rs d s).trace = s.trace := rfl
@[simp] theorem deliver_transfers (w : BusWidth) (rs : Bool) (d : Byte) :
    (deliver w rs d s).transfers = s.transfers := rfl
@[simp] theorem deliver_irqMasked (w : BusWidth) (rs : Bool) (d : Byte) :
    (deliver w rs d s).irqMasked = s.irqMasked := rfl
@[simp] theorem deliver_snapshot (w : BusWidth) (rs : Bool) (d : Byte) :
    (deliver w rs d s).snapshot = s.snapshot := rfl
@[simp] theorem deliver_maskResult (w : BusWidth) (rs : Bool) (d : Byte) :
    (deliver w rs d s).maskResult = s.maskResult := rfl
@[simp] theorem deliver_draws (w : BusWidth) (rs : Bool) (d : Byte) : (deliver w rs d s).draws = s.draws + 1 := rfl

@[simp] theorem setMask_par (on : Bool) : (setMask on s).par = s.par := rfl
@[simp] theorem setMask_cfg (on : Bool) : (setMask on s).cfg = s.cfg := rfl
@[simp] theorem setMask_pinMode (on : Bool) : (setMask on s).pinMode = s.pinMode := rfl
@[simp] theorem setMask_out (on : Bool) : (setMask on s).out = s.out := rfl
@[simp] theorem setMask_fg (on : Bool) : (setMask on s).fg = s.fg := rfl
@[simp] theorem setMask_ch (on : Bool) : (setMask on s).ch = s.ch := rfl
@[simp] theorem setMask_elapsed (on : Bool) : (setMask on s).elapsed = s.elapsed := rfl
@[simp] theorem setMask_running (on : Bool) : (setMask on s).running = s.running := rfl
@[simp] theorem setMask_lapRef (on : Bool) : (setMask on s).lapRef = s.lapRef := rfl
@[simp] theorem setMask_lapDelta (on : Bool) : (setMask on s).lapDelta = s.lapDelta := rfl
@[simp] theorem setMask_nextTick (on : Bool) : (setMask on s).nextTick = s.nextTick := rfl
@[simp] theorem setMask_tickLate (on : Bool) : (setMask on s).tickLate = s.tickLate := rfl
@[simp] theorem setMask_now (on : Bool) : (setMask on s).now = s.now := rfl
@[simp] theorem setMask_refused (on : Bool) : (setMask on s).refused = s.refused := rfl
@[simp] theorem setMask_refusal (on : Bool) : (setMask on s).refusal = s.refusal := rfl
@[simp] theorem setMask_button (on : Bool) : (setMask on s).button = s.button := rfl
@[simp] theorem setMask_hd (on : Bool) : (setMask on s).hd = s.hd := rfl
@[simp] theorem setMask_queue (on : Bool) : (setMask on s).queue = s.queue := rfl
@[simp] theorem setMask_fgReady (on : Bool) : (setMask on s).fgReady = s.fgReady := rfl
@[simp] theorem setMask_eRise (on : Bool) : (setMask on s).eRise = s.eRise := rfl
@[simp] theorem setMask_trace (on : Bool) : (setMask on s).trace = s.trace := rfl
@[simp] theorem setMask_transfers (on : Bool) : (setMask on s).transfers = s.transfers := rfl
@[simp] theorem setMask_irqMasked (on : Bool) : (setMask on s).irqMasked = on := rfl
@[simp] theorem setMask_snapshot (on : Bool) : (setMask on s).snapshot = s.snapshot := rfl
@[simp] theorem setMask_maskResult (on : Bool) : (setMask on s).maskResult = s.maskResult := rfl
@[simp] theorem setMask_draws (on : Bool) : (setMask on s).draws = s.draws := rfl

/-- Reading a field changes the snapshot and nothing else. -/
theorem readField_eq (f : WatchField) : readField f s = { s with snapshot := (readField f s).snapshot } := by
  cases f <;> rfl

end Sys2Proof.Machine
end

