-- ==== Sys2Proof/Laws/Ops.lean ====
section
/-! SUPPORT. What the shared operations and a step can do, said once. -/

namespace Sys2Proof.Machine

/-- A starting step is refused with Reentrant, refused by its own check, or goes. -/
theorem startOp_cases (op : DisplayOp) (check : Option RefuseReason) (go : State → State) (s : State) :
    ((∃ op' steps pc, s.fg = .busy op' steps pc) ∧ startOp op check go s = raise .reentrant (.display op) s) ∨
    (∃ r, s.fg = .idle ∧ check = some r ∧ startOp op check go s = raise r (.display op) (foregroundTime s)) ∨
    (s.fg = .idle ∧ check = none ∧ startOp op check go s = go (foregroundTime s)) := by
  cases hfg : s.fg with
  | busy op' steps pc => exact .inl ⟨⟨op', steps, pc, rfl⟩, by simp [startOp, hfg]⟩
  | idle =>
    cases hc : check with
    | some r => exact .inr (.inl ⟨r, rfl, rfl, by simp [startOp, hfg]⟩)
    | none => exact .inr (.inr ⟨rfl, rfl, by simp [startOp, hfg]⟩)

/-- A display write's starting step is a refusal, at a time that is not before now, or it makes the sequencer Busy and
nothing else, the time its last Wait asks for aside. -/
theorem startWrite_cases (op : DisplayOp) (own : Option RefuseReason)
    (steps : Params → DisplayCfg → List MicroStep) (s : State) :
    (∃ r n, s.now ≤ n ∧ startWrite op own steps s = raise r (.display op) { s with now := n }) ∨
    (∃ c, s.fg = .idle ∧ s.cfg = some c ∧ own = none ∧
      startWrite op own steps s = { s with now := max s.now s.fgReady, fg := .busy op (steps s.par c) 0 }) := by
  rcases startOp_cases op (writeCheck own s) (writeStart op steps) s with ⟨_, h⟩ | ⟨r, _, _, h⟩ | ⟨hfg, hc, h⟩
  · exact .inl ⟨_, s.now, le_refl _, h⟩
  · exact .inl ⟨r, max s.now s.fgReady, le_max_left _ _, h⟩
  · cases hcfg : s.cfg with
    | none => simp [writeCheck, hcfg] at hc
    | some c =>
      simp only [writeCheck, hcfg] at hc
      refine .inr ⟨c, hfg, rfl, hc, ?_⟩
      rw [startWrite, h]
      simp [writeStart, hcfg, foregroundTime, waitUntil]

/-- CONFIGURE's starting step is a refusal, or it sets the configuration of a well-formed assignment. -/
theorem configure_cases (pins : PinAssignment) (s : State) :
    (∃ r n, s.now ≤ n ∧ startOp .configure (configureCheck pins s) (configureStart pins) s =
      raise r (.display .configure) { s with now := n }) ∨
    (∃ w, s.fg = .idle ∧ s.cfg = none ∧ wellFormedPins s.par pins = true ∧ widthOf pins = some w ∧
      startOp .configure (configureCheck pins s) (configureStart pins) s =
        { s with
          now := max s.now s.fgReady
          cfg := some ⟨pins, w⟩
          pinMode := programPins (usedMask ⟨pins, w⟩) s.pinMode
          fg := .busy .configure (initSteps s.par ⟨pins, w⟩) 0 }) := by
  rcases startOp_cases .configure (configureCheck pins s) (configureStart pins) s with
    ⟨_, h⟩ | ⟨r, _, _, h⟩ | ⟨hfg, hc, h⟩
  · exact .inl ⟨_, s.now, le_refl _, h⟩
  · exact .inl ⟨r, max s.now s.fgReady, le_max_left _ _, h⟩
  · cases hcfg : s.cfg with
    | some c => simp [configureCheck, hcfg] at hc
    | none =>
      cases hwf : wellFormedPins s.par pins with
      | false => simp [configureCheck, hcfg, hwf] at hc
      | true =>
        cases hw : widthOf pins with
        | none => simp [wellFormedPins, hw] at hwf
        | some w =>
          refine .inr ⟨w, hfg, rfl, rfl, rfl, ?_⟩
          rw [h]
          simp [configureStart, hw, foregroundTime, waitUntil]

/-- Every instruction answers a next state. -/
theorem exec_next (i : Instr) (s : State) : ∃ t, exec i s = .next t := by
  cases i <;> exact ⟨_, rfl⟩

/-- What the Foreground does when its call has returned: a micro-step while Busy, else `act` at its time. -/
theorem whenIdle_cases (e : Event) (act : State → State) (s : State) :
    (foregroundBusy s = true ∧ whenIdle e act s = foregroundStep { s with queue := e :: s.queue }) ∨
    (foregroundBusy s = false ∧ whenIdle e act s = act (foregroundTime s)) := by
  cases h : foregroundBusy s with
  | true => exact .inl ⟨rfl, by simp [whenIdle, h]⟩
  | false => exact .inr ⟨rfl, by simp [whenIdle, h]⟩

/-- What one event can do: an instruction is executed, a refusal is raised, the Foreground takes a step, reads or
masks, nothing happens, or the Environment acts. -/
theorem runEvent_cases {e : Event} {s t : State} (h : runEvent e s = .next t) :
    (∃ f i, (e = .request f ∨ e = .handlerRequest f) ∧ decode f = .ok i ∧ exec i s = .next t ∧
      (e = .handlerRequest f → displayOpOf i = none ∧ s.irqMasked = false) ∧
      (isHandlerOp i = true → s.irqMasked = false)) ∨
    (∃ r o, t = raise r o s) ∨ (∃ q, t = foregroundStep { s with queue := q }) ∨
    (∃ m sn, s.fg = .idle ∧ t = { s with now := max s.now s.fgReady, irqMasked := m, snapshot := sn }) ∨
    t = s ∨ (∃ ch l, e = .level ch l ∧ t = setLevel ch l s) ∨ (∃ us, e = .advance us ∧ t = advanceTime us s) := by
  have idle : foregroundBusy s = false → s.fg = .idle := by
    intro hb
    cases hf : s.fg with
    | idle => rfl
    | busy _ _ _ => simp [foregroundBusy, hf] at hb
  cases e with
  | request f =>
    simp only [runEvent, runFrame] at h
    cases hd : decode f with
    | ok i =>
      simp only [hd, runInstr] at h
      split at h
      · exact .inr (.inr (.inr (.inr (.inl (Host.Outcome.next.inj h).symm))))
      · rename_i hm
        refine .inl ⟨f, i, .inl rfl, hd, h, by simp, fun hi => ?_⟩
        simpa [hi] using hm
    | error err =>
      cases err <;> simp [hd, rejectFrame] at h
      exact .inr (.inl ⟨_, _, h.symm⟩)
  | handlerRequest f =>
    simp only [runEvent, runHandlerFrame] at h
    split at h
    · exact .inr (.inr (.inr (.inr (.inl (Host.Outcome.next.inj h).symm))))
    · rename_i hm
      have hm : s.irqMasked = false := by simpa using hm
      cases hd : decode f with
      | ok i =>
        cases ho : displayOpOf i with
        | none => exact .inl ⟨f, i, .inr rfl, hd, by simpa [hd, ho] using h, fun _ => ⟨ho, hm⟩, fun _ => hm⟩
        | some op =>
          simp only [hd, ho, Host.Outcome.next.injEq] at h
          exact .inr (.inl ⟨_, _, h.symm⟩)
      | error err =>
        cases err <;> simp [hd, rejectFrame] at h
        exact .inr (.inl ⟨_, _, h.symm⟩)
  | foreground => exact .inr (.inr (.inl ⟨s.queue, (Host.Outcome.next.inj h).symm⟩))
  | awaitIdle =>
    have h := (Host.Outcome.next.inj h).symm
    rcases whenIdle_cases .awaitIdle id s with ⟨_, hw⟩ | ⟨hb, hw⟩
    · exact .inr (.inr (.inl ⟨_, h.trans hw⟩))
    · exact .inr (.inr (.inr (.inl ⟨s.irqMasked, s.snapshot, idle hb, h.trans hw⟩)))
  | read f =>
    have h := (Host.Outcome.next.inj h).symm
    rcases whenIdle_cases (.read f) (readField f) s with ⟨_, hw⟩ | ⟨hb, hw⟩
    · exact .inr (.inr (.inl ⟨_, h.trans hw⟩))
    · refine .inr (.inr (.inr (.inl ⟨s.irqMasked, (readField f (foregroundTime s)).snapshot, idle hb,
        h.trans (hw.trans ?_)⟩)))
      rw [readField_eq]
      rfl
  | maskInterrupts on =>
    have h := (Host.Outcome.next.inj h).symm
    rcases whenIdle_cases (.maskInterrupts on) (setMask on) s with ⟨_, hw⟩ | ⟨hb, hw⟩
    · exact .inr (.inr (.inl ⟨_, h.trans hw⟩))
    · exact .inr (.inr (.inr (.inl ⟨on, s.snapshot, idle hb, h.trans hw⟩)))
  | level ch l => exact .inr (.inr (.inr (.inr (.inr (.inl ⟨ch, l, rfl, (Host.Outcome.next.inj h).symm⟩)))))
  | advance us => exact .inr (.inr (.inr (.inr (.inr (.inr ⟨us, rfl, (Host.Outcome.next.inj h).symm⟩)))))

/-- A handler is an operation of interrupt handlers. -/
theorem isHandlerOp_instr (h : Handler) : isHandlerOp h.instr = true := by cases h <;> rfl

/-- The handler served next is an enabled one. -/
theorem nextHandler_mem {s : State} {h : Handler} (hn : nextHandler s = some h) : h ∈ enabledHandlers s :=
  List.mem_of_getElem? hn

/-- None is served exactly when none is enabled. -/
theorem nextHandler_none {s : State} : nextHandler s = none ↔ enabledHandlers s = [] := by
  rw [nextHandler, List.getElem?_eq_none_iff]
  constructor
  · intro h
    by_contra hne
    have := Nat.mod_lt (Config.freeOrder s.draws) (List.length_pos_iff.2 hne)
    omega
  · intro h
    simp [h]

/-- A step with an event at the head of the queue runs it. -/
theorem step_event {s : State} {e : Event} {rest : List Event} (hr : s.refused = false) (hq : s.queue = e :: rest) :
    step s = runEvent e { s with queue := rest } := by
  rw [step, hr, hq]
  rfl

/-- A step with no event left serves the next handler. -/
theorem step_serves {s : State} {h : Handler} (hr : s.refused = false) (hq : s.queue = []) (hn : nextHandler s = some h) :
    step s = exec h.instr (drawn s) := by
  rw [step, hr, hq]
  simp [stepAlone, hn]

/-- A step with no event left and no handler enabled is the Foreground's. -/
theorem step_foreground {s : State} (hr : s.refused = false) (hq : s.queue = []) (hn : nextHandler s = none) :
    step s = .next (foregroundStep s) := by
  rw [step, hr, hq]
  simp [stepAlone, hn]

/-- The event that a Busy Foreground puts off leaves the queue as it was. -/
theorem requeue {s : State} {e : Event} {rest : List Event} (hq : s.queue = e :: rest) :
    ({ ({ s with queue := rest } : State) with queue := e :: rest } : State) = s := by
  rw [← hq]

/-- What a step can do. -/
theorem step_cases {s t : State} (h : step s = .next t) :
    s.refused = false ∧
      ((s.queue = [] ∧ ∃ hd, nextHandler s = some hd ∧ exec hd.instr (drawn s) = .next t) ∨
      (s.queue = [] ∧ nextHandler s = none ∧ t = foregroundStep s) ∨
      ∃ e rest, s.queue = e :: rest ∧ runEvent e { s with queue := rest } = .next t) := by
  rw [step] at h
  split at h
  · simp at h
  · rename_i hr
    refine ⟨by simpa using hr, ?_⟩
    cases hq : s.queue with
    | nil =>
      simp only [hq, stepAlone] at h
      cases hn : nextHandler s with
      | some hd => exact .inl ⟨rfl, hd, rfl, by simpa [hn] using h⟩
      | none =>
        simp only [hn, Host.Outcome.next.injEq] at h
        exact .inr (.inl ⟨rfl, rfl, h.symm⟩)
    | cons e rest =>
      rw [hq] at h
      exact .inr (.inr ⟨e, rest, rfl, h⟩)

/-- A property that no bookkeeping of the model (queue, draws, the reader), instruction, refusal, Foreground step,
passage of time or level breaks is kept by every step. -/
theorem step_keeps {P : State → Prop}
    (hbook : ∀ s q k m sn, P s → P { s with queue := q, draws := k, irqMasked := m, snapshot := sn })
    (hexec : ∀ i s t, P s → exec i s = .next t → P t) (hraise : ∀ r o s, P s → P (raise r o s))
    (hfg : ∀ s, P s → P (foregroundStep s)) (htime : ∀ n s, P s → s.now ≤ n → P { s with now := n })
    (hlevel : ∀ ch l s, P s → P (setLevel ch l s)) {s t : State} (hs : P s) (h : step s = .next t) : P t := by
  obtain ⟨_, ⟨_, hd, _, hx⟩ | ⟨_, _, rfl⟩ | ⟨e, rest, _, h⟩⟩ := step_cases h
  · exact hexec _ _ t (hbook s s.queue (s.draws + 1) s.irqMasked s.snapshot hs) hx
  · exact hfg s hs
  · have hq := hbook s rest s.draws s.irqMasked s.snapshot hs
    rcases runEvent_cases h with ⟨f, i, _, _, hx, _⟩ | ⟨r, o, rfl⟩ | ⟨q, rfl⟩ | ⟨m, sn, _, rfl⟩ | rfl |
      ⟨ch, l, _, rfl⟩ | ⟨us, _, rfl⟩
    · exact hexec i _ t hq hx
    · exact hraise r o _ hq
    · exact hfg _ (hbook _ q s.draws s.irqMasked s.snapshot hq)
    · exact hbook _ rest s.draws m sn (htime (max s.now s.fgReady) _ hq (le_max_left _ _))
    · exact hq
    · exact hlevel ch l _ hq
    · exact htime _ _ hq (by simp)

end Sys2Proof.Machine
end

