-- ==== Sys2Proof/Laws/Frames.lean ====
section
/-! SUPPORT. What each kind of step leaves alone, and what an instruction can do, said once. -/

namespace Sys2Proof.Machine

/-- A micro-step leaves everything but the pins, what is seen on them, and the controller. -/
theorem microStep_frame (m : MicroStep) (s : State) :
    (microStep m s).par = s.par ∧ SameStopwatch s (microStep m s) ∧ SameLines s (microStep m s) ∧ (microStep m s).cfg = s.cfg ∧
    (microStep m s).pinMode = s.pinMode ∧ (microStep m s).fg = s.fg ∧ (microStep m s).now = s.now ∧ (microStep m s).refused = s.refused ∧
    (microStep m s).refusal = s.refusal ∧ (microStep m s).queue = s.queue ∧ (microStep m s).maskResult = s.maskResult ∧
    SameReader s (microStep m s) := by
  cases m with
  | wait d => exact ⟨rfl, ⟨rfl, rfl, rfl, rfl, rfl, rfl⟩, ⟨rfl, rfl⟩, rfl, rfl, rfl, rfl, rfl, rfl, rfl, rfl, ⟨rfl, rfl⟩⟩
  | pinsWrite m v =>
    have h : latch m v s = s ∨ ∃ c, latch m v s = captureTransfer c s := by
      rw [latch]
      cases s.cfg with
      | none => exact .inl rfl
      | some c =>
        dsimp only
        split
        · exact .inr ⟨c, rfl⟩
        · exact .inl rfl
    rw [microStep]
    rcases h with h | ⟨c, h⟩ <;> rw [h] <;>
      exact ⟨rfl, ⟨rfl, rfl, rfl, rfl, rfl, rfl⟩, ⟨rfl, rfl⟩, rfl, rfl, rfl, rfl, rfl, rfl, rfl, rfl, ⟨rfl, rfl⟩⟩

/-- What a Foreground step can do. -/
theorem foregroundStep_cases (s : State) :
    (s.fg = .idle ∧ foregroundStep s = s) ∨
    (∃ op steps pc, s.fg = .busy op steps pc ∧ steps[pc]? = none ∧ foregroundStep s = { s with fg := .idle }) ∨
    (∃ op steps pc m, s.fg = .busy op steps pc ∧ steps[pc]? = some m ∧
      foregroundStep s = { microStep m (foregroundTime s) with fg := nextFg op steps pc }) := by
  rw [foregroundStep]
  cases hfg : s.fg with
  | idle => exact .inl ⟨rfl, rfl⟩
  | busy op steps pc =>
    cases hm : steps[pc]? with
    | none => exact .inr (.inl ⟨op, steps, pc, rfl, hm, by simp only [hm]⟩)
    | some m => exact .inr (.inr ⟨op, steps, pc, m, rfl, hm, by simp only [hm]⟩)

/-- A Foreground step leaves the stopwatch, the lines, the reader, the configuration, the refusal and the queue. -/
theorem foregroundStep_frame (s : State) :
    (foregroundStep s).par = s.par ∧ SameStopwatch s (foregroundStep s) ∧ SameLines s (foregroundStep s) ∧
    (foregroundStep s).cfg = s.cfg ∧ (foregroundStep s).pinMode = s.pinMode ∧ s.now ≤ (foregroundStep s).now ∧
    (foregroundStep s).refused = s.refused ∧ (foregroundStep s).refusal = s.refusal ∧
    (foregroundStep s).queue = s.queue ∧ (foregroundStep s).maskResult = s.maskResult ∧
    SameReader s (foregroundStep s) := by
  rcases foregroundStep_cases s with ⟨_, h⟩ | ⟨_, _, _, _, _, h⟩ | ⟨op, steps, pc, m, _, _, h⟩
  · rw [h]; exact ⟨rfl, ⟨rfl, rfl, rfl, rfl, rfl, rfl⟩, ⟨rfl, rfl⟩, rfl, rfl, le_refl _, rfl, rfl, rfl, rfl, ⟨rfl, rfl⟩⟩
  · rw [h]; exact ⟨rfl, ⟨rfl, rfl, rfl, rfl, rfl, rfl⟩, ⟨rfl, rfl⟩, rfl, rfl, le_refl _, rfl, rfl, rfl, rfl, ⟨rfl, rfl⟩⟩
  · rw [h]
    obtain ⟨h1, h2, h3, h4, h5, _, h7, h8, h9, h10, h11, h12⟩ := microStep_frame m (foregroundTime s)
    have h7 : ({ microStep m (foregroundTime s) with fg := nextFg op steps pc } : State).now = _ := h7
    exact ⟨h1, ⟨h2.1, h2.2, h2.3, h2.4, h2.5, h2.6⟩, ⟨h3.1, h3.2⟩, h4, h5, by rw [h7]; simp, h8, h9, h10, h11,
      ⟨h12.1, h12.2⟩⟩

/-- What a handler's step, or a command, leaves. -/
structure HandlerFrame (s t : State) : Prop where
  par : t.par = s.par
  driver : SameDriver s t
  pins : SamePins s t
  hd : t.hd = s.hd
  maskResult : t.maskResult = s.maskResult
  refused : t.refused = s.refused
  refusal : t.refusal = s.refusal
  queue : t.queue = s.queue
  reader : SameReader s t
  now : s.now ≤ t.now

theorem HandlerFrame.refl (s : State) : HandlerFrame s s :=
  ⟨rfl, ⟨rfl, rfl, rfl, rfl⟩, ⟨rfl, rfl, rfl, rfl⟩, rfl, rfl, rfl, rfl, rfl, ⟨rfl, rfl⟩, le_refl _⟩

theorem HandlerFrame.trans {s t u : State} (a : HandlerFrame s t) (b : HandlerFrame t u) : HandlerFrame s u where
  par := b.par.trans a.par
  driver := ⟨b.driver.1.trans a.driver.1, b.driver.2.trans a.driver.2, b.driver.3.trans a.driver.3,
    b.driver.4.trans a.driver.4⟩
  pins := ⟨b.pins.1.trans a.pins.1, b.pins.2.trans a.pins.2, b.pins.3.trans a.pins.3, b.pins.4.trans a.pins.4⟩
  hd := b.hd.trans a.hd
  maskResult := b.maskResult.trans a.maskResult
  refused := b.refused.trans a.refused
  refusal := b.refusal.trans a.refusal
  queue := b.queue.trans a.queue
  reader := ⟨b.reader.1.trans a.reader.1, b.reader.2.trans a.reader.2⟩
  now := a.now.trans b.now

theorem handlerFrame_of {s t : State} (h : s.now ≤ t.now := by exact le_refl _) (h1 : t.par = s.par := by rfl)
    (h2 : t.cfg = s.cfg := by rfl) (h3 : t.pinMode = s.pinMode := by rfl) (h4 : t.fg = s.fg := by rfl)
    (h5 : t.fgReady = s.fgReady := by rfl) (h6 : t.out = s.out := by rfl) (h7 : t.eRise = s.eRise := by rfl)
    (h8 : t.trace = s.trace := by rfl) (h9 : t.transfers = s.transfers := by rfl) (h10 : t.hd = s.hd := by rfl)
    (h11 : t.maskResult = s.maskResult := by rfl) (h12 : t.refused = s.refused := by rfl)
    (h13 : t.refusal = s.refusal := by rfl) (h14 : t.queue = s.queue := by rfl)
    (h15 : t.irqMasked = s.irqMasked := by rfl) (h16 : t.snapshot = s.snapshot := by rfl) : HandlerFrame s t :=
  ⟨h1, ⟨h2, h3, h4, h5⟩, ⟨h6, h7, h8, h9⟩, h10, h11, h12, h13, h14, ⟨h15, h16⟩, h⟩

theorem handlerFrame_wait (d : Nat) (s : State) : HandlerFrame s (waitUntil d s) := handlerFrame_of (by simp)
theorem handlerFrame_setCh (c x) (s : State) : HandlerFrame s (setCh c x s) := handlerFrame_of
theorem handlerFrame_setButton (c x) (s : State) : HandlerFrame s (setButton c x s) := handlerFrame_of

theorem handlerFrame_dispatch (c : Channel) (s : State) : HandlerFrame s (dispatch c s) := by
  cases c <;> simp only [dispatch, startCommand, stopCommand, lapCommand, resetCommand] <;> split <;> exact handlerFrame_of

theorem handlerFrame_suppressed (c : Channel) (s : State) : HandlerFrame s (suppressedEdge c s) := by
  rw [suppressedEdge]; split
  · exact handlerFrame_setCh _ _ _
  · exact HandlerFrame.refl s

/-- The tick handler's body, field by field. -/
theorem tickBody_eq (s : State) : tickBody s = { s with
    elapsed := if s.running then incElapsed s.elapsed else s.elapsed
    tickLate := false
    nextTick := if s.tickLate then s.nextTick else s.nextTick + Config.tTick } := by
  cases hr : s.running <;> cases hl : s.tickLate <;> simp [tickBody, hr, hl]

theorem handlerFrame_tickBody (s : State) : HandlerFrame s (tickBody s) := by
  rw [tickBody_eq]
  exact handlerFrame_of

theorem handlerFrame_tick (s : State) : HandlerFrame s (tickIsr s) := by
  have h1 : HandlerFrame s (tickTime s) := by
    rw [tickTime]
    split
    · exact HandlerFrame.refl s
    · exact handlerFrame_wait _ _
  exact h1.trans (handlerFrame_tickBody _)

/-- The edge handler arms the window where an edge is pending on an enabled line, and else nothing happens. -/
theorem edgeIsr_cases (c : Channel) (s : State) :
    (edgeDeliverable c s = true ∧ edgeIsr c s = { s with
      ch := chanSet s.ch c { chanGet s.ch c with
        ie := false, suppressed := true, deadline := some (s.now + Config.tDebounce) }
      button := chanSet s.button c { chanGet s.button c with edgePending := false } }) ∨
    (edgeDeliverable c s = false ∧ edgeIsr c s = s) := by
  cases h : edgeDeliverable c s with
  | true => exact .inl ⟨rfl, by rw [edgeIsr, if_pos h]; rfl⟩
  | false => exact .inr ⟨rfl, by rw [edgeIsr, if_neg (by simp [h])]⟩

theorem handlerFrame_edge (c : Channel) (s : State) : HandlerFrame s (edgeIsr c s) := by
  rcases edgeIsr_cases c s with ⟨_, h⟩ | ⟨_, h⟩ <;> rw [h]
  · exact handlerFrame_of
  · exact HandlerFrame.refl s

theorem handlerFrame_dispatchIfPressed (c : Channel) (s : State) : HandlerFrame s (dispatchIfPressed c s) := by
  rw [dispatchIfPressed]
  split
  · exact handlerFrame_dispatch c s
  · exact HandlerFrame.refl s

theorem handlerFrame_rearm (c : Channel) (s : State) : HandlerFrame s (rearm c s) := by
  rw [rearm]
  by_cases h : (s.par.pendingReplay && (chanGet s.ch c).pending) = true
  · rw [if_pos h]
    exact handlerFrame_of
  · rw [if_neg h]
    exact handlerFrame_of

theorem handlerFrame_expireBody (c : Channel) (s : State) : HandlerFrame s (expireBody c s) :=
  HandlerFrame.trans (t := dispatchIfPressed c _)
    ((handlerFrame_setCh c { chanGet s.ch c with lastStable := Level.ofBool (chanGet s.button c).level } s).trans
      (handlerFrame_dispatchIfPressed c _))
    (handlerFrame_rearm c _)

theorem handlerFrame_expire (c : Channel) (s : State) : HandlerFrame s (expireIsr c s) := by
  rw [expireIsr]
  split
  · exact HandlerFrame.refl s
  · rename_i d _
    exact (handlerFrame_wait d s).trans (handlerFrame_expireBody c _)

theorem handlerFrame_setLevel (c : Channel) (l : Bool) (s : State) : HandlerFrame s (setLevel c l s) := by
  rw [setLevel]; dsimp only; split
  · refine HandlerFrame.trans (handlerFrame_setButton c { chanGet s.button c with level := l } s) ?_
    rw [rawEdge]; split
    · exact handlerFrame_setButton _ _ _
    · exact handlerFrame_suppressed _ _
  · exact handlerFrame_setButton _ _ _

/-- Every handler operation and command keeps the handler frame. -/
theorem handler_cases {i : Instr} (h : isHandlerOp i = true) (s : State) : ∃ t, exec i s = .next t ∧ HandlerFrame s t := by
  cases i <;> simp only [isHandlerOp, Bool.false_eq_true] at h
  · exact ⟨_, rfl, handlerFrame_tick s⟩
  · exact ⟨_, rfl, handlerFrame_edge _ s⟩
  · exact ⟨_, rfl, handlerFrame_expire _ s⟩
  · exact ⟨_, rfl, handlerFrame_dispatch .start s⟩
  · exact ⟨_, rfl, handlerFrame_dispatch .stop s⟩
  · exact ⟨_, rfl, handlerFrame_dispatch .lap s⟩
  · exact ⟨_, rfl, handlerFrame_dispatch .reset s⟩

/-- What exec can do. -/
theorem exec_cases {i : Instr} {s t : State} (h : exec i s = .next t) :
    (isHandlerOp i = true ∧ HandlerFrame s t) ∨
    (∃ op, displayOpOf i = some op ∧ ((∃ r n, s.now ≤ n ∧ t = raise r (.display op) { s with now := n }) ∨
      (∃ c steps, s.fg = .idle ∧ s.cfg = some c ∧ op ≠ .configure ∧
        t = { s with now := max s.now s.fgReady, fg := .busy op steps 0 } ∧
        ((∃ rs b, steps = sendByte c rs b) ∨ (∃ rc tx, steps = lineSteps s.par c rc tx) ∨
          (∃ rc rc' tx tx', steps = lineSteps s.par c rc tx ++ lineSteps s.par c rc' tx'))) ∨
      (∃ pins w, i = .configure pins ∧ s.fg = .idle ∧ s.cfg = none ∧ wellFormedPins s.par pins = true ∧ widthOf pins = some w ∧
         t = { s with
          now := max s.now s.fgReady
          cfg := some ⟨pins, w⟩
          pinMode := programPins (usedMask ⟨pins, w⟩) s.pinMode
          fg := .busy .configure (initSteps s.par ⟨pins, w⟩) 0 }))) ∨
    (∃ v w a, i = .mask v w a ∧ (t = raise .badPinAssignment .mask s ∨ ∃ r, t = { s with maskResult := some r })) ∨
    (isBusWord i = true ∧ ∃ h k, t = { s with hd := h, draws := k }) := by
  cases i with
  | configure pins =>
    refine .inr (.inl ⟨_, rfl, ?_⟩)
    have h := Host.Outcome.next.inj h
    rcases configure_cases pins s with ⟨r, n, hn, h1⟩ | ⟨w, h1, h2, h3, h4, h5⟩
    · exact .inl ⟨r, n, hn, h.symm.trans h1⟩
    · exact .inr (.inr ⟨pins, w, rfl, h1, h2, h3, h4, h.symm.trans h5⟩)
  | writeCommand b =>
    refine .inr (.inl ⟨_, rfl, ?_⟩)
    have h := Host.Outcome.next.inj h
    rcases startWrite_cases .writeCommand none (fun _ c => sendByte c false b) s with ⟨r, n, hn, h1⟩ | ⟨c, h1, h2, h3, h4⟩
    · exact .inl ⟨r, n, hn, h.symm.trans h1⟩
    · exact .inr (.inl ⟨c, _, h1, h2, by simp, h.symm.trans h4, .inl ⟨_, _, rfl⟩⟩)
  | writeChar b =>
    refine .inr (.inl ⟨_, rfl, ?_⟩)
    have h := Host.Outcome.next.inj h
    rcases startWrite_cases .writeChar none (fun _ c => sendByte c true b) s with ⟨r, n, hn, h1⟩ | ⟨c, h1, h2, h3, h4⟩
    · exact .inl ⟨r, n, hn, h.symm.trans h1⟩
    · exact .inr (.inl ⟨c, _, h1, h2, by simp, h.symm.trans h4, .inl ⟨_, _, rfl⟩⟩)
  | writeLine text row =>
    refine .inr (.inl ⟨_, rfl, ?_⟩)
    have h := Host.Outcome.next.inj h
    cases hr : rowCommand s.par row with
    | none =>
      simp only [hr] at h
      rcases startWrite_cases .writeLine (some .badRow) (fun _ _ => []) s with ⟨r, n, hn, h1⟩ | ⟨c, h1, h2, h3, h4⟩
      · exact .inl ⟨r, n, hn, h.symm.trans h1⟩
      · simp at h3
    | some rc =>
      simp only [hr] at h
      rcases startWrite_cases .writeLine none (fun p c => lineSteps p c rc text) s with ⟨r, n, hn, h1⟩ | ⟨c, h1, h2, h3, h4⟩
      · exact .inl ⟨r, n, hn, h.symm.trans h1⟩
      · exact .inr (.inl ⟨c, _, h1, h2, by simp, h.symm.trans h4, .inr (.inl ⟨_, _, rfl⟩)⟩)
  | writeTwoLines t1 t2 =>
    refine .inr (.inl ⟨_, rfl, ?_⟩)
    have h := Host.Outcome.next.inj h
    rcases startWrite_cases .writeTwoLines none (fun p c => lineSteps p c p.rowCmd1 t1 ++ lineSteps p c p.rowCmd2 t2) s with ⟨r, n, hn, h1⟩ | ⟨c, h1, h2, h3, h4⟩
    · exact .inl ⟨r, n, hn, h.symm.trans h1⟩
    · exact .inr (.inl ⟨c, _, h1, h2, by simp, h.symm.trans h4, .inr (.inr ⟨_, _, _, _, rfl⟩)⟩)
  | mask v w a =>
    refine .inr (.inr (.inl ⟨v, w, a, rfl, ?_⟩))
    have h := Host.Outcome.next.inj h
    subst h
    split
    · exact .inr ⟨_, rfl⟩
    · exact .inl rfl
  | tick => exact .inl ⟨rfl, Host.Outcome.next.inj h ▸ handlerFrame_tick s⟩
  | edge c => exact .inl ⟨rfl, Host.Outcome.next.inj h ▸ handlerFrame_edge c s⟩
  | debounceExpire c => exact .inl ⟨rfl, Host.Outcome.next.inj h ▸ handlerFrame_expire c s⟩
  | cmdStart => exact .inl ⟨rfl, Host.Outcome.next.inj h ▸ handlerFrame_dispatch .start s⟩
  | cmdStop => exact .inl ⟨rfl, Host.Outcome.next.inj h ▸ handlerFrame_dispatch .stop s⟩
  | cmdLap => exact .inl ⟨rfl, Host.Outcome.next.inj h ▸ handlerFrame_dispatch .lap s⟩
  | cmdReset => exact .inl ⟨rfl, Host.Outcome.next.inj h ▸ handlerFrame_dispatch .reset s⟩
  | _ => exact .inr (.inr (.inr ⟨rfl, _, _, (Host.Outcome.next.inj h).symm⟩))

/-- A command leaves the lines and the time. -/
theorem dispatch_lines (c : Channel) (s : State) :
    SameLines s (dispatch c s) ∧ (dispatch c s).now = s.now ∧ (dispatch c s).par = s.par := by
  cases c <;> cases hr : s.running <;>
    simp only [dispatch, startCommand, stopCommand, lapCommand, resetCommand, hr, if_true, Bool.false_eq_true,
      if_false] <;> refine ⟨⟨?_, ?_⟩, ?_, ?_⟩ <;> trivial

theorem dispatchIfPressed_lines (c : Channel) (s : State) :
    SameLines s (dispatchIfPressed c s) ∧ (dispatchIfPressed c s).now = s.now ∧
      (dispatchIfPressed c s).par = s.par := by
  rw [dispatchIfPressed]
  split
  · exact dispatch_lines c s
  · exact ⟨⟨rfl, rfl⟩, rfl, rfl⟩

/-- Commands do not read the debounce state. -/
theorem dispatch_setCh (c c' : Channel) (x : ChannelState) (s : State) :
    dispatch c (setCh c' x s) = setCh c' x (dispatch c s) := by
  cases c <;> cases h : s.running <;>
    simp [dispatch, startCommand, stopCommand, lapCommand, resetCommand, setCh, drawn, tickLateAfterReset, h]

theorem dispatchIfPressed_setCh (c c' : Channel) (x : ChannelState) (s : State) :
    dispatchIfPressed c (setCh c' x s) = setCh c' x (dispatchIfPressed c s) := by
  rw [dispatchIfPressed, dispatchIfPressed, setCh_button, setCh_par, dispatch_setCh]
  split <;> rfl

/-- The command operation of a channel is its dispatch. -/
theorem exec_commandOf (c : Channel) (s : State) : exec (commandOf c) s = .next (dispatch c s) := by
  cases c <;> rfl

/-- The expiry handler's body: the command if the level is the pressed one, and a line that listens again. -/
theorem expireBody_eq (c : Channel) (s : State) : expireBody c s = { dispatchIfPressed c s with
    ch := chanSet s.ch c
      ⟨false, true, none, Level.ofBool (chanGet s.button c).level, false⟩
    button := if s.par.pendingReplay && (chanGet s.ch c).pending
      then chanSet s.button c { chanGet s.button c with edgePending := true } else s.button } := by
  obtain ⟨⟨h1, h2⟩, _, h3⟩ := dispatchIfPressed_lines c s
  rw [expireBody, dispatchIfPressed_setCh]
  simp only [rearm, setCh_ch, setCh_button, setCh_par, h1, h2, h3, chanGet_chanSet_same]
  by_cases hb : (s.par.pendingReplay && (chanGet s.ch c).pending) = true
  · rw [if_pos hb, if_pos hb]
    simp [setCh, setButton, h1, h2, h3]
  · rw [if_neg hb, if_neg hb]
    simp [setCh, h1, h3, ← h2]

end Sys2Proof.Machine
end

