-- ==== Sys2Proof/Laws/Alone.lean ====
section
/-! SUPPORT. The block with no event queued: every handler served leaves less to serve, at the same time, so that the
handlers pending at one moment are all served before the Foreground moves on (60_exceptions R281). -/

namespace Sys2Proof.Machine

/-- One step of a run. -/
theorem core_run_next {s t : State} (h : step s = .next t) (k : Nat) :
    Host.Core.run Sys2Proof.core (k + 1) s = Host.Core.run Sys2Proof.core k t := by
  have general : ∀ (M : Host.Core) (a b : M.State), M.step a = .next b → M.run (k + 1) a = M.run k b := by
    intro M a b h
    simp [Host.Core.run, h]
  exact general Sys2Proof.core s t h

/-- How many tick steps are due. -/
def ticksDue (s : State) : Nat :=
  s.tickLate.toNat + if s.nextTick ≤ s.now then (s.now - s.nextTick) / Config.tTick + 1 else 0

/-- What is left to serve on the line of `c`: an edge handler, and an expiry with the edge it may leave pending. -/
def lineWork (c : Channel) (s : State) : Nat := (edgeDeliverable c s).toNat + 2 * (expirePending c s).toNat

/-- What is left to serve now. -/
def workLeft (s : State) : Nat :=
  ticksDue s + (lineWork .start s + lineWork .stop s + lineWork .lap s + lineWork .reset s)

theorem lineWork_of_same {c : Channel} {s t : State} (hc : chanGet t.ch c = chanGet s.ch c)
    (hb : chanGet t.button c = chanGet s.button c) (hn : t.now = s.now) : lineWork c t = lineWork c s := by
  rw [lineWork, lineWork, edgeDeliverable, edgeDeliverable, expirePending, expirePending, hc, hb, hn]

/-- The work on one line drops and no other changes: the work left drops. -/
theorem workLeft_drops {s t : State} (c : Channel) (hticks : ticksDue t ≤ ticksDue s)
    (hother : ∀ c', c' ≠ c → lineWork c' t = lineWork c' s) (hline : lineWork c t < lineWork c s) :
    workLeft t < workLeft s := by
  have h1 := hother .start
  have h2 := hother .stop
  have h3 := hother .lap
  have h4 := hother .reset
  rw [workLeft, workLeft]
  cases c <;> simp at h1 h2 h3 h4 <;> omega

/-- A command makes no tick due that was not. -/
theorem ticksDue_dispatch (c : Channel) (s : State) : ticksDue (dispatch c s) ≤ ticksDue s := by
  have same : ∀ t : State, t.tickLate = s.tickLate → t.nextTick = s.nextTick → t.now = s.now →
      ticksDue t ≤ ticksDue s := by
    intro t h1 h2 h3
    rw [ticksDue, ticksDue, h1, h2, h3]
  cases c <;> cases hr : s.running <;>
    simp only [dispatch, startCommand, stopCommand, lapCommand, resetCommand, hr, if_true, Bool.false_eq_true, if_false]
  case reset.false =>
    have hlate : (tickLateAfterReset (Config.freeLate s.draws) s).toNat ≤ if s.nextTick ≤ s.now then 1 else 0 := by
      rw [tickLateAfterReset]
      split
      · simpa [*] using Bool.toNat_le _
      · simp [*]
    have hnot : ¬ s.now + Config.tTick ≤ s.now := by simp [Config.tTick]
    rw [ticksDue, ticksDue]
    refine le_trans (Nat.add_le_add hlate (le_of_eq (if_neg hnot))) ?_
    by_cases hn : s.nextTick ≤ s.now
    · simp only [if_pos hn, Config.tTick]
      omega
    · simp only [if_neg hn]
      omega
  all_goals exact same _ rfl rfl rfl

/-- The tick handler, served when it is pending, leaves one tick step less due. -/
theorem ticksDue_tick {s : State} (h : tickPending s = true) :
    (tickIsr s).now = s.now ∧ ticksDue (tickIsr s) < ticksDue s := by
  have e : tickIsr s = tickBody (tickTime s) := rfl
  cases hl : s.tickLate with
  | true => simp [e, tickBody_eq, tickTime, hl, ticksDue]
  | false =>
    have hn : s.nextTick ≤ s.now := by simpa [tickPending, hl] using h
    have hnow : max s.now s.nextTick = s.now := Nat.max_eq_left hn
    simp only [e, tickBody_eq, tickTime, hl, Bool.false_eq_true, if_false, waitUntil, hnow, ticksDue, if_pos hn, true_and,
      Config.tTick]
    split <;> omega

/-- A handler served when it may run takes no time and leaves less to serve. -/
theorem served_drops {s t : State} {h : Handler} (hp : h.pending s = true) (hx : exec h.instr s = .next t) :
    t.now = s.now ∧ workLeft t < workLeft s := by
  cases h with
  | tick =>
    have ht := Host.Outcome.next.inj hx
    subst ht
    obtain ⟨hn, hd⟩ := ticksDue_tick hp
    have hch : (tickIsr s).ch = s.ch ∧ (tickIsr s).button = s.button := by
      have e : tickIsr s = tickBody (tickTime s) := rfl
      rw [e, tickBody_eq, tickTime]
      split <;> exact ⟨rfl, rfl⟩
    have hl : ∀ c, lineWork c (tickIsr s) = lineWork c s := fun c =>
      lineWork_of_same (by rw [hch.1]) (by rw [hch.2]) hn
    refine ⟨hn, ?_⟩
    rw [workLeft, workLeft, hl, hl, hl, hl]
    omega
  | edge c =>
    have ht := Host.Outcome.next.inj hx
    rcases edgeIsr_cases c s with ⟨hd, he⟩ | ⟨hd, _⟩
    · rw [he] at ht
      subst ht
      refine ⟨rfl, workLeft_drops c (le_refl _) (fun c' hc => ?_) ?_⟩
      · exact lineWork_of_same (chanGet_chanSet_other _ hc _) (chanGet_chanSet_other _ hc _) rfl
      · have harmed : ¬ s.now + Config.tDebounce ≤ s.now := by simp [Config.tDebounce]
        have hnone : ∀ (u : State), chanGet u.ch c =
              { chanGet s.ch c with ie := false, suppressed := true, deadline := some (s.now + Config.tDebounce) } →
            u.now = s.now → lineWork c u = 0 := by
          intro u hu hn
          simp [lineWork, edgeDeliverable, expirePending, hu, hn, harmed]
        refine lt_of_le_of_lt (le_of_eq (hnone _ (chanGet_chanSet_same _ _ _) rfl)) ?_
        rw [lineWork, hd]
        exact Nat.lt_of_lt_of_le Nat.zero_lt_one (Nat.le_add_right _ _)
    · have hd' : edgeDeliverable c s = true := hp
      simp [hd] at hd'
  | expire c =>
    have ht := Host.Outcome.next.inj hx
    obtain ⟨d, hd, hn⟩ : ∃ d, (chanGet s.ch c).deadline = some d ∧ d ≤ s.now := by
      have hp' : expirePending c s = true := hp
      rw [expirePending] at hp'
      split at hp'
      · simp at hp'
      · rename_i d hd
        exact ⟨d, hd, by simpa using hp'⟩
    have hnow : waitUntil d s = s := by rw [waitUntil, Nat.max_eq_left hn]
    have he : expireIsr c s = expireBody c s := by
      rw [expireIsr]
      simp only [hd, hnow]
      rfl
    rw [he, expireBody_eq] at ht
    obtain ⟨_, h2, _⟩ := dispatchIfPressed_lines c s
    have hticks : ticksDue (dispatchIfPressed c s) ≤ ticksDue s := by
      rw [dispatchIfPressed]
      split
      · exact ticksDue_dispatch c s
      · exact le_refl _
    subst ht
    refine ⟨h2, workLeft_drops c hticks (fun c' hc => ?_) ?_⟩
    · refine lineWork_of_same (chanGet_chanSet_other _ hc _) ?_ h2
      dsimp only
      split
      · exact chanGet_chanSet_other _ hc _
      · rfl
    · have hbefore : lineWork c s = (edgeDeliverable c s).toNat + 2 := by
        simp [lineWork, expirePending, hd, hn]
      have hafter : ∀ (u : State) (x : ChannelState), chanGet u.ch c = x → x.deadline = none → lineWork c u ≤ 1 := by
        intro u x hx hnone
        simp [lineWork, expirePending, hx, hnone, Bool.toNat_le]
      refine lt_of_le_of_lt (hafter _ _ (chanGet_chanSet_same _ _ _) rfl) ?_
      omega

/-- Alone and not refused, the block takes a step and stays so. -/
theorem alone_step {s : State} (hr : s.refused = false) (hq : s.queue = []) :
    ∃ t, step s = .next t ∧ t.refused = false ∧ t.queue = [] := by
  cases hn : nextHandler s with
  | some h =>
    obtain ⟨t, ht, hf⟩ := handler_cases (isHandlerOp_instr h) (drawn s)
    exact ⟨t, (step_serves hr hq hn).trans ht, hf.refused.trans hr, hf.queue.trans hq⟩
  | none =>
    obtain ⟨_, _, _, _, _, _, h7, _, h9, _⟩ := foregroundStep_frame s
    exact ⟨_, step_foreground hr hq hn, h7.trans hr, h9.trans hq⟩

/-- The run of a block left alone. -/
def aloneRun (s : State) : Nat → State
  | 0 => s
  | n + 1 =>
    match step (aloneRun s n) with
    | .next t => t
    | .fault _ => s
    | .refused _ => s

theorem aloneRun_isRun {s : State} (hr : s.refused = false) (hq : s.queue = []) : IsRun (aloneRun s) := by
  have alone : ∀ n, (aloneRun s n).refused = false ∧ (aloneRun s n).queue = [] := by
    intro n
    induction n with
    | zero => exact ⟨hr, hq⟩
    | succ n ih =>
      obtain ⟨t, ht, h⟩ := alone_step ih.1 ih.2
      simpa [aloneRun, ht] using h
  intro n
  obtain ⟨t, ht, _⟩ := alone_step (alone n).1 (alone n).2
  simp [aloneRun, ht]

end Sys2Proof.Machine
end

