-- ==== Sys2Proof/Laws/Codec.lean ====
section
/-! SUPPORT. Each operand reader takes back exactly the bytes its writer made. -/

namespace Sys2Proof

theorem takeWidth_encodeWidth (w : BusWidth) (bs : List Byte) : takeWidth (encodeWidth w ++ bs) = .ok (w, bs) := by
  cases w <;> rfl

theorem takeText_cons (b : Byte) (bs : List Byte) :
    takeText (1 :: b :: bs) = (takeText bs).map fun x => (b :: x.1, x.2) := by
  rw [takeText]
  cases h : takeText bs <;> simp [bind, Except.bind, pure, Except.pure, Except.map]

theorem takeText_zero (bs : List Byte) : takeText (0 :: bs) = .ok ([], bs) := by
  cases bs <;> simp [takeText]

theorem takeText_encodeText (t bs : List Byte) : takeText (encodeText t ++ bs) = .ok (t, bs) := by
  induction t with
  | nil => exact takeText_zero bs
  | cons b t ih =>
    show takeText (1 :: b :: (encodeText t ++ bs)) = _
    rw [takeText_cons, ih]
    rfl

/-- The digits of a number give it back, where there are enough of them. -/
theorem ofDigits_digits (k n : Nat) (h : n < 256 ^ k) : ofDigits (digits k n) = n := by
  induction k generalizing n with
  | zero => simp at h; subst h; rfl
  | succ k ih =>
    have hn : n / 256 < 256 ^ k := Nat.div_lt_of_lt_mul (by rw [pow_succ] at h; omega)
    rw [digits, ofDigits, ih _ hn, BitVec.toNat_ofNat]
    omega

theorem takeNat_encodeNat (n : Nat) (bs : List Byte) : takeNat (encodeNat n ++ bs) = .ok (n, bs) := by
  have hlt : n < 256 ^ (n.log2 / 8 + 1) := by
    refine lt_of_lt_of_le Nat.lt_log2_self ?_
    rw [show 256 = 2 ^ 8 from rfl, ← pow_mul]
    exact Nat.pow_le_pow_right (by decide) (by omega)
  simp [takeNat, encodeNat, takeText_encodeText, ofDigits_digits _ _ hlt, bind, Except.bind, pure, Except.pure]

theorem takeOptPin_encodeOptPin (q : Option Nat) (bs : List Byte) :
    takeOptPin (encodeOptPin q ++ bs) = .ok (q, bs) := by
  cases q with
  | none => rfl
  | some p => simp [encodeOptPin, takeOptPin, takeNat_encodeNat, bind, Except.bind, pure, Except.pure]

theorem takePins_encodePins (a : PinAssignment) (bs : List Byte) : takePins (encodePins a ++ bs) = .ok (a, bs) := by
  simp only [encodePins, List.append_assoc, takePins, takeOptPin_encodeOptPin, takeNat_encodeNat, bind, Except.bind,
    pure, Except.pure]

end Sys2Proof
end

