-- ==== Sys2Proof/Laws/PerInstr.lean ====
section
/-! SUPPORT. One lemma for each instruction: its encoding is a word of its own row of the opcode table
(30_encoding R83, R86, R82). -/

namespace Sys2Proof.Laws.EncodesItsRow

/-- The word of `i`'s frame matches the row that bears `i`'s mnemonic, in the table of the frame's format. -/
def Statement (i : Instr) : Prop :=
  ∃ r ∈ (encode i).rows, r.mnemonic = i.mnemonic ∧ r.accepts (encode i).tableWord = true

/-- An op whose selector is a fixed byte. -/
theorem of_op {i : Instr} {sel : Byte} {bs : List Byte} (h : encode i = .op (sel :: bs))
    (hr : (opRows.any fun r => r.mnemonic == i.mnemonic && r.accepts sel.toNat) = true) : Statement i := by
  obtain ⟨r, hm, hr⟩ := List.any_eq_true.1 hr
  simp only [Bool.and_eq_true, beq_iff_eq] at hr
  exact ⟨r, by rw [h]; exact hm, hr.1, by rw [h]; exact hr.2⟩

theorem configure (pins : PinAssignment) : Statement (.configure pins) := of_op rfl rfl
theorem writeCommand (b : Byte) : Statement (.writeCommand b) := of_op rfl rfl
theorem writeChar (b : Byte) : Statement (.writeChar b) := of_op rfl rfl
theorem writeLine (text : List Byte) (row : Nat) : Statement (.writeLine text row) := of_op rfl rfl
theorem writeTwoLines (text1 text2 : List Byte) : Statement (.writeTwoLines text1 text2) := of_op rfl rfl
theorem mask (value : Byte) (width : BusWidth) (pins : PinAssignment) : Statement (.mask value width pins) :=
  of_op rfl rfl
theorem tick : Statement .tick := of_op rfl rfl
theorem edge (ch : Channel) : Statement (.edge ch) := by
  cases ch <;> exact of_op rfl rfl
theorem debounceExpire (ch : Channel) : Statement (.debounceExpire ch) := by
  cases ch <;> exact of_op rfl rfl
theorem cmdStart : Statement .cmdStart := of_op rfl rfl
theorem cmdStop : Statement .cmdStop := of_op rfl rfl
theorem cmdLap : Statement .cmdLap := of_op rfl rfl
theorem cmdReset : Statement .cmdReset := of_op rfl rfl

/-- A bus9 word of row `k`. -/
theorem of_bus9 {i : Instr} {w : BitVec 9} (h : encode i = .bus9 w)
    (hr : (bus9Rows.any fun r => r.mnemonic == i.mnemonic && r.accepts w.toNat) = true) : Statement i := by
  obtain ⟨r, hm, hr⟩ := List.any_eq_true.1 hr
  simp only [Bool.and_eq_true, beq_iff_eq] at hr
  exact ⟨r, by rw [h]; exact hm, hr.1, by rw [h]; exact hr.2⟩

theorem hdClearDisplay : Statement .hdClearDisplay := of_bus9 rfl rfl
theorem hdReturnHome (x : Bool) : Statement (.hdReturnHome x) := by
  cases x <;> exact of_bus9 rfl rfl
theorem hdEntryModeSet (id s : Bool) : Statement (.hdEntryModeSet id s) :=
  of_bus9 rfl (by revert id s; decide)
theorem hdDisplayControl (d c b : Bool) : Statement (.hdDisplayControl d c b) :=
  of_bus9 rfl (by revert d c b; decide)
theorem hdCursorDisplayShift (sc rl : Bool) (x : BitVec 2) : Statement (.hdCursorDisplayShift sc rl x) :=
  of_bus9 rfl (by revert sc rl x; decide)
theorem hdFunctionSet (dl n f : Bool) (x : BitVec 2) : Statement (.hdFunctionSet dl n f x) :=
  of_bus9 rfl (by revert dl n f x; decide)
theorem hdSetCgramAddr (a : BitVec 6) : Statement (.hdSetCgramAddr a) :=
  of_bus9 rfl (by revert a; decide)
theorem hdSetDdramAddr (a : BitVec 7) : Statement (.hdSetDdramAddr a) :=
  of_bus9 rfl (by revert a; decide)
theorem hdWriteData (d : Byte) : Statement (.hdWriteData d) :=
  of_bus9 rfl (by revert d; decide)
theorem hdReserved00 : Statement .hdReserved00 := of_bus9 rfl rfl

theorem nibbleModeSelect : Statement .nibbleModeSelect := ⟨⟨"NIBBLE_MODE_SELECT", 0x1F, 0x02⟩, by decide⟩

end Sys2Proof.Laws.EncodesItsRow
end

