-- ==== Sys2Proof/Laws/Pins.lean ====
section
/-! SUPPORT. Pin patterns, levels and modes, bit by bit; the masks and their read-back. -/

namespace Sys2Proof.Machine

/-! ### Levels and modes -/

@[simp] theorem sample_ofBool (b free : Bool) : (Level.ofBool b).sample free = b := by cases b <;> rfl

@[simp] theorem length_drive (m v : Nat) (out : List Level) : (drive m v out).length = out.length := by
  induction out generalizing m v with
  | nil => rfl
  | cons l ls ih => simp [drive, ih]

/-- A pin write, pin by pin. -/
theorem getElem?_drive (m v : Nat) (out : List Level) (p : Nat) :
    (drive m v out)[p]? = out[p]?.map fun l => if m.testBit p then Level.ofBool (v.testBit p) else l := by
  induction out generalizing m v p with
  | nil => simp [drive]
  | cons l ls ih =>
    cases p with
    | zero => simp [drive]
    | succ p => simp [drive, ih, Nat.testBit_succ]

theorem pinLevel_drive (m v : Nat) (out : List Level) (p : Nat) (h : p < out.length) :
    pinLevel (drive m v out) p = if m.testBit p then Level.ofBool (v.testBit p) else pinLevel out p := by
  simp [pinLevel, getElem?_drive, List.getElem?_eq_getElem h]

theorem pinLevel_drive_off (m v : Nat) (out : List Level) (p : Nat) (h : m.testBit p = false) :
    pinLevel (drive m v out) p = pinLevel out p := by
  simp [pinLevel, getElem?_drive, h]

@[simp] theorem length_programPins (m : Nat) (l : List PinMode) : (programPins m l).length = l.length := by
  induction l generalizing m with
  | nil => rfl
  | cons x xs ih => simp [programPins, ih]

/-- Programming pins, pin by pin. -/
theorem getElem?_programPins (m : Nat) (l : List PinMode) (p : Nat) :
    (programPins m l)[p]? = l[p]?.map fun x => if m.testBit p then .outputPullUp else x := by
  induction l generalizing m p with
  | nil => simp [programPins]
  | cons x xs ih =>
    cases p with
    | zero => simp [programPins]
    | succ p => simp [programPins, ih, Nat.testBit_succ]

/-! ### Masks -/

/-- A bit of an OR of patterns. -/
theorem testBit_orAll (l : List Nat) (p : Nat) : (orAll l).testBit p = l.any fun x => x.testBit p := by
  induction l with
  | nil => simp [orAll]
  | cons x xs ih => simp [orAll, ih]

/-- A placed bit shows on its own pin only. -/
theorem testBit_placeBit (b : Bool) (q : Option Nat) (p : Nat) :
    (placeBit b q).testBit p = (b && q == some p) := by
  cases q with
  | none => simp [placeBit]
  | some x =>
    rw [placeBit, Nat.testBit_shiftLeft]
    by_cases h : x = p
    · subst h
      cases b <;> simp
    · have hne : (some x == some p) = false := by simp [h]
      rw [hne, Bool.and_false]
      by_cases hle : x ≤ p
      · have hs : p - x ≠ 0 := by omega
        cases b
        · simp
        · obtain ⟨k, hk⟩ := Nat.exists_eq_succ_of_ne_zero hs
          simp [hk, Nat.testBit_succ]
      · simp [hle]

theorem testBit_one_shift (e p : Nat) : ((1 : Nat) <<< e).testBit p = decide (e = p) := by
  have h := testBit_placeBit true (some e) p
  simp only [placeBit, Bool.toNat_true, Bool.true_and] at h
  rw [h]
  by_cases h : e = p <;> simp [h]

theorem testBit_mask8 (v : Byte) (a : PinAssignment) (p : Nat) :
    (mask8 v a).testBit p = dataLines8.any fun i => v.getLsbD i && dataPin a i == some p := by
  simp [mask8, testBit_orAll, testBit_placeBit, List.any_map, Function.comp_def]

theorem testBit_mask4 (v : Byte) (a : PinAssignment) (p : Nat) :
    (mask4 v a).testBit p = dataLines4.any fun i => v.getLsbD (i - 4) && dataPin a i == some p := by
  simp [mask4, testBit_orAll, testBit_placeBit, List.any_map, Function.comp_def]

theorem testBit_dataMask (c : DisplayCfg) (p : Nat) :
    (dataMask c).testBit p =
      (match c.width with | .eightBit => dataLines8 | .fourBit => dataLines4).any
        fun i => dataPin c.pins i == some p := by
  cases h : c.width <;> simp [dataMask, h, testBit_orAll, testBit_placeBit, List.any_map, Function.comp_def]

theorem testBit_usedMask (c : DisplayCfg) (p : Nat) :
    (usedMask c).testBit p = ((dataMask c).testBit p || decide (c.pins.e = p) || decide (c.pins.rs = p)) := by
  rw [usedMask, enableMask, rsMask, Nat.testBit_or, Nat.testBit_or, testBit_one_shift, testBit_one_shift]

/-- A mask never leaves the active data pins (40_bus_masking R101). -/
theorem testBit_maskIn_le (c : DisplayCfg) (v : Byte) (p : Nat) (h : (maskIn c.width v c.pins).testBit p = true) :
    (dataMask c).testBit p = true := by
  rw [testBit_dataMask]
  cases hw : c.width <;> rw [hw] at h
  · rw [maskIn, testBit_mask4, List.any_eq_true] at h
    obtain ⟨i, hi, h⟩ := h
    exact List.any_eq_true.2 ⟨i, hi, by simp_all⟩
  · rw [maskIn, testBit_mask8, List.any_eq_true] at h
    obtain ⟨i, hi, h⟩ := h
    exact List.any_eq_true.2 ⟨i, hi, by simp_all⟩

/-! ### Well-formed assignments -/

/-- What a well-formed assignment says: a width, distinct pins, all inside the pin space. -/
theorem wellFormedPins_spec {p : Params} {a : PinAssignment} (h : wellFormedPins p a = true) :
    (∃ w, widthOf a = some w) ∧ (presentPins a).Nodup ∧ ∀ x ∈ presentPins a, x < p.pinCount := by
  simp only [wellFormedPins, Bool.and_eq_true, decide_eq_true_eq, List.all_eq_true] at h
  exact ⟨Option.isSome_iff_exists.1 h.1.1.1, h.1.1.2, h.2⟩

/-- Data lines present are among the present pins. -/
theorem dataPin_mem_present {a : PinAssignment} {i : Nat} {x : Nat} (h : dataPin a i = some x) :
    x ∈ presentPins a := by
  have hi : i ∈ dataLines8 := by
    by_contra hn
    have : 8 ≤ i := by
      simp only [dataLines8, List.mem_cons, List.not_mem_nil, or_false, not_or] at hn
      omega
    obtain ⟨k, rfl⟩ := Nat.exists_eq_add_of_le this
    rw [show dataPin a (8 + k) = none by rw [Nat.add_comm]; rfl] at h
    simp at h
  rw [presentPins, List.mem_append]
  exact .inl (List.mem_filterMap.2 ⟨i, hi, h⟩)

/-- A data line's pin is neither E nor RS, and E is not RS. -/
theorem control_pins_distinct {a : PinAssignment} (h : (presentPins a).Nodup) :
    a.e ≠ a.rs ∧ ∀ i x, dataPin a i = some x → x ≠ a.e ∧ x ≠ a.rs := by
  rw [presentPins, List.nodup_append] at h
  obtain ⟨_, h2, h3⟩ := h
  refine ⟨by simpa using h2, ?_⟩
  intro i x hx
  have hmem : x ∈ dataLines8.filterMap (dataPin a) := by
    have hi : i ∈ dataLines8 := by
      by_contra hn
      have : 8 ≤ i := by
        simp only [dataLines8, List.mem_cons, List.not_mem_nil, or_false, not_or] at hn
        omega
      obtain ⟨k, rfl⟩ := Nat.exists_eq_add_of_le this
      rw [show dataPin a (8 + k) = none by rw [Nat.add_comm]; rfl] at hx
      simp at hx
    exact List.mem_filterMap.2 ⟨i, hi, hx⟩
  exact ⟨h3 x hmem a.e (by simp), h3 x hmem a.rs (by simp)⟩

/-- No two data lines share a pin (40_bus_masking R104). -/
theorem dataPin_injective {a : PinAssignment} (h : (presentPins a).Nodup) {i j : Nat} {x : Nat}
    (hi : dataPin a i = some x) (hj : dataPin a j = some x) : i = j := by
  have hlt : ∀ k, dataPin a k = some x → k < 8 := by
    intro k hk
    by_contra hn
    obtain ⟨m, rfl⟩ := Nat.exists_eq_add_of_le (Nat.not_lt.1 hn)
    rw [show dataPin a (8 + m) = none by rw [Nat.add_comm]; rfl] at hk
    simp at hk
  have h1 := hlt i hi
  have h2 := hlt j hj
  rw [presentPins, List.nodup_append] at h
  obtain ⟨hd, _, _⟩ := h
  have key : ∀ l : List Nat, (l.filterMap (dataPin a)).Nodup → l.Nodup → i ∈ l → j ∈ l → i = j := by
    intro l
    induction l with
    | nil => simp
    | cons k l ih =>
      intro hn hl hi' hj'
      have hl' := List.nodup_cons.1 hl
      have htail : (l.filterMap (dataPin a)).Nodup := by
        rw [List.filterMap_cons] at hn
        split at hn
        · exact hn
        · exact (List.nodup_cons.1 hn).2
      have hfresh : ∀ y, dataPin a k = some y → y ∉ l.filterMap (dataPin a) := by
        intro y hy
        rw [List.filterMap_cons, hy] at hn
        exact (List.nodup_cons.1 hn).1
      rcases List.mem_cons.1 hi' with rfl | hi'
      · rcases List.mem_cons.1 hj' with rfl | hj'
        · rfl
        · exact absurd (List.mem_filterMap.2 ⟨j, hj', hj⟩) (hfresh x hi)
      · rcases List.mem_cons.1 hj' with rfl | hj'
        · have hi'' : i = j ∨ i ∈ l := by simpa using hi'
          rcases hi'' with h | h
          · exact h
          · exact absurd (List.mem_filterMap.2 ⟨i, h, hi⟩) (hfresh x hj)
        · exact ih htail hl'.2 hi' hj'
  exact key dataLines8 hd (by decide) (by simp [dataLines8]; omega) (by simp [dataLines8]; omega)

/-- The byte a reader sees, line by line. -/
theorem readByte_eq (read : Nat → Bool) (a : PinAssignment) (v : Byte) (h : ∀ i, i < 8 → bitAt read (dataPin a i) = v.getLsbD i) : readByte read a = v := by
  have key : ∀ v : Byte, BitVec.ofNat 8 ((dataLines8.map fun i => (v.getLsbD i).toNat <<< i).sum) = v := by decide
  have : (dataLines8.map fun i => (bitAt read (dataPin a i)).toNat <<< i) = dataLines8.map fun i => (v.getLsbD i).toNat <<< i := by
    apply List.map_congr_left
    intro i hi
    rw [h i (by simp [dataLines8] at hi; omega)]
  rw [readByte, this, key]

/-- The nibble a reader sees, line by line. -/
theorem readNibble_eq (read : Nat → Bool) (a : PinAssignment) (v : BitVec 4) (h : ∀ j, j < 4 → bitAt read (dataPin a (4 + j)) = v.getLsbD j) : readNibble read a = v := by
  have key : ∀ v : BitVec 4, BitVec.ofNat 4 ((dataLines4.map fun i => (v.getLsbD (i - 4)).toNat <<< (i - 4)).sum) = v := by decide
  have : (dataLines4.map fun i => (bitAt read (dataPin a i)).toNat <<< (i - 4)) = dataLines4.map fun i => (v.getLsbD (i - 4)).toNat <<< (i - 4) := by
    apply List.map_congr_left
    intro i hi
    have : 4 ≤ i ∧ i < 8 := by simp [dataLines4] at hi; omega
    have h := h (i - 4) (by omega)
    rw [show 4 + (i - 4) = i by omega] at h
    rw [h]
  rw [readNibble, this, key]

/-- `mask8` on the pin of a data line. -/
theorem testBit_mask8_pin {a : PinAssignment} (hn : (presentPins a).Nodup) (v : Byte) {i x} (hi : i < 8) (hx : dataPin a i = some x) : (mask8 v a).testBit x = v.getLsbD i := by
  rw [testBit_mask8, Bool.eq_iff_iff, List.any_eq_true]
  constructor
  · rintro ⟨j, hj, h⟩
    simp only [Bool.and_eq_true, beq_iff_eq] at h
    rw [dataPin_injective hn hx h.2]; exact h.1
  · intro hb
    refine ⟨i, ?_, by simp [hb, hx]⟩
    simp [dataLines8]; omega

/-- `mask4` on the pin of a data line. -/
theorem testBit_mask4_pin {a : PinAssignment} (hn : (presentPins a).Nodup) (v : Byte) {i x} (hi : i < 4) (hx : dataPin a (4 + i) = some x) : (mask4 v a).testBit x = v.getLsbD i := by
  rw [testBit_mask4, Bool.eq_iff_iff, List.any_eq_true]
  constructor
  · rintro ⟨j, hj, h⟩
    simp only [Bool.and_eq_true, beq_iff_eq] at h
    have := dataPin_injective hn hx h.2
    subst this
    simpa using h.1
  · intro hb
    refine ⟨4 + i, ?_, by simp [hb, hx]⟩
    simp [dataLines4]; omega

/-- D4-D7 always have a pin. -/
theorem dataPin_high (a : PinAssignment) {j} (h : j < 4) : ∃ x, dataPin a (4 + j) = some x := by
  have : j = 0 ∨ j = 1 ∨ j = 2 ∨ j = 3 := by omega
  rcases this with rfl | rfl | rfl | rfl <;> exact ⟨_, rfl⟩

/-- In EightBit every data line has a pin. -/
theorem dataPin_eight {a : PinAssignment} (hw : widthOf a = some .eightBit) {i} (h : i < 8) : ∃ x, dataPin a i = some x := by
  by_cases h4 : 4 ≤ i
  · obtain ⟨j, rfl⟩ := Nat.exists_eq_add_of_le h4
    exact dataPin_high a (by omega)
  · rw [widthOf] at hw
    split at hw
    · simp at hw
    · rename_i h0 h1 h2 h3
      have : i = 0 ∨ i = 1 ∨ i = 2 ∨ i = 3 := by omega
      rcases this with rfl | rfl | rfl | rfl
      · exact ⟨_, h0⟩
      · exact ⟨_, h1⟩
      · exact ⟨_, h2⟩
      · exact ⟨_, h3⟩
    · simp at hw

end Sys2Proof.Machine
end

