-- ==== Sys2Proof/Laws/Sequencer.lean ====
section
/-! SUPPORT. The micro-step lists: where they write, how they pulse E, and what running one does. -/

namespace Sys2Proof.Machine

/-! ### Where the lists write (41_display_driver R139) -/

theorem xfer_within (c : DisplayCfg) (v : Byte) : ∀ m ∈ xfer c (maskIn c.width v c.pins), stepWithin (usedMask c) m := by
  intro m hm
  have hu : ∀ p, (usedMask c).testBit p = ((dataMask c).testBit p || decide (c.pins.e = p) || decide (c.pins.rs = p)) := testBit_usedMask c
  have he : ∀ p, (enableMask c).testBit p = true → (usedMask c).testBit p = true := by
    intro p h; rw [enableMask, testBit_one_shift] at h; rw [hu, h]; simp
  simp only [xfer, List.mem_cons, List.not_mem_nil, or_false] at hm
  rcases hm with rfl | rfl | rfl | rfl | rfl
  · intro p h; rw [hu, h]; simp
  · intro p h; rw [hu, testBit_maskIn_le c v p h]; simp
  · exact he
  · trivial
  · exact he

theorem sendRs_within (c : DisplayCfg) (l) : ∀ m ∈ sendRs c l, stepWithin (usedMask c) m := by
  intro m hm
  simp only [sendRs, List.mem_singleton] at hm
  subst hm
  intro p h
  rw [rsMask, testBit_one_shift] at h
  rw [testBit_usedMask, h]; simp

theorem app_within {um : Nat} {a b : List MicroStep} (ha : ∀ m ∈ a, stepWithin um m) (hb : ∀ m ∈ b, stepWithin um m) : ∀ m ∈ a ++ b, stepWithin um m := by
  intro m hm
  rcases List.mem_append.1 hm with h | h
  · exact ha m h
  · exact hb m h

theorem sendByte_within (c : DisplayCfg) (rs b) : ∀ m ∈ sendByte c rs b, stepWithin (usedMask c) m := by
  refine app_within (sendRs_within c rs) ?_
  have := xfer_within c
  rw [writeByte]; cases hw : c.width
  · rw [hw] at this
    exact app_within (this _) (this _)
  · rw [hw] at this
    exact this _

theorem sendChars_within (c : DisplayCfg) (l) : ∀ m ∈ sendChars c l, stepWithin (usedMask c) m := by
  induction l with
  | nil => intro m hm; simp [sendChars] at hm
  | cons b l ih => exact app_within (sendByte_within c _ _) ih

theorem line_within (p) (c : DisplayCfg) (rc tx) : ∀ m ∈ lineSteps p c rc tx, stepWithin (usedMask c) m :=
  app_within (sendByte_within c _ _) (sendChars_within c _)

theorem wait_within (um d) : ∀ m ∈ [MicroStep.wait d], stepWithin um m := by
  intro m hm; simp at hm; subst hm; trivial

theorem init_within (p) (c : DisplayCfg) : ∀ m ∈ initSteps p c, stepWithin (usedMask c) m := by
  have hc : ∀ b, ∀ m ∈ initCommand p c b, stepWithin (usedMask c) m := fun b => app_within (sendByte_within c _ _) (wait_within _ _)
  have := xfer_within c
  rw [initSteps]; cases hw : c.width
  · rw [hw] at this
    exact app_within (app_within (app_within (app_within (app_within (app_within (sendRs_within c _) (this _)) (wait_within _ _)) (hc _)) (hc _)) (hc _)) (hc _)
  · exact app_within (app_within (app_within (hc _) (hc _)) (hc _)) (hc _)

/-! ### How the lists pulse E (41_display_driver R135, R142) -/

/-- pulsesRight of an append from rest when the first ends at rest. -/
def endsRest (e : Nat) : Pulse → List MicroStep → Bool
  | ph, [] => ph == .rest
  | .rest, .wait _ :: l => endsRest e .rest l
  | .rest, .pinsWrite m v :: l =>
    if sets m v e then endsRest e .raised l else !m.testBit e && endsRest e .rest l
  | .raised, .wait d :: l =>
    if Config.tEnableHigh ≤ d then endsRest e .held l else endsRest e .raised l
  | .raised, .pinsWrite _ _ :: _ => false
  | .held, .wait _ :: l => endsRest e .held l
  | .held, .pinsWrite m v :: l => (m == 1 <<< e) && clears m v e && endsRest e .rest l

theorem pr_append (e : Nat) (a b : List MicroStep) : ∀ ph, endsRest e ph a = true → pulsesRight e .rest b = true → pulsesRight e ph (a ++ b) = true := by
  induction a with
  | nil => intro ph h hb; simp [endsRest] at h; subst h; exact hb
  | cons m a ih =>
    intro ph h hb
    cases ph <;> cases m <;> simp only [endsRest, Bool.and_eq_true, Bool.false_eq_true] at h <;> simp only [List.cons_append, pulsesRight, Bool.and_eq_true]
    · rename_i m v
      by_cases hx : sets m v e = true
      · rw [if_pos hx] at h ⊢; exact ih _ h hb
      · rw [if_neg hx] at h ⊢; simp only [Bool.and_eq_true] at h ⊢; exact ⟨h.1, ih _ h.2 hb⟩
    · exact ih _ h hb
    · rename_i d
      by_cases hx : Config.tEnableHigh ≤ d
      · rw [if_pos hx] at h ⊢; exact ih _ h hb
      · rw [if_neg hx] at h ⊢; exact ih _ h hb
    · exact ⟨h.1, ih _ h.2 hb⟩
    · exact ih _ h hb

theorem er_append (e : Nat) (a b : List MicroStep) : ∀ ph, endsRest e ph a = true → endsRest e .rest b = true → endsRest e ph (a ++ b) = true := by
  induction a with
  | nil => intro ph h hb; simp [endsRest] at h; subst h; exact hb
  | cons m a ih =>
    intro ph h hb
    cases ph <;> cases m <;> simp only [endsRest, Bool.and_eq_true, Bool.false_eq_true] at h <;> simp only [List.cons_append, endsRest, Bool.and_eq_true]
    · rename_i m v
      by_cases hx : sets m v e = true
      · rw [if_pos hx] at h ⊢; exact ih _ h hb
      · rw [if_neg hx] at h ⊢; simp only [Bool.and_eq_true] at h ⊢; exact ⟨h.1, ih _ h.2 hb⟩
    · exact ih _ h hb
    · rename_i d
      by_cases hx : Config.tEnableHigh ≤ d
      · rw [if_pos hx] at h ⊢; exact ih _ h hb
      · rw [if_neg hx] at h ⊢; exact ih _ h hb
    · exact ⟨h.1, ih _ h.2 hb⟩
    · exact ih _ h hb

theorem pr_of_er (e) (a : List MicroStep) (h : endsRest e .rest a = true) : pulsesRight e .rest a = true := by
  have := pr_append e a [] .rest h rfl
  simpa using this

structure CfgOk (c : DisplayCfg) : Prop where
  ne : c.pins.e ≠ c.pins.rs
  data : (dataMask c).testBit c.pins.e = false

theorem cfgOk_of {p} {c : DisplayCfg} (h : wellFormedPins p c.pins = true) : CfgOk c := by
  obtain ⟨_, hn, _⟩ := wellFormedPins_spec h
  obtain ⟨h1, h2⟩ := control_pins_distinct hn
  refine ⟨h1, ?_⟩
  rw [testBit_dataMask]
  rw [Bool.eq_false_iff]; intro hx
  rw [List.any_eq_true] at hx
  obtain ⟨i, _, hi⟩ := hx
  simp only [beq_iff_eq] at hi
  exact (h2 i _ hi).1 rfl

theorem er_sendRs {c : DisplayCfg} (hc : CfgOk c) (l) : endsRest c.pins.e .rest (sendRs c l) = true := by
  have : (rsMask c).testBit c.pins.e = false := by rw [rsMask, testBit_one_shift]; simpa using hc.ne.symm
  simp [sendRs, endsRest, sets, this]

theorem er_xfer {c : DisplayCfg} (hc : CfgOk c) (v) : endsRest c.pins.e .rest (xfer c (maskIn c.width v c.pins)) = true := by
  have h1 := hc.data
  have h2 : (maskIn c.width v c.pins).testBit c.pins.e = false := by
    rw [Bool.eq_false_iff]; intro h; have := testBit_maskIn_le c v _ h; rw [h1] at this; simp at this
  have h3 : (enableMask c).testBit c.pins.e = true := by rw [enableMask, testBit_one_shift]; simp
  simp [xfer, endsRest, sets, clears, h1, h2, h3]
  rfl

theorem er_sendByte {c : DisplayCfg} (hc : CfgOk c) (rs b) : endsRest c.pins.e .rest (sendByte c rs b) = true := by
  refine er_append _ _ _ _ (er_sendRs hc _) ?_
  have := er_xfer hc
  rw [writeByte]; cases hw : c.width <;> rw [hw] at this
  · exact er_append _ _ _ _ (this _) (this _)
  · exact this _

theorem er_sendChars {c : DisplayCfg} (hc : CfgOk c) (l) : endsRest c.pins.e .rest (sendChars c l) = true := by
  induction l with
  | nil => rfl
  | cons b l ih => exact er_append _ _ _ _ (er_sendByte hc _ _) ih

theorem er_line {c : DisplayCfg} (hc : CfgOk c) (p rc tx) : endsRest c.pins.e .rest (lineSteps p c rc tx) = true :=
  er_append _ _ _ _ (er_sendByte hc _ _) (er_sendChars hc _)

theorem er_wait (e d) : endsRest e .rest [.wait d] = true := rfl

theorem er_init {c : DisplayCfg} (hc : CfgOk c) (p) : endsRest c.pins.e .rest (initSteps p c) = true := by
  have hi : ∀ b, endsRest c.pins.e .rest (initCommand p c b) = true := fun b => er_append _ _ _ _ (er_sendByte hc _ _) rfl
  have := er_xfer hc
  rw [initSteps]; cases hw : c.width <;> rw [hw] at this
  · exact er_append _ _ _ _ (er_append _ _ _ _ (er_append _ _ _ _ (er_append _ _ _ _ (er_append _ _ _ _ (er_append _ _ _ _ (er_sendRs hc _) (this _)) rfl) (hi _)) (hi _)) (hi _)) (hi _)
  · exact er_append _ _ _ _ (er_append _ _ _ _ (er_append _ _ _ _ (hi _) (hi _)) (hi _)) (hi _)

/-! ### Bytes (41_display_driver R130) -/

/-- A pin write latches without driving. -/
theorem latch_out (m v s) : (latch m v s).out = s.out := by
  rw [latch]; cases s.cfg with
  | none => rfl
  | some c => dsimp only; split <;> rfl

theorem latch_frame (m v s) : (latch m v s).trace = s.trace ∧ (latch m v s).fgReady = s.fgReady := by
  rw [latch]; cases s.cfg with
  | none => exact ⟨rfl, rfl⟩
  | some c => dsimp only; split <;> exact ⟨rfl, rfl⟩

/-- Characters as a list of bytes with RS 1. -/
theorem sendChars_flat (c : DisplayCfg) (l : List Byte) : sendChars c l = (l.map fun b => (true, b)).flatMap (fun x => sendByte c x.1 x.2) := by
  induction l with
  | nil => rfl
  | cons b l ih => simp [sendChars, ih]

theorem lineChars_length (pad) (t : List Byte) : (lineChars pad t).length = 16 := by
  simp [lineChars, Config.cols]

theorem lineBytes_flat (p c rc tx) : lineSteps p c rc tx = (lineBytes p rc tx).flatMap (fun x => sendByte c x.1 x.2) := by
  rw [lineSteps, sendChars_flat, lineBytes, List.flatMap_cons]

theorem lineBytes_length (p rc tx) : (lineBytes p rc tx).length = 17 := by simp [lineBytes, lineChars_length]

theorem count_byte (c : DisplayCfg) (rs b) : (sendByte c rs b).countP (fun m => m == .wait Config.tEnableHigh) = (match c.width with | .eightBit => 1 | .fourBit => 2) := by
  cases hw : c.width <;> simp [sendByte, sendRs, writeByte, hw, byte4, byte8, xfer]

theorem count_bytes (c : DisplayCfg) (l : List (Bool × Byte)) : (l.flatMap fun x => sendByte c x.1 x.2).countP (fun m => m == .wait Config.tEnableHigh) = l.length * (match c.width with | .eightBit => 1 | .fourBit => 2) := by
  induction l with
  | nil => simp
  | cons x l ih => rw [List.flatMap_cons, List.countP_append, ih, count_byte, List.length_cons, Nat.add_mul]; omega

/-- what the bus shows -/
theorem readBus_lines (s : State) (c : DisplayCfg) (free : Nat) (data : Byte) 
    (hl : ∀ i x, i ∈ (match c.width with | .eightBit => dataLines8 | .fourBit => dataLines4) →
      dataPin c.pins i = some x →
      pinLevel s.out x = Level.ofBool (data.getLsbD (match c.width with | .eightBit => i | .fourBit => i - 4)))
    (h8 : c.width = .eightBit → widthOf c.pins = some .eightBit) (h4 : c.width = .fourBit → data.toNat < 16) :
    readBus c.width (seenLevel s.out free) c.pins = data := by
  cases hw : c.width <;> rw [hw] at hl
  · rw [readBus]
    have : readNibble (seenLevel s.out free) c.pins = data.extractLsb' 0 4 := by
      refine readNibble_eq _ _ _ fun j hj => ?_
      obtain ⟨x, hx⟩ := dataPin_high c.pins hj
      have := hl (4 + j) x (by simp [dataLines4]; omega) hx
      rw [hx, bitAt, seenLevel, this, sample_ofBool]; simp [hj]
    rw [this]
    have := h4 hw
    apply BitVec.eq_of_toNat_eq
    simp; omega
  · rw [readBus]
    refine readByte_eq _ _ _ fun i hi => ?_
    obtain ⟨x, hx⟩ := dataPin_eight (h8 hw) hi
    have := hl i x (by simp [dataLines8]; omega) hx
    rw [hx, bitAt, seenLevel, this, sample_ofBool]

end Sys2Proof.Machine
end

