-- ==== Sys2Proof/Laws/Run.lean ====
section
/-! SUPPORT. Running micro-step lists with no other agent between. -/

namespace Sys2Proof.Machine

/-- A list of micro-steps, each no sooner than the last Wait allows. -/
def runMicro : List MicroStep → State → State
  | [], s => s
  | m :: ms, s => runMicro ms (microStep m (foregroundTime s))

theorem runMicro_append (a b : List MicroStep) (s : State) : runMicro (a ++ b) s = runMicro b (runMicro a s) := by
  induction a generalizing s with
  | nil => rfl
  | cons m a ih => exact ih _

theorem runMicro_keepsFg (ms : List MicroStep) (s : State) : (runMicro ms s).fg = s.fg := by
  induction ms generalizing s with
  | nil => rfl
  | cons m ms ih => exact (ih _).trans (microStep_frame m (foregroundTime s)).2.2.2.2.2.1

/-- Two Busy sequencers of one operation. -/
theorem configuring_sameOp {s t : State} {op : DisplayOp} {l l' : List MicroStep} {pc pc' : Nat}
    (hs : s.fg = .busy op l pc) (ht : t.fg = .busy op l' pc') : configuring t = configuring s := by
  rw [configuring, configuring, hs, ht]
  cases op <;> rfl

/-- Of the sequencer a transfer looks only at whether CONFIGURE is in progress. -/
theorem captureTransfer_fg (c : DisplayCfg) (f : Fg) (s : State) (h : configuring { s with fg := f } = configuring s) :
    captureTransfer c { s with fg := f } = { captureTransfer c s with fg := f } := by
  simp only [captureTransfer, deliver, drawn, recovering, configuring] at h ⊢
  rw [h]

/-- Of the sequencer a micro-step looks only at whether CONFIGURE is in progress. -/
theorem microStep_fg (m : MicroStep) (f : Fg) (s : State) (h : configuring { s with fg := f } = configuring s) :
    microStep m { s with fg := f } = { microStep m s with fg := f } := by
  cases m with
  | wait d => rfl
  | pinsWrite m v =>
    have key : latch m v { s with fg := f } = { latch m v s with fg := f } := by
      obtain hc | ⟨c, hc⟩ := Option.eq_none_or_eq_some s.cfg
      · have e : ∀ t : State, t.cfg = none → latch m v t = t := by intro t h; rw [latch, h]
        rw [e s hc, e { s with fg := f } hc]
      · have e : ∀ t : State, t.cfg = some c → latch m v t =
            if clears m v c.pins.e && (pinLevel t.out c.pins.e == .high) then captureTransfer c t else t := by
          intro t h; rw [latch, h]
        rw [e s hc, e { s with fg := f } hc]
        dsimp only
        split
        · exact captureTransfer_fg c f s h
        · rfl
    rw [microStep, key]
    rfl

theorem runMicro_fg (ms : List MicroStep) (f : Fg) (s : State) (h : configuring { s with fg := f } = configuring s) :
    runMicro ms { s with fg := f } = { runMicro ms s with fg := f } := by
  induction ms generalizing s with
  | nil => rfl
  | cons m ms ih =>
    have hk : configuring (microStep m (foregroundTime s)) = configuring s := by
      rw [configuring, (microStep_frame m (foregroundTime s)).2.2.2.2.2.1]
      rfl
    rw [runMicro, runMicro, show foregroundTime { s with fg := f } = { foregroundTime s with fg := f } from rfl,
      microStep_fg m f (foregroundTime s) h, ih _ (hk.symm ▸ h)]

theorem foregroundSteps_add (a b : Nat) (s : State) :
    foregroundSteps (a + b) s = foregroundSteps b (foregroundSteps a s) := by
  induction a generalizing s with
  | zero => simp [foregroundSteps]
  | succ a ih => rw [Nat.succ_add]; exact ih _

/-- Foreground steps over a part of the list run that part. -/
theorem foregroundSteps_run (op : DisplayOp) (pre ms post : List MicroStep) (s : State) (hne : post ≠ [])
    (h : s.fg = .busy op (pre ++ ms ++ post) pre.length) :
    foregroundSteps ms.length s =
      { runMicro ms s with fg := .busy op (pre ++ ms ++ post) (pre ++ ms).length } := by
  induction ms generalizing pre s with
  | nil =>
    have key : ∀ f, s.fg = f → s = { s with fg := f } := by
      rintro f rfl
      rfl
    simpa [foregroundSteps, runMicro] using key _ h
  | cons m ms ih =>
    have hm : (pre ++ m :: ms ++ post)[pre.length]? = some m := by simp
    have hlt : pre.length + 1 < (pre ++ m :: ms ++ post).length := by
      have := List.length_pos_iff.2 hne
      simp
      omega
    have hstep : foregroundStep s = { microStep m (foregroundTime s) with
        fg := .busy op (pre ++ [m] ++ ms ++ post) (pre ++ [m]).length } := by
      rw [foregroundStep, h]
      simp only [hm, nextFg, hlt, if_true]
      simp
    show foregroundSteps ms.length (foregroundStep s) = _
    rw [ih (pre ++ [m]) (foregroundStep s) (by rw [hstep]), hstep, runMicro_fg]
    · simp [runMicro]
    · exact configuring_sameOp (((microStep_frame m (foregroundTime s)).2.2.2.2.2.1).trans h) rfl

/-- Foreground steps over a whole list run it, and end Idle. -/
theorem foregroundSteps_run_all (op : DisplayOp) (ms : List MicroStep) (s : State) (hne : ms ≠ [])
    (h : s.fg = .busy op ms 0) : foregroundSteps ms.length s = { runMicro ms s with fg := .idle } := by
  obtain ⟨a, m, rfl⟩ := (List.eq_nil_or_concat ms).resolve_left hne
  rw [List.concat_eq_append] at h ⊢
  have h1 := foregroundSteps_run op [] a [m] s (by simp) (by simpa using h)
  rw [List.length_append, foregroundSteps_add, h1]
  rw [List.length_singleton, foregroundSteps, foregroundSteps, foregroundStep]
  have hget : ([] ++ a ++ [m])[([] ++ a).length]? = some m := by simp
  simp only [hget]
  have hn : nextFg op ([] ++ a ++ [m]) ([] ++ a).length = .idle := by simp [nextFg]
  rw [hn, runMicro_append]
  exact congrArg (fun u : State => { u with fg := .idle }) (microStep_fg m (.busy op ([] ++ a ++ [m]) ([] ++ a).length) (foregroundTime (runMicro a s)) (by
    exact configuring_sameOp ((runMicro_keepsFg a s).trans h) rfl))

/-- The pins are wired as the configuration says. -/
structure Wired (c : DisplayCfg) (s : State) : Prop where
  cfg : s.cfg = some c
  wellFormed : wellFormedPins s.par c.pins = true
  width : widthOf c.pins = some c.width
  levels : s.out.length = s.par.pinCount

theorem Wired.of_pins {c : DisplayCfg} {s : State} (h : PinsConsistent s) (hc : s.cfg = some c) : Wired c s :=
  ⟨hc, (h.wellFormed c hc).1, (h.wellFormed c hc).2, h.levels⟩

theorem Wired.microStep {c : DisplayCfg} {s : State} (h : Wired c s) (m : MicroStep) : Wired c (microStep m s) := by
  obtain ⟨h1, _, _, h4, _⟩ := microStep_frame m s
  refine ⟨h4.trans h.cfg, by rw [h1]; exact h.wellFormed, h.width, ?_⟩
  rw [h1, ← h.levels]
  cases m with
  | wait d => rfl
  | pinsWrite m v => show (drive m v (latch m v s).out).length = _; rw [latch_out, length_drive]

theorem Wired.runMicro {c : DisplayCfg} {s : State} (h : Wired c s) (ms : List MicroStep) : Wired c (runMicro ms s) := by
  induction ms generalizing s with
  | nil => exact h
  | cons m ms ih => exact ih (Wired.microStep (s := foregroundTime s) ⟨h.1, h.2, h.3, h.4⟩ m)

/-- What a transfer of a value in a width carries (41_display_driver R141). -/
def carried (w : BusWidth) (v : Byte) : Byte :=
  match w with
  | .eightBit => v
  | .fourBit => (v.extractLsb' 0 4).setWidth 8

/-- A pin write that leaves E alone. -/
theorem pinsWrite_quiet {c : DisplayCfg} {s : State} (h : Wired c s) (m v : Nat) (hq : m.testBit c.pins.e = false) :
    microStep (.pinsWrite m v) s =
      { s with out := drive m v s.out, trace := ⟨s.now, m, v⟩ :: s.trace } := by
  have hl : latch m v s = s := by
    rw [latch, h.cfg]
    simp [clears, hq]
  rw [microStep, hl, drivePins, riseTime, h.cfg]
  simp [sets, hq]

/-- The pin write that raises E. -/
theorem pinsWrite_rise {c : DisplayCfg} {s : State} (h : Wired c s) :
    microStep (.pinsWrite (enableMask c) (enableMask c)) s = { s with
      out := drive (enableMask c) (enableMask c) s.out
      eRise := some s.now
      trace := ⟨s.now, enableMask c, enableMask c⟩ :: s.trace } := by
  have hb : (enableMask c).testBit c.pins.e = true := by rw [enableMask, testBit_one_shift]; simp
  have hl : latch (enableMask c) (enableMask c) s = s := by
    rw [latch, h.cfg]
    simp [clears, hb]
  rw [microStep, hl, drivePins, riseTime, h.cfg]
  simp [sets, hb]

/-- The pin write that lowers E while it is high. -/
theorem pinsWrite_fall {c : DisplayCfg} {s : State} (h : Wired c s)
    (he : pinLevel s.out c.pins.e = .high) :
    microStep (.pinsWrite (enableMask c) 0) s =
      { captureTransfer c s with
        out := drive (enableMask c) 0 s.out
        trace := ⟨s.now, enableMask c, 0⟩ :: s.trace } := by
  have hb : (enableMask c).testBit c.pins.e = true := by rw [enableMask, testBit_one_shift]; simp
  have hl : latch (enableMask c) 0 s = captureTransfer c s := by
    rw [latch, h.cfg]
    simp [clears, hb, he]
  have hr : riseTime (enableMask c) 0 (captureTransfer c s) = s.eRise := by
    have : (captureTransfer c s).cfg = some c := h.cfg
    simp only [riseTime, this, sets, Nat.zero_testBit, Bool.and_false, Bool.false_eq_true, if_false]
    rfl
  rw [microStep, hl, drivePins, hr]
  rfl

/-- What one `XFER` run leaves. -/
structure XferDone (c : DisplayCfg) (rs : Bool) (v : Byte) (s t : State) : Prop where
  wired : Wired c t
  par : t.par = s.par
  now : t.now = max s.now s.fgReady + Config.tEnableHigh
  fgReady : t.fgReady = t.now
  transfers : t.transfers = ⟨rs, carried c.width v, t.now, some Config.tEnableHigh⟩ :: s.transfers
  hd : ∃ q nib addr, t.hd = hdReceive s.par.tExec q c.width nib addr rs (carried c.width v) t.now s.hd
  rsLevel : pinLevel t.out c.pins.rs = Level.ofBool rs
  eLevel : pinLevel t.out c.pins.e = .low

theorem runMicro_xfer {c : DisplayCfg} {s : State} (h : Wired c s) {rs : Bool}
    (hrs : pinLevel s.out c.pins.rs = Level.ofBool rs) (v : Byte) :
    XferDone c rs v s (runMicro (xfer c (maskIn c.width v c.pins)) s) := by
  obtain ⟨_, hn, hlt⟩ := wellFormedPins_spec h.wellFormed
  obtain ⟨hne, hd⟩ := control_pins_distinct hn
  have ok := cfgOk_of h.wellFormed
  have hem : ∀ p, (enableMask c).testBit p = decide (c.pins.e = p) := by intro p; rw [enableMask, testBit_one_shift]
  have hee : (enableMask c).testBit c.pins.e = true := by rw [hem]; simp
  have her : (enableMask c).testBit c.pins.rs = false := by rw [hem]; simpa using hne
  have hdr : (dataMask c).testBit c.pins.rs = false := by
    rw [testBit_dataMask, Bool.eq_false_iff]
    intro hx
    rw [List.any_eq_true] at hx
    obtain ⟨i, _, hi⟩ := hx
    exact (hd i _ (by simpa using hi)).2 rfl
  have hmd : ∀ p, (dataMask c).testBit p = false → (maskIn c.width v c.pins).testBit p = false := by
    intro p hp
    by_contra hx
    have := testBit_maskIn_le c v p (by simpa using hx)
    simp [hp] at this
  have hme := hmd _ ok.data
  have hmr := hmd _ hdr
  have elt : c.pins.e < s.out.length := by rw [h.levels]; exact hlt _ (by simp [presentPins])
  generalize hP : maskIn c.width v c.pins = P at hmd hme hmr
  -- the states in between
  let s0 := foregroundTime s
  have w0 : Wired c s0 := ⟨h.1, h.2, h.3, h.4⟩
  let out1 := drive (dataMask c) 0 s.out
  let out2 := drive P P out1
  let out3 := drive (enableMask c) (enableMask c) out2
  let n := max s.now s.fgReady
  have e1 : microStep (.pinsWrite (dataMask c) 0) s0 = { s0 with out := out1, trace := ⟨n, dataMask c, 0⟩ :: s.trace } := by
    exact pinsWrite_quiet w0 _ _ ok.data
  let s1 : State := { s0 with out := out1, trace := ⟨n, dataMask c, 0⟩ :: s.trace }
  have w1 : Wired c s1 := ⟨w0.1, w0.2, w0.3, (length_drive _ _ _).trans w0.4⟩
  have t1 : foregroundTime s1 = s1 := by
    simp [s1, s0, foregroundTime, waitUntil]
  have e2 : microStep (.pinsWrite P P) s1 = { s1 with out := out2, trace := ⟨n, P, P⟩ :: s1.trace } := by
    exact pinsWrite_quiet w1 _ _ hme
  let s2 : State := { s1 with out := out2, trace := ⟨n, P, P⟩ :: s1.trace }
  have w2 : Wired c s2 := ⟨w1.1, w1.2, w1.3, (length_drive _ _ _).trans w1.4⟩
  have t2 : foregroundTime s2 = s2 := by
    simp [s2, s1, s0, foregroundTime, waitUntil]
  have e3 : microStep (.pinsWrite (enableMask c) (enableMask c)) s2 = { s2 with out := out3, eRise := some n, trace := ⟨n, enableMask c, enableMask c⟩ :: s2.trace } := by
    exact pinsWrite_rise w2
  let s3 : State := { s2 with out := out3, eRise := some n, trace := ⟨n, enableMask c, enableMask c⟩ :: s2.trace }
  have w3 : Wired c s3 := ⟨w2.1, w2.2, w2.3, (length_drive _ _ _).trans w2.4⟩
  have t3 : foregroundTime s3 = s3 := by
    simp [s3, s2, s1, s0, foregroundTime, waitUntil]
  let s4 : State := { s3 with fgReady := n + Config.tEnableHigh }
  have e4 : microStep (.wait Config.tEnableHigh) s3 = s4 := rfl
  let s5 : State := { s4 with now := n + Config.tEnableHigh }
  have t4 : foregroundTime s4 = s5 := by
    have : max n (n + Config.tEnableHigh) = n + Config.tEnableHigh := by omega
    show ({ s4 with now := max n (n + Config.tEnableHigh) } : State) = _
    rw [this]
  have w5 : Wired c s5 := ⟨w3.1, w3.2, w3.3, w3.4⟩
  have he3 : pinLevel s5.out c.pins.e = .high := by
    show pinLevel out3 _ = _
    rw [pinLevel_drive _ _ _ _ (by simpa [out2, out1] using elt), if_pos hee, hee]; rfl
  have hr3 : pinLevel s5.out c.pins.rs = Level.ofBool rs := by
    show pinLevel out3 _ = _
    rw [pinLevel_drive_off _ _ _ _ her, pinLevel_drive_off _ _ _ _ hmr, pinLevel_drive_off _ _ _ _ hdr, hrs]
  have run : runMicro (xfer c P) s = microStep (.pinsWrite (enableMask c) 0) s5 := by
    simp only [xfer, runMicro]
    rw [show foregroundTime s = s0 from rfl, e1]
    rw [show foregroundTime _ = s1 from t1, e2]
    rw [show foregroundTime _ = s2 from t2, e3]
    rw [show foregroundTime _ = s3 from t3, e4, t4]
  have hdat : readBus c.width (seenLevel s5.out (Config.freePattern s5.draws)) c.pins = carried c.width v := by
    have hx : ∀ x, x ∈ presentPins c.pins → (dataMask c).testBit x = true → (enableMask c).testBit x = false → pinLevel s5.out x = Level.ofBool (P.testBit x) := by
      intro x hx h1 h2
      have hlt' : x < s.out.length := by rw [h.levels]; exact hlt x hx
      show pinLevel out3 x = _
      rw [pinLevel_drive_off _ _ _ _ h2, pinLevel_drive _ _ _ _ (by simpa [out1] using hlt')]
      by_cases hp : P.testBit x = true
      · rw [if_pos hp]
      · rw [if_neg hp, pinLevel_drive _ _ _ _ hlt', if_pos h1]
        simp at hp; simp [hp]
    have hdm : ∀ i x, i ∈ (match c.width with | .eightBit => dataLines8 | .fourBit => dataLines4) → dataPin c.pins i = some x → pinLevel s5.out x = Level.ofBool (P.testBit x) := by
      intro i x hi hx'
      refine hx x (dataPin_mem_present hx') ?_ ?_
      · rw [testBit_dataMask, List.any_eq_true]; exact ⟨i, hi, by simp [hx']⟩
      · rw [hem]; simpa using (hd i x hx').1.symm
    refine readBus_lines s5 c _ _ ?_ (fun hw => by rw [← hw]; exact h.width) ?_
    · intro i x hi hx'
      rw [hdm i x hi hx', ← hP]
      cases hw : c.width <;> rw [hw] at hi
      · have : 4 ≤ i ∧ i < 8 := by simp [dataLines4] at hi; omega
        have h4 := testBit_mask4_pin hn v (i := i - 4) (by omega) (by rw [show 4 + (i - 4) = i by omega]; exact hx')
        rw [maskIn, h4]
        have hi4 : i - 4 < 4 := by omega
        simp [carried, hi4, Nat.lt_trans hi4 (show 4 < 8 by omega)]
      · have : i < 8 := by simp [dataLines8] at hi; omega
        rw [maskIn, testBit_mask8_pin hn v this hx']; rfl
    · intro hw; rw [hw, carried]; simp; omega
  rw [run, pinsWrite_fall w5 he3]
  have hcap : captureTransfer c s5 = deliver c.width rs (carried c.width v) { s5 with transfers := ⟨rs, carried c.width v, s5.now, some Config.tEnableHigh⟩ :: s5.transfers } := by
    rw [captureTransfer]
    have : seenLevel s5.out (Config.freePattern s5.draws) c.pins.rs = rs := by rw [seenLevel, hr3, sample_ofBool]
    rw [this, hdat]
    have ht : (s5.eRise.map fun t => s5.now - t) = some Config.tEnableHigh := by
      show some (n + Config.tEnableHigh - n) = _
      simp
    rw [ht]
  refine ⟨?_, ?_, ?_, ?_, ?_, ⟨recovering { s5 with transfers := ⟨rs, carried c.width v, s5.now, some Config.tEnableHigh⟩ :: s5.transfers },
    Config.freeNibble s.draws, Config.freeAddress s.draws, ?_⟩, ?_, ?_⟩
  · rw [← pinsWrite_fall w5 he3]; exact w5.microStep _
  all_goals rw [hcap]
  · rfl
  · rfl
  · rfl
  · rfl
  · rfl
  · show pinLevel (drive (enableMask c) 0 out3) _ = _
    rw [pinLevel_drive_off _ _ _ _ her]; exact hr3
  · show pinLevel (drive (enableMask c) 0 out3) _ = _
    rw [pinLevel_drive _ _ _ _ (by simpa [out3, out2, out1] using elt), if_pos hee]; simp; rfl

/-- `SEND_RS` sets the level of RS. -/
theorem runMicro_sendRs {c : DisplayCfg} {s : State} (h : Wired c s) (l : Bool) :
    ∃ out tr, runMicro (sendRs c l) s = { foregroundTime s with out := out, trace := tr } ∧
      Wired c { foregroundTime s with out := out, trace := tr } ∧
      pinLevel out c.pins.rs = Level.ofBool l := by
  obtain ⟨_, hn, hlt⟩ := wellFormedPins_spec h.wellFormed
  obtain ⟨hne, _⟩ := control_pins_distinct hn
  have hq : (rsMask c).testBit c.pins.e = false := by
    rw [rsMask, testBit_one_shift]
    simpa using hne.symm
  have hr : (rsMask c).testBit c.pins.rs = true := by rw [rsMask, testBit_one_shift]; simp
  have w0 : Wired c (foregroundTime s) := ⟨h.1, h.2, h.3, h.4⟩
  refine ⟨_, _, pinsWrite_quiet w0 _ _ hq, ⟨h.1, h.2, h.3, (length_drive _ _ _).trans h.4⟩, ?_⟩
  rw [pinLevel_drive _ _ _ _ (by rw [w0.levels]; exact hlt _ (by simp [presentPins])), if_pos hr]
  cases l <;> simp [hr]

/-- What a byte with its RS level, run to its end, leaves. -/
structure ByteDone (c : DisplayCfg) (rs : Bool) (b : Byte) (s t : State) : Prop where
  wired : Wired c t
  par : t.par = s.par
  now : t.now = max s.now s.fgReady + (match c.width with | .eightBit => 1 | .fourBit => 2) * Config.tEnableHigh
  fgReady : t.fgReady = t.now
  transfers : t.transfers.map Transfer.content = byteTransfers c.width rs b ++ s.transfers.map Transfer.content
  eight : c.width = .eightBit → ∃ q nib addr, t.hd = hdReceive s.par.tExec q .eightBit nib addr rs b t.now s.hd
  four : c.width = .fourBit → ∃ q nib addr q' nib' addr', t.hd =
    hdReceive s.par.tExec q' .fourBit nib' addr' rs ((b.extractLsb' 0 4).setWidth 8) t.now
      (hdReceive s.par.tExec q .fourBit nib addr rs ((b.extractLsb' 4 4).setWidth 8)
        (max s.now s.fgReady + Config.tEnableHigh) s.hd)
  rsLevel : pinLevel t.out c.pins.rs = Level.ofBool rs
  eLevel : pinLevel t.out c.pins.e = .low

theorem runMicro_sendByte {c : DisplayCfg} {s : State} (h : Wired c s) (rs : Bool) (b : Byte) :
    ByteDone c rs b s (runMicro (sendByte c rs b) s) := by
  obtain ⟨out, tr, e1, w1, hr1⟩ := runMicro_sendRs h rs
  rw [sendByte, runMicro_append, e1]
  generalize hs1 : ({ foregroundTime s with out := out, trace := tr } : State) = s1 at w1
  have p1 : s1.par = s.par := by subst hs1; rfl
  have n1 : max s1.now s1.fgReady = max s.now s.fgReady := by subst hs1; simp
  have t1 : s1.transfers = s.transfers := by subst hs1; rfl
  have d1 : s1.hd = s.hd := by subst hs1; rfl
  have r1 : pinLevel s1.out c.pins.rs = Level.ofBool rs := by subst hs1; exact hr1
  cases hw : c.width with
  | eightBit =>
    have hb : writeByte c b = xfer c (maskIn c.width b c.pins) := by rw [writeByte, hw]; rfl
    have x := runMicro_xfer w1 r1 b
    rw [← hb] at x
    refine ⟨x.wired, x.par.trans p1, ?_, x.fgReady, ?_, fun _ => ?_, fun hc => ?_, x.rsLevel, x.eLevel⟩
    · rw [x.now, n1, hw]; simp
    · rw [x.transfers, t1, hw]; rfl
    · obtain ⟨q, nib, addr, hh⟩ := x.hd
      exact ⟨q, nib, addr, by rw [hh, p1, d1, hw]; rfl⟩
    · rw [hw] at hc; simp at hc
  | fourBit =>
    have hb : writeByte c b = xfer c (maskIn c.width ((b.extractLsb' 4 4).setWidth 8) c.pins) ++
        xfer c (maskIn c.width ((b.extractLsb' 0 4).setWidth 8) c.pins) := by rw [writeByte, hw]; rfl
    rw [hb, runMicro_append]
    have x := runMicro_xfer w1 r1 ((b.extractLsb' 4 4).setWidth 8)
    have y := runMicro_xfer x.wired x.rsLevel ((b.extractLsb' 0 4).setWidth 8)
    generalize runMicro (xfer c (maskIn c.width ((b.extractLsb' 4 4).setWidth 8) c.pins)) s1 = s2 at x y
    generalize runMicro (xfer c (maskIn c.width ((b.extractLsb' 0 4).setWidth 8) c.pins)) s2 = s3 at y
    have cl : ∀ n : BitVec 4, carried c.width (n.setWidth 8) = n.setWidth 8 := by
      intro n
      rw [hw]
      simp only [carried]
      revert n
      decide
    have now2 : s2.now = max s.now s.fgReady + Config.tEnableHigh := by rw [x.now, n1]
    refine ⟨y.wired, y.par.trans (x.par.trans p1), ?_, y.fgReady, ?_, fun hc => ?_, fun _ => ?_, y.rsLevel, y.eLevel⟩
    · rw [y.now, x.fgReady, now2, hw, Nat.max_self]; simp only [Config.tEnableHigh]
    · rw [y.transfers, x.transfers, cl, cl, t1, hw]; rfl
    · rw [hw] at hc; simp at hc
    · obtain ⟨q, nib, addr, hh⟩ := x.hd
      obtain ⟨q', nib', addr', hh'⟩ := y.hd
      refine ⟨q, nib, addr, q', nib', addr', ?_⟩
      rw [hh', hh, cl, cl, x.par, p1, d1, hw, now2]

/-- What a list of bytes, run to its end, leaves of the pins and the transfers. -/
theorem runMicro_bytes {c : DisplayCfg} {s : State} (h : Wired c s) (l : List (Bool × Byte)) :
    let t := runMicro (l.flatMap fun x => sendByte c x.1 x.2) s
    Wired c t ∧ t.par = s.par ∧
      t.transfers.map Transfer.content = bytesTransfers c.width l ++ s.transfers.map Transfer.content ∧
      max s.now s.fgReady + l.length * (match c.width with | .eightBit => 1 | .fourBit => 2) * Config.tEnableHigh ≤
        max t.now t.fgReady := by
  induction l generalizing s with
  | nil => exact ⟨h, rfl, by simp [bytesTransfers, runMicro], by simp [runMicro]⟩
  | cons x l ih =>
    have b := runMicro_sendByte h x.1 x.2
    dsimp only
    rw [List.flatMap_cons, runMicro_append]
    generalize runMicro (sendByte c x.1 x.2) s = s1 at b
    obtain ⟨w, p, t, n⟩ := ih b.wired
    refine ⟨w, p.trans b.par, ?_, ?_⟩
    · rw [t, b.transfers, bytesTransfers, List.append_assoc]
    · refine le_trans ?_ n
      rw [b.fgReady, Nat.max_self, b.now, List.length_cons]
      cases c.width <;> simp only [Config.tEnableHigh] <;> omega

/-- A controller that can take the next byte of the Foreground in width `w`. -/
structure HdReady (w : BusWidth) (t : Nat) (h : Hd) : Prop where
  fault : h.fault = none
  rested : h.busyUntil ≤ t
  mode : match w with
    | .eightBit => h.mode = .eight
    | .fourBit => h.mode = .four ∧ h.phase = .high

/-- A ready controller executes the byte that was sent. -/
theorem ByteDone.executes {c : DisplayCfg} {rs : Bool} {b : Byte} {s t : State} (d : ByteDone c rs b s t)
    (h : HdReady c.width (max s.now s.fgReady + Config.tEnableHigh) s.hd) :
    ∃ addr, t.hd = hdExecute s.par.tExec addr rs (b.extractLsb' 4 4) (b.extractLsb' 0 4) t.now s.hd := by
  obtain ⟨hf, hb, hm⟩ := h
  have hn := d.now
  cases hw : c.width with
  | eightBit =>
    rw [hw] at hm hn
    dsimp only at hm hn
    obtain ⟨q, nib, addr, e⟩ := d.eight hw
    refine ⟨addr, ?_⟩
    have hnb : hdBusy t.now s.hd = false := by simp [hdBusy]; omega
    rw [e, hdReceive, hdAccept, hf, hnb]
    simp only [Option.isSome_none, Bool.false_eq_true, if_false, hdTake]
    rw [hm]; rfl
  | fourBit =>
    rw [hw] at hm hn
    dsimp only at hm hn
    obtain ⟨q, nib, addr, q', nib', addr', e⟩ := d.four hw
    refine ⟨addr', ?_⟩
    have hnb : hdBusy (max s.now s.fgReady + Config.tEnableHigh) s.hd = false := by simp [hdBusy]; omega
    have e1 : hdReceive s.par.tExec q .fourBit nib addr rs ((b.extractLsb' 4 4).setWidth 8)
        (max s.now s.fgReady + Config.tEnableHigh) s.hd
        = { s.hd with phase := .low (b.extractLsb' 4 4) rs } := by
      rw [hdReceive, hdAccept, hf, hnb]
      simp only [Option.isSome_none, Bool.false_eq_true, if_false, hdTake]
      rw [hm.1, hm.2]
      simp only [fourModeNibble_fourBit]
      congr 2
      generalize b.extractLsb' 4 4 = n
      revert n; decide
    rw [e, e1, hdReceive, hdAccept]
    have hnb' : hdBusy t.now { s.hd with phase := .low (b.extractLsb' 4 4) rs } = false := by
      simp [hdBusy]; omega
    rw [hnb', show ({ s.hd with phase := .low (b.extractLsb' 4 4) rs } : Hd).fault = none from hf]
    simp only [Option.isSome_none, Bool.false_eq_true, if_false, hdTake]
    rw [show s.hd.mode = .four from hm.1]
    simp only [ne_eq, not_true, if_false, fourModeNibble_fourBit]
    have hx : ({ s.hd with phase := .high } : Hd) = s.hd := by
      have : ∀ p, s.hd.phase = p → ({ s.hd with phase := p } : Hd) = s.hd := by rintro p rfl; rfl
      exact this _ hm.2
    have hy : ∀ n : BitVec 4, (n.setWidth 8).extractLsb' 0 4 = n := by decide
    rw [hy, ← hm.1, hx]

end Sys2Proof.Machine
end

