-- ==== Sys2Proof/Tests/Slice0.lean ====
section
/-! SUPPORT. The model's own tests. Expected values are the vectors of 95_test_vectors and values worked by hand from
the cited rules. Then one witness for the hypotheses of each statement that has any. -/

namespace Sys2Proof.Tests

open Sys2Proof Sys2Proof.Machine

/-! ### Small states -/

/-- A deployment: P = 16, T_SETTLE_US = 1020, polarity Falling, W_SUB = 8 (95_test_vectors, conventions). -/
def par0 : Params where
  pinCount := 16
  tSettle := 1020
  tPwr := 0
  edgePol := .falling
  line := ⟨20, 21, 22, 23⟩
  linesShared := false
  wSub := 8
  tHdReset := 0

/-- Its state after reset, tick phase 10000, every button released. -/
def st0 : State := .resetWith par0 10000 ⟨true, true, true, true⟩

/-- The pin assignments of 95_test_vectors. -/
def pa8 : PinAssignment := ⟨some 0, some 1, some 2, some 3, 4, 5, 6, 7, 8, 9⟩
def pr8 : PinAssignment := ⟨some 7, some 6, some 5, some 4, 3, 2, 1, 0, 8, 9⟩
def pn8 : PinAssignment := ⟨some 10, some 2, some 15, some 4, 0, 8, 6, 13, 1, 3⟩
def pa4 : PinAssignment := ⟨none, none, none, none, 4, 5, 6, 7, 8, 9⟩
def pn4 : PinAssignment := ⟨none, none, none, none, 9, 3, 12, 0, 5, 7⟩

/-- D0 and D1 present, D2 and D3 absent (95_test_vectors 2.3). -/
def partialPins : PinAssignment := ⟨some 0, some 1, none, none, 4, 5, 6, 7, 8, 9⟩

/-- A configured, idle block, its pins not written yet, with a controller in the mode of its width. -/
def configured (c : DisplayCfg) : State :=
  { st0 with
    now := 40000
    nextTick := 50000
    cfg := some c
    pinMode := programPins (usedMask c) st0.pinMode
    hd := { Hd.powerOn 0 with
      n := true, d := true
      mode := match c.width with | .eightBit => .eight | .fourBit => .four } }

def w8 : State := configured ⟨pa8, .eightBit⟩
def w4 : State := configured ⟨pn4, .fourBit⟩

/-- `w8` with the sequencer at micro-step `pc` of the byte write `(1, 0x41)`. -/
def busy8 (pc : Nat) : State := { w8 with fg := .busy .writeChar (sendByte ⟨pa8, .eightBit⟩ true 0x41) pc }

/-- A channel's state while its window is open. -/
def windowOpen (d : Nat) : ChannelState := ⟨true, false, some d, .unknown, false⟩

/-- The state after a step that answers one. -/
def nextOf : Host.Outcome State Fault Refusal → Option State
  | .next t => some t
  | .fault _ => none
  | .refused _ => none

/-- What `f` reads in the state after instruction `i`. -/
def reads {α : Type} (i : Instr) (s : State) (f : State → α) : Option α := (nextOf (exec i s)).map f

/-- What a refusal of `i` records: its code and its operation. -/
def refusalCode (i : Instr) (s : State) : Option (Nat × RefusedOp) :=
  (nextOf (exec i s)).bind fun t => t.refusal.map fun r => (r.reason.code, r.op)

/-- The micro-step list that `i` starts. -/
def startedSteps (i : Instr) (s : State) : List MicroStep :=
  match nextOf (exec i s) with
  | none => []
  | some t =>
    match t.fg with
    | .busy _ steps 0 => steps
    | .busy _ _ (_ + 1) => []
    | .idle => []

/-! ### WellFormed: every term has an encoding, so none is ill-formed (log 4); what the spec refuses is still syntax -/

theorem test_wf_accepts : (Instr.configure { pa8 with d4 := 65540 }).wf = true ∧
    (Instr.mask 0 .fourBit { pa4 with e := 65536 }).wf = true ∧ (Instr.writeLine [] 257).wf = true := by decide
/-- No number is cut: pin 65540 and row 257 keep every digit. -/
theorem test_numbers_are_whole : decode (encode (.configure { pa4 with d4 := 65540 })) =
      .ok (.configure { pa4 with d4 := 65540 }) ∧
    decode (.op [0x04, 1, 1, 1, 1, 0, 0]) = .ok (.writeLine [] 257) := by decide +kernel

/-! ### Decoding: words written out from 30_encoding R83, R86, R82 -/

theorem test_decode_display : decode (.op [0b00000010, 0b00000001]) = .ok (.writeCommand 1) ∧
    decode (.op [0b00000011, 0b01000001]) = .ok (.writeChar 0x41) ∧
    decode (.op [0b00000100, 1, 2, 0, 1, 0x41, 1, 0x42, 0]) = .ok (.writeLine [0x41, 0x42] 2) ∧
    decode (.op [0b00000101, 1, 0x41, 0, 1, 0x42, 0]) = .ok (.writeTwoLines [0x41] [0x42]) := by
  decide +kernel
theorem test_decode_configure : decode (.op [0b00000001, 0, 0, 0, 0, 1, 4, 0, 1, 5, 0, 1, 6, 0, 1, 7, 0,
    1, 8, 0, 1, 9, 0]) = .ok (.configure pa4) := by decide +kernel
theorem test_decode_mask : decode (.op [0b00000110, 0xA5, 1, 1, 1, 10, 0, 1, 1, 2, 0, 1, 1, 15, 0, 1, 1, 4, 0,
    1, 0, 0, 1, 8, 0, 1, 6, 0, 1, 13, 0, 1, 1, 0, 1, 3, 0]) = .ok (.mask 0xA5 .eightBit pn8) := by decide +kernel
theorem test_decode_events : decode (.op [0b00010000]) = .ok .tick ∧ decode (.op [0b00100000]) = .ok (.edge .start) ∧
    decode (.op [0b00100011]) = .ok (.edge .reset) ∧ decode (.op [0b00110010]) = .ok (.debounceExpire .lap) ∧
    decode (.op [0b00110011]) = .ok (.debounceExpire .reset) := by decide +kernel
theorem test_decode_commands : decode (.op [0b01000000]) = .ok .cmdStart ∧ decode (.op [0b01000001]) = .ok .cmdStop ∧
    decode (.op [0b01000010]) = .ok .cmdLap ∧ decode (.op [0b01000011]) = .ok .cmdReset := by decide +kernel
theorem test_decode_bus9_low : decodeBus9 0b000000001 = .hdClearDisplay ∧ decodeBus9 0b000000011 = .hdReturnHome true ∧
    decodeBus9 0b000000110 = .hdEntryModeSet true false ∧ decodeBus9 0b000001100 = .hdDisplayControl true false false ∧
    decodeBus9 0b000010100 = .hdCursorDisplayShift false true 0 ∧ decodeBus9 0b000000000 = .hdReserved00 := by
  decide +kernel
theorem test_decode_bus9_high : decodeBus9 0b000111000 = .hdFunctionSet true true false 0 ∧
    decodeBus9 0b001000101 = .hdSetCgramAddr 5 ∧ decodeBus9 0b011000000 = .hdSetDdramAddr 0x40 ∧
    decodeBus9 0b101000010 = .hdWriteData 0x42 := by decide +kernel
theorem test_decode_bus5 : decode (.bus5 0b00010) = .ok .nibbleModeSelect ∧
    decode (.bus5 0b10010) = .error (.unpairedNibble 0b10010) := by decide +kernel
/-- The selectors of 95_test_vectors 2.5. -/
theorem test_decode_unknown : decode (.op [0x07]) = .error (.unknownSelector 0x07) ∧
    decode (.op [0x11]) = .error (.unknownSelector 0x11) ∧ decode (.op [0x24]) = .error (.unknownSelector 0x24) ∧
    decode (.op [0x44]) = .error (.unknownSelector 0x44) ∧ decode (.op [0xFF]) = .error (.unknownSelector 0xFF) := by
  decide +kernel
theorem test_decode_layout : decode (.op [0x02]) = .error .truncated ∧ decode (.op [0x10, 0]) = .error .trailing ∧
    decode (.op [0x01, 2]) = .error (.badPresence 2) ∧ decode (.op [0x06, 0, 2]) = .error (.badWidth 2) ∧
    decode (.op [0x04, 2, 0]) = .error (.badText 2) := by decide +kernel

/-! ### MASK (95_test_vectors 2.1) -/

theorem test_mask_eight : reads (.mask 0xA5 .eightBit pn8) st0 (·.maskResult) = some (some 0xA500) ∧
    mask8 0xFF pn8 = 0xA555 ∧ mask8 0x41 pr8 = 0x082 ∧ mask8 0x38 pr8 = 0x01C ∧ unmask8 0xA500 pn8 = 0xA5 := by
  decide +kernel
/-- Also EightBit without D0-D3: only the bits of D4-D7 (R105). -/
theorem test_mask_four : reads (.mask 0x3A .fourBit pn4) st0 (·.maskResult) = some (some 0x0009) ∧
    mask4 0xC pn4 = 0x1001 ∧ reads (.mask 0xA5 .eightBit pa4) st0 (·.maskResult) = some (some 0xA0) ∧ mask4 0xF0 pn4 = 0 ∧ unmask4 0x1001 pn4 = 0xC ∧ unmask4 0x12A9 pn4 = 0xF := by
  decide +kernel
theorem test_mask_refused : refusalCode (.mask 1 .fourBit partialPins) st0 = some (1, .mask) := by decide +kernel

/-! ### Display operations (95_test_vectors 2.2-2.5) -/

theorem test_configure_pa4 : reads (.configure pa4) st0 (·.cfg) = some (some ⟨pa4, .fourBit⟩) ∧
    reads (.configure pa4) st0 (fun t => (t.pinMode[3]?, t.pinMode[4]?, t.pinMode[9]?, t.pinMode[10]?)) =
      some (some .unconfigured, some .outputPullUp, some .outputPullUp, some .unconfigured) ∧
    (startedSteps (.configure pa4) st0).length = 55 ∧ (startedSteps (.configure pa8) st0).length = 28 := by
  decide +kernel
theorem test_configure_refused : refusalCode (.configure partialPins) st0 = some (1, .display .configure) ∧
    refusalCode (.configure { pa8 with e := 4 }) st0 = some (1, .display .configure) ∧
    refusalCode (.configure { pa8 with rs := 16 }) st0 = some (1, .display .configure) ∧
    refusalCode (.configure partialPins) w8 = some (2, .display .configure) ∧
    refusalCode (.configure pa8) { st0 with par := { par0 with linesShared := true, line := ⟨3, 21, 22, 23⟩ } } =
      some (1, .display .configure) := by decide +kernel
/-- The trace of `write_command(0x01)` on PA8. -/
theorem test_writeCommand_steps : startedSteps (.writeCommand 0x01) w8 =
    [.pinsWrite 0x200 0, .pinsWrite 0x0FF 0, .pinsWrite 0x001 0x001, .pinsWrite 0x100 0x100, .wait 500,
      .pinsWrite 0x100 0] := by decide +kernel
theorem test_writeCommand_refused : refusalCode (.writeCommand 1) st0 = some (3, .display .writeCommand) := by
  decide +kernel
/-- The trace of `write_char(0x41)` on PN4. -/
theorem test_writeChar_steps : startedSteps (.writeChar 0x41) w4 =
    [.pinsWrite 0x0080 0x0080, .pinsWrite 0x1209 0, .pinsWrite 0x1000 0x1000, .pinsWrite 0x0020 0x0020, .wait 500,
      .pinsWrite 0x0020 0, .pinsWrite 0x1209 0, .pinsWrite 0x0200 0x0200, .pinsWrite 0x0020 0x0020, .wait 500,
      .pinsWrite 0x0020 0] := by decide +kernel
theorem test_writeChar_reentrant : refusalCode (.writeChar 0x41) (busy8 2) = some (5, .display .writeChar) := by
  decide +kernel
theorem test_writeLine_steps : (startedSteps (.writeLine [0x41, 0x42] 2) w8).length = 102 ∧
    startedSteps (.writeLine [0x41, 0x42] 2) w8 = sendByte ⟨pa8, .eightBit⟩ false 0xC0 ++
      sendChars ⟨pa8, .eightBit⟩ ([0x41, 0x42] ++ List.replicate 14 0x20) ∧
    (startedSteps (.writeLine [0x31] 1) w4).length = 187 := by decide +kernel
theorem test_writeLine_refused : refusalCode (.writeLine [0x78] 3) w8 = some (4, .display .writeLine) ∧
    refusalCode (.writeLine [0x78] 0) w8 = some (4, .display .writeLine) ∧
    refusalCode (.writeLine [0x78] 3) st0 = some (3, .display .writeLine) := by decide +kernel
theorem test_writeTwoLines_steps : (startedSteps (.writeTwoLines [0x41] [0x42]) w8).length = 204 ∧
    (startedSteps (.writeTwoLines [0x41] [0x42]) w4).length = 374 := by decide +kernel
theorem test_writeTwoLines_refused : refusalCode (.writeTwoLines [0x41] [0x42]) st0 =
    some (3, .display .writeTwoLines) := by decide +kernel

/-! ### The Foreground and the step -/

/-- The fall of E with the pattern 0x41 on D7..D0 and RS high: one transfer, 520 µs after the rise. -/
theorem test_enable_fall : (foregroundStep { busy8 5 with
      now := 41000, fgReady := 41500, eRise := some 40980
      out := drive 0x341 0x341 (drive 0x0FF 0 w8.out) }).transfers = [⟨true, 0x41, 41500, some 520⟩] := by
  decide +kernel
theorem test_foreground_wait : (foregroundStep (busy8 4)).fgReady = 40500 ∧
    (foregroundStep (busy8 5)).fg = .idle := by decide +kernel
theorem test_handler_call_refused : (nextOf (step { w8 with
      queue := [.handlerRequest (.op [0x03, 0x41])] })).bind (fun t => t.refusal.map (·.reason.code)) = some 5 := by
  decide +kernel
theorem test_unknown_selector_step : (nextOf (step { st0 with queue := [.request (.op [0x07])] })).bind
    (fun t => t.refusal.map (·.reason.code)) = some 6 := by decide +kernel
theorem test_stuck : nextOf (step { st0 with refused := true }) = none := rfl
/-- Program D of 95_test_vectors 3.4: its first step refuses. -/
theorem test_program_d : (nextOf (step (loadProgram [.wcmd 1] st0))).bind
    (fun t => t.refusal.map (·.reason.code)) = some 3 := by decide +kernel

/-- A refused call is a Foreground step too: it waits for the end of the last Wait. -/
theorem test_refused_call_waits : reads (.writeLine [] 3) { w8 with fgReady := 40500 } (fun t => (t.refused, t.now)) =
    some (true, 40500) := by decide +kernel
/-- Row 257 is a BadRow and pin 65540 a BadPinAssignment, also through the assembler. -/
theorem test_large_operands : (nextOf (step (loadProgram [.wline 257 []] w8))).bind
      (fun t => t.refusal.map (·.reason.code)) = some 4 ∧
    (nextOf (step (loadProgram [.configure { pa4 with d4 := 65540 }] st0))).bind
      (fun t => t.refusal.map (·.reason.code)) = some 1 := by decide +kernel
/-- The reader takes one field and leaves the others as read before. -/
theorem test_read : (nextOf (step { st0 with elapsed := 7, running := true, queue := [.read .elapsed] })).map
    (·.snapshot) = some ⟨some 7, none, none, none⟩ := by decide +kernel
/-- While interrupts are masked a due tick stays pending. -/
theorem test_masked_tick : (nextOf (step { st0 with now := 10000, irqMasked := true, queue := [.request (.op [0x10])] })).map
    (fun t => (t.nextTick, t.queue)) = some (10000, []) ∧
    enabledHandlers { st0 with now := 10000, irqMasked := true } = [] := by decide +kernel
/-- Left alone, the block serves the tick that is due. -/
theorem test_alone_serves_tick : step { st0 with now := 10000 } = exec .tick { st0 with now := 10000, draws := 1 } := by
  have h : enabledHandlers { st0 with now := 10000 } = [.tick] := by decide +kernel
  exact step_serves (s := { st0 with now := 10000 }) (h := .tick) rfl rfl (by simp [nextHandler, h, Nat.mod_one])

/-! ### Timekeeping (95_test_vectors 2.7) -/

/-- A stopwatch row of the table. -/
def watch (running : Bool) (elapsed lapRef : BitVec 32) (lapDelta : LapDelta) : State :=
  { st0 with running := running, elapsed := elapsed, lapRef := lapRef, lapDelta := lapDelta }

theorem test_tick_T1_T2 : reads .tick (watch true 99 0 (.flat 0)) (·.elapsed) = some 100 ∧
    reads .tick (watch true 359999 359000 (.flat 100)) (fun t => (t.elapsed, t.lapRef, t.lapDelta)) =
      some (0, 359000, .flat 100) := by decide +kernel
theorem test_tick_T3 : reads .tick (watch false 1234 0 (.flat 0)) (fun t => (t.elapsed, t.nextTick)) =
    some (1234, 20000) := by decide +kernel
theorem test_start_T4_T5 : reads .cmdStart (watch false 500 0 (.flat 0)) (fun t => (t.running, t.elapsed)) =
    some (true, 500) ∧ nextOf (exec .cmdStart (watch true 500 0 (.flat 0))) = some (watch true 500 0 (.flat 0)) := by
  decide +kernel
theorem test_stop_T6_T7 : reads .cmdStop (watch true 1234 0 (.flat 0)) (fun t => (t.running, t.elapsed)) =
    some (false, 1234) ∧
    nextOf (exec .cmdStop (watch false 1234 0 (.flat 0))) = some (watch false 1234 0 (.flat 0)) := by decide +kernel
theorem test_lap_T8_T10 : reads .cmdLap (watch true 8030 6150 (.flat 0)) (fun t => (t.lapRef, t.lapDelta)) =
    some (8030, .flat 1880) ∧
    reads .cmdLap (watch true 500 359000 (.flat 0)) (fun t => (t.lapRef, t.lapDelta)) = some (500, .flat 1500) := by
  decide +kernel
theorem test_lap_T15_T16 :
    lapDeltaOf { par0 with lapMode := .subfieldNoBorrow } 8030 6150 = .sub 0 19 236 ∧
    lapDeltaOf { par0 with lapMode := .subfieldNoBorrow } 500 359000 = .sub 197 211 0 := by decide +kernel
theorem test_reset_T12 : reads .cmdReset { watch false 13530 6150 (.flat 1880) with now := 45000, nextTick := 50000 }
    (fun t => (t.running, t.elapsed, t.lapRef, t.lapDelta, t.nextTick, t.tickLate)) =
    some (true, 0, 0, .flat 0, 55000, false) := by decide +kernel
theorem test_reset_T13_T14 : reads .cmdReset { watch false 13530 6150 (.flat 1880) with
      now := 50020, nextTick := 50000 } (fun t => (t.running, t.elapsed, t.nextTick)) = some (true, 0, 60020) ∧
    nextOf (exec .cmdReset (watch true 700 0 (.flat 0))) = some (watch true 700 0 (.flat 0)) := by decide +kernel
/-- The views of 95_test_vectors 2.7. -/
theorem test_views : displayedTime 359999 = (59, 59, 99) ∧ displayedTime 13530 = (2, 15, 30) ∧
    displayedTime 6150 = (1, 1, 50) ∧ displayedTime 6000 = (1, 0, 0) := by decide

/-! ### Debounce (95_test_vectors 2.6) -/

/-- Start's level is 0 and its edge pending, at 1000. -/
def pressed : State := { st0 with now := 1000, button := { st0.button with start := ⟨false, true⟩ } }

/-- Start's window is open until 31000, its level `l`. -/
def opened (l : Bool) : State :=
  { st0 with now := 30999, ch := { st0.ch with start := windowOpen 31000 }
             button := { st0.button with start := ⟨l, false⟩ } }

theorem test_edge_B1 : reads (.edge .start) pressed (fun t => (t.ch.start, t.button.start.edgePending)) =
    some (⟨true, false, some 31000, .unknown, false⟩, false) := by decide +kernel
/-- B2: no handler runs inside the window. B4: after the expiry of a button still held, EDGE and DEBOUNCE_EXPIRE have
nothing to serve. -/
theorem test_edge_B2_B4 : nextOf (exec (.edge .start) (opened false)) = some (opened false) ∧
    (nextOf (exec (.debounceExpire .start) (opened false))).bind (fun t => (nextOf (exec (.edge .start) t)).bind fun u =>
      (nextOf (exec (.debounceExpire .start) u)).map fun v => (decide (v = t), v.button.start)) =
        some (true, ⟨false, false⟩) := by decide +kernel
theorem test_expire_B1 : reads (.debounceExpire .start) (opened false) (fun t => (t.now, t.running, t.ch.start)) =
    some (31000, true, ⟨false, true, none, .low, false⟩) := by decide +kernel
theorem test_expire_B3 : reads (.debounceExpire .start) (opened true) (fun t => (t.running, t.ch.start)) =
    some (false, ⟨false, true, none, .high, false⟩) := by decide +kernel
/-- B5: a release is no edge of polarity Falling; B1: a press is. -/
theorem test_level : (setLevel .start true (opened false)).button.start = ⟨true, false⟩ ∧
    (setLevel .start false st0).button.start = ⟨false, true⟩ := by decide +kernel
/-- B10: under PENDING_REPLAY the second edge is remembered, and pending again after the expiry. -/
theorem test_replay_B10 :
    (suppressedEdge .start { opened false with par := { par0 with pendingReplay := true } }).ch.start.pending = true ∧
    (rearm .start { opened false with
      par := { par0 with pendingReplay := true }
      ch := { st0.ch with start := { windowOpen 31000 with pending := true } } }).button.start.edgePending = true := by
  decide +kernel

/-! ### The reference controller (95_test_vectors 2.8 and 42_hd44780_bus_words R161-R178) -/

/-- `w8` with the controller's fields changed. -/
def hdState (f : Hd → Hd) : State := { w8 with hd := f w8.hd }

theorem test_clear : reads .hdClearDisplay (hdState fun h => { h with ac := 0x45, ddram := [(0, 0x41)], shift := 2 })
    (fun t => (t.hd.ac, ddramRead t.hd 0, t.hd.shift, t.hd.busyUntil)) = some (0, 0x20, 0, 41520) := by
  decide +kernel
theorem test_home : reads (.hdReturnHome true) (hdState fun h => { h with ac := 0x45, ddram := [(0, 0x41)] })
    (fun t => (t.hd.ac, ddramRead t.hd 0, t.hd.busyUntil)) = some (0, 0x41, 41520) := by decide +kernel
theorem test_entry_mode : reads (.hdEntryModeSet false true) w8 (fun t => (t.hd.id, t.hd.s, t.hd.busyUntil)) =
    some (false, true, 40037) := by decide +kernel
theorem test_display_control : reads (.hdDisplayControl false true false) w8 (fun t => (t.hd.d, t.hd.c, t.hd.b)) =
    some (false, true, false) := by decide +kernel
theorem test_shift : reads (.hdCursorDisplayShift true false 0) w8 (fun t => (t.hd.shift, t.hd.ac)) = some (-1, 0) ∧
    reads (.hdCursorDisplayShift false true 0) (hdState fun h => { h with ac := 0x27 })
      (fun t => (t.hd.shift, t.hd.ac)) = some (0, 0x40) := by decide +kernel
theorem test_function_set : reads (.hdFunctionSet false true true 3) w8
    (fun t => (t.hd.mode, t.hd.phase, t.hd.n, t.hd.f)) = some (.four, .high, true, true) := by decide +kernel
theorem test_cgram : reads (.hdSetCgramAddr 0x3F) w8 (fun t => (t.hd.ac, t.hd.target)) = some (0x3F, .cgram) ∧
    reads (.hdWriteData 0x15) (hdState fun h => { h with target := .cgram, ac := 0x3F })
      (fun t => (cgramRead t.hd 0x3F, t.hd.ac)) = some (some 0x15, 0) := by decide +kernel
theorem test_set_ddram : reads (.hdSetDdramAddr 0x40) w8 (fun t => (t.hd.ac, t.hd.fault)) = some (0x40, none) ∧
    reads (.hdSetDdramAddr 0x28) w8 (fun t => (t.hd.ac, t.hd.fault)) = some (0, some .badDdramAddress) := by
  decide +kernel
theorem test_write_data : reads (.hdWriteData 0x42) (hdState fun h => { h with ac := 0x40 })
    (fun t => (ddramRead t.hd 0x40, t.hd.ac)) = some (0x42, 0x41) := by decide +kernel
theorem test_write_data_steps : reads (.hdWriteData 0) (hdState fun h => { h with ac := 0x27 }) (·.hd.ac) = some 0x40 ∧
    reads (.hdWriteData 0) (hdState fun h => { h with ac := 0x4F, n := false }) (·.hd.ac) = some 0 := by
  decide +kernel
theorem test_reserved : reads .hdReserved00 w8 (fun t => (t.hd.fault, t.refused)) =
    some (some .reservedInstruction, false) := by decide +kernel
theorem test_nibble_mode_select : reads .nibbleModeSelect w8 (fun t => (t.hd.mode, t.hd.phase)) =
    some (.four, .high) := by decide +kernel
/-- After the high nibble 0 it completes the byte 0x02, return home. -/
theorem test_nibble_completes : reads .nibbleModeSelect
    { w4 with hd := { w4.hd with phase := .low 0 false, ac := 5 } } (fun t => (t.hd.phase, t.hd.ac, t.hd.fault)) =
      some (.high, 0, none) := by decide +kernel
/-- The nibbles (0,2) then (1,0) in Four mode: RsChangedMidByte; and a fault is sticky. -/
theorem test_rs_changed : (hdReceive {} false .fourBit 0 0 true 0 40000 (hdReceive {} false .fourBit 0 0 false 2 40000 w4.hd)).fault
      = some .rsChangedMidByte ∧
    reads .hdClearDisplay (hdState fun h => { h with fault := some .badDdramAddress, ac := 5 }) (·.hd.ac) = some 5 := by
  decide +kernel

/-- An EightBit controller in Four mode reads 0x38, 0x0C as (8, C), DDRAM address 0x0C, by the words of
42_hd44780_bus_words R162, and in the first two of CONFIGURE as (3, 0), function set 8-bit, by
70_reset_and_hazards R313. -/
theorem test_four_mode_nibble :
    let read := fun q => hdReceive {} q .eightBit 0 0 false 0x0C 1 (hdReceive {} q .eightBit 0 0 false 0x38 1 w4.hd)
    (read false).mode = .four ∧ (read false).ac = 0x0C ∧ (read true).mode = .eight ∧ (read true).ac = 0 := by decide +kernel

/-! ### Witnesses: a concrete state and operands that meet all hypotheses of a statement, for each of its clauses -/

/-- The pins of a block with no level driven yet. -/
theorem pins_of {s : State} (hm : s.pinMode.length = s.par.pinCount) (ho : s.out = List.replicate s.par.pinCount .unknown)
    (hw : ∀ c, s.cfg = some c → wellFormedPins s.par c.pins = true ∧ widthOf c.pins = some c.width)
    (hp : ∀ p, p < s.par.pinCount →
      s.pinMode[p]? = some (if usedBy s.cfg p then .outputPullUp else .unconfigured)) : PinsConsistent s :=
  ⟨hm, by simp [ho], hw, hp, fun p _ => by
    simp only [ho, pinLevel, List.getElem?_replicate]
    split <;> rfl⟩

theorem pins_st0 : PinsConsistent st0 :=
  pins_of rfl rfl (fun c h => nomatch h) (show ∀ p, p < 16 → _ by decide +kernel)
theorem pins_w8 : PinsConsistent w8 :=
  pins_of (by decide +kernel) rfl (fun c h => by cases h; decide +kernel) (show ∀ p, p < 16 → _ by decide +kernel)
theorem pins_w4 : PinsConsistent w4 :=
  pins_of (by decide +kernel) rfl (fun c h => by cases h; decide +kernel) (show ∀ p, p < 16 → _ by decide +kernel)

theorem witness_DecodeOfEncodeIsTheInstruction : (Instr.mask 0xA5 .eightBit pn8).wf = true := by decide
theorem witness_UnmatchedSelectorIsRefusedByName : (∀ r ∈ opRows, r.accepts (0x24 : Byte).toNat = false) ∧
    st0.refused = false ∧ st0.irqMasked = false ∧
    { st0 with queue := [.request (.op [0x24])] }.queue = .request (.op (0x24 :: [])) :: [] ∧
    { st0 with queue := [.handlerRequest (.op [0x24])] }.queue = .handlerRequest (.op (0x24 :: [])) :: [] := by
  decide +kernel
theorem witness_StepRunsTheDecodedRequest : { w8 with queue := [.request (.op [0x03, 0x41])] }.refused = false ∧
    { w8 with queue := [.request (.op [0x03, 0x41])] }.queue = .request (.op [0x03, 0x41]) :: [] ∧
    decode (.op [0x03, 0x41]) = .ok (.writeChar 0x41) ∧ isHandlerOp (.writeChar 0x41) = false := by decide +kernel
/-- A tick, masked. -/
theorem witness_StepRunsTheDecodedRequest_masked :
    { st0 with irqMasked := true, queue := [.request (.op [0x10])] }.queue = .request (.op [0x10]) :: [] ∧
    decode (.op [0x10]) = .ok .tick ∧ isHandlerOp .tick = true ∧ st0.irqMasked = false := by decide +kernel
theorem witness_RefusalIsFinal : { w8 with refused := true }.refused = true ∧
    ∃ t, exec .tick { w8 with refused := true } = .next t := ⟨rfl, _, rfl⟩
theorem witness_HandlersMayNotCallTheDisplay :
    { w8 with queue := [.handlerRequest (.op [0x03, 0x41])] }.refused = false ∧
    { w8 with queue := [.handlerRequest (.op [0x03, 0x41])] }.queue = .handlerRequest (.op [0x03, 0x41]) :: [] ∧
    w8.irqMasked = false ∧
    decode (.op [0x03, 0x41]) = .ok (.writeChar 0x41) ∧ displayOpOf (.writeChar 0x41) = some .writeChar := by
  decide +kernel
/-- Every field, with the Foreground Idle and Busy; and a masked state with a step. -/
theorem witness_ReaderReadsAndMasks : st0.refused = false ∧ st0.fg = .idle ∧ (busy8 2).refused = false ∧
    (busy8 2).fg ≠ .idle ∧ { busy8 2 with queue := [.read .lapDelta] }.queue = .read .lapDelta :: [] ∧
    { st0 with queue := [.maskInterrupts true] }.queue = .maskInterrupts true :: [] ∧
    ∃ t, step { st0 with irqMasked := true, queue := [.level .start false] } = .next t :=
  ⟨rfl, rfl, rfl, by decide, rfl, rfl, _, rfl⟩

/-- A masked Idle block with an empty queue rests for ever. -/
theorem witness_AloneTheBlockIsFair : IsRun (fun _ => { st0 with irqMasked := true }) ∧
    { st0 with irqMasked := true }.queue = [] := ⟨fun _ => rfl, rfl⟩
/-- And the block unmasked, with the Foreground Busy and a tick due, has a run. -/
theorem witness_AloneTheBlockIsFair_busy : IsRun (aloneRun { busy8 2 with nextTick := 40000 }) ∧
    (aloneRun { busy8 2 with nextTick := 40000 } 0).queue = [] ∧
    foregroundBusy { busy8 2 with nextTick := 40000 } = true ∧
    enabledHandlers { busy8 2 with nextTick := 40000 } = [.tick] :=
  ⟨aloneRun_isRun rfl rfl, rfl, rfl, by decide +kernel⟩

/-- Levels: released to pressed, pressed to released, and no change. -/
theorem witness_EnvironmentActions : st0.refused = false ∧ { st0 with queue := [.advance 5] }.queue = .advance 5 :: [] ∧
    { st0 with queue := [.level .lap true] }.queue = .level .lap true :: [] ∧
    ((chanGet st0.button .lap).level = true ∨ true ≠ pressedLevel st0.par) ∧
    (chanGet st0.button .lap).level ≠ false ∧ false = pressedLevel st0.par ∧ (chanGet st0.ch .lap).ie = true ∧
    (chanGet (opened true).button .start).level ≠ false ∧ (chanGet (opened true).ch .start).ie = false ∧
    (opened true).par.pendingReplay = false ∧
    { opened true with par := { par0 with pendingReplay := true } }.par.pendingReplay = true := by decide +kernel

theorem witness_TimeNeverDecreases : ∃ t, step (busy8 5) = .next t := ⟨_, rfl⟩
theorem witness_ConfigurationIsSetOnce : (∃ t, step (busy8 5) = .next t ∧ (busy8 5).cfg = some ⟨pa8, .eightBit⟩) ∧
    ∃ t, step { st0 with queue := [.request (encode (.configure pa8))] } = .next t ∧ st0.cfg = none ∧
      t.cfg = some ⟨pa8, .eightBit⟩ := ⟨⟨_, rfl, rfl⟩, _, rfl, rfl, by decide +kernel⟩

theorem witness_StepKeepsLinesConsistent : LinesConsistent { opened false with
      queue := [.request (.op [0x30])] } ∧
    ∃ t, step { opened false with queue := [.request (.op [0x30])] } = .next t :=
  ⟨fun c => by cases c <;> decide, _, rfl⟩
theorem witness_StepKeepsStopwatchInRange : StopwatchInRange { watch true 359999 359000 (.flat 100) with
      queue := [.request (.op [0x10])] } ∧
    ∃ t, step { watch true 359999 359000 (.flat 100) with queue := [.request (.op [0x10])] } = .next t :=
  ⟨⟨by decide, by decide, rfl, by decide⟩, _, rfl⟩
/-- The sub-field mode, its largest fields. -/
theorem witness_StepKeepsStopwatchInRange_sub : StopwatchInRange { watch true 0 0 (.sub 255 255 255) with
    par := { par0 with lapMode := .subfieldNoBorrow } } :=
  ⟨by decide, by decide, rfl, by decide, by decide, by decide⟩

/-- The sequencer of `busy8` at any of its six micro-steps. -/
theorem sequencer_busy8 (pc : Nat) (h : pc < 6) : SequencerInRange (busy8 pc) := by
  intro op steps pc' hfg
  cases hfg
  exact ⟨lt_of_lt_of_le h (by decide), _, rfl, sendByte_within _ _ _⟩

theorem witness_StepKeepsPinsConsistent : PinsConsistent (busy8 5) ∧ SequencerInRange (busy8 5) ∧
    ∃ t, step (busy8 5) = .next t :=
  ⟨⟨pins_w8.modes, pins_w8.levels, pins_w8.wellFormed, pins_w8.programmed, pins_w8.undriven⟩,
    sequencer_busy8 5 (by decide), _, rfl⟩
theorem witness_StepKeepsSequencerInRange : SequencerInRange (busy8 0) ∧ ∃ t, step (busy8 0) = .next t :=
  ⟨sequencer_busy8 0 (by decide), _, rfl⟩

/-- A write-data word about to be stored beside what both memories list. -/
def storing : State :=
  { w8 with
    hd := { w8.hd with ddram := [(0, 0x41), (127, 0x42)], cgram := [(63, 0x20)] }
    queue := [.request (.bus9 0x142)] }

theorem witness_StepKeepsMemoriesCanonical : MemoriesCanonical storing ∧ ∃ t, step storing = .next t :=
  ⟨⟨by decide, by decide⟩, _, rfl⟩

/-- E has been held since 40000 and may fall at 40500. -/
def holding : State := { busy8 5 with eRise := some 40000, fgReady := 40500 }

theorem witness_StepKeepsEnableHeld : PinsConsistent holding ∧ EnableHeld holding ∧ ∃ t, step holding = .next t :=
  ⟨⟨pins_w8.modes, pins_w8.levels, pins_w8.wellFormed, pins_w8.programmed, pins_w8.undriven⟩,
    ⟨fun x hx => (nomatch hx), fun op steps pc h => by
      cases h
      exact ⟨_, .held, rfl, by decide +kernel, 40000, rfl, by decide⟩⟩, _, rfl⟩

theorem witness_HandlersLeaveTheDisplayAlone : isHandlerOp (.debounceExpire .lap) = true := rfl
theorem witness_OnlyTicksLapsAndResetsMoveTheStopwatch :
    (∃ t, exec .tick (watch true 99 0 (.flat 0)) = .next t ∧ t.elapsed ≠ 99) ∧
    (∃ t, exec .cmdLap (watch true 99 0 (.flat 0)) = .next t ∧ t.lapDelta ≠ .flat 0) ∧
    ∃ t, exec .cmdReset (watch false 99 0 (.flat 5)) = .next t ∧ t.elapsed ≠ 99 ∧ t.lapDelta ≠ .flat 5 :=
  ⟨⟨_, rfl, by decide +kernel⟩, ⟨_, rfl, by decide +kernel⟩, _, rfl, by decide +kernel, by decide +kernel⟩
/-- A step that moves `elapsed`. -/
theorem witness_OnlyTicksLapsAndResetsMoveTheStopwatch_step :
    (nextOf (step { watch true 99 0 (.flat 0) with queue := [.request (.op [0x10])] })).map (·.elapsed) = some 100 := by
  decide +kernel
theorem witness_ChannelsAreIndependent : Channel.lap ≠ .start ∧ (∃ t, exec (.edge .start) pressed = .next t) ∧
    ∃ t, exec (.debounceExpire .start) (opened false) = .next t := ⟨by decide, ⟨_, rfl⟩, _, rfl⟩
theorem witness_StartingStepsWriteNoPin : displayOpOf (.writeChar 0x41) = some .writeChar ∧
    (∃ t, exec (.writeChar 0x41) w8 = .next t) ∧ DisplayOp.writeChar ≠ .configure := ⟨rfl, ⟨_, rfl⟩, by decide⟩
theorem witness_BusWordsTouchOnlyTheController : isBusWord (.hdWriteData 0x42) = true ∧
    ∃ t, exec (.hdWriteData 0x42) w8 = .next t := ⟨rfl, _, rfl⟩

/-- Boundaries: the first and the last data line of each width, a pin outside the data pins. -/
theorem witness_MaskReadsBack : wellFormedPins par0 pn8 = true ∧
    dataPin pn8 0 = some 10 ∧ dataPin pn8 7 = some 13 ∧ (dataMask ⟨pn8, .eightBit⟩).testBit 1 = false ∧
    wellFormedPins par0 pn4 = true ∧ dataPin pn4 (4 + 0) = some 9 ∧
    dataPin pn4 (4 + 3) = some 0 := by decide +kernel
theorem witness_UnmaskInvertsMask : wellFormedPins par0 pn8 = true ∧ widthOf pn8 = some .eightBit ∧
    mask8 0xA5 pn8 = mask8 0xA5 pn8 ∧ wellFormedPins par0 pn4 = true ∧ mask4 0x3A pn4 = mask4 0xFA pn4 := by
  decide +kernel
theorem witness_MaskReturnsThePattern : wellFormedPins st0.par pn8 = true ∧ widthOf pn8 = some .eightBit ∧
    wellFormedPins st0.par pn4 = true ∧ widthOf pn4 = some .fourBit ∧ wellFormedPins st0.par partialPins = false := by
  decide +kernel

theorem witness_ConfigureStartsTheInitialisation : st0.fg = .idle ∧ st0.cfg = none ∧
    (wellFormedPins st0.par pa8 = true ∧ pa8.d0.isSome ∧ pa8.d1.isSome ∧ pa8.d2.isSome ∧ pa8.d3.isSome) ∧
    (wellFormedPins st0.par pa4 = true ∧ pa4.d0 = none ∧ pa4.d1 = none ∧ pa4.d2 = none ∧ pa4.d3 = none) := by
  decide +kernel
/-- Each way of being malformed: D0 alone, an identifier at P, E on the pin of D4, D4 on a button's line. -/
theorem witness_DisplayRefusalsComeFirst : st0.fg = .idle ∧ st0.cfg = none ∧ w8.fg = .idle ∧ w8.cfg ≠ none ∧
    (none ∈ [some 0, none, none, none] ∧ some 0 ∈ [some 0, none, none, none]) ∧ par0.pinCount ≤ 16 ∧
    (4 < 8 ∧ [some 0, some 1, some 2, some 3, some 4, some 5, some 6, some 7, some 4, some 9][4]? = some (some 4) ∧
      [some 0, some 1, some 2, some 3, some 4, some 5, some 6, some 7, some 4, some 9][8]? = some (some 4)) ∧
    ({ par0 with linesShared := true, line := ⟨4, 21, 22, 23⟩ }.linesShared = true ∧
      chanGet { par0 with linesShared := true, line := ⟨4, 21, 22, 23⟩ }.line .start = pa8.d4) ∧
    (displayOpOf (.writeLine [] 3) = some .writeLine ∧ DisplayOp.writeLine ≠ .configure) ∧
    (0 ≠ 1 ∧ 0 ≠ 2) ∧ (3 ≠ 1 ∧ 3 ≠ 2) := by decide +kernel
theorem witness_DisplayWritesStart : w8.fg = .idle ∧ w8.cfg = some ⟨pa8, .eightBit⟩ ∧
    w4.fg = .idle ∧ w4.cfg = some ⟨pn4, .fourBit⟩ := by decide +kernel
theorem witness_BusyForegroundRefusesCalls :
    (busy8 2).fg = .busy .writeChar (sendByte ⟨pa8, .eightBit⟩ true 0x41) 2 ∧
    displayOpOf (.writeLine [] 1) = some .writeLine ∧ ∃ t, exec .tick (busy8 2) = .next t := ⟨rfl, rfl, _, rfl⟩
/-- The last of the 16 characters, past and inside the text. -/
theorem witness_RowWriteSendsSeventeenBytes : 15 < 16 ∧ ¬ 15 < ([0x41] : List Byte).length ∧
    15 < (List.replicate 16 (0x41 : Byte)).length := by decide
theorem witness_ForegroundPerformsItsMicroStep : (busy8 5).refused = false ∧ (busy8 5).queue = [] ∧
    enabledHandlers { busy8 5 with nextTick := 40001 } = [] ∧ enabledHandlers { busy8 5 with nextTick := 40000 } ≠ [] ∧
    { busy8 5 with queue := [.foreground] }.queue = .foreground :: [] ∧ w8.fg = .idle ∧
    (busy8 5).fg = .busy .writeChar (sendByte ⟨pa8, .eightBit⟩ true 0x41) 5 ∧
    (sendByte ⟨pa8, .eightBit⟩ true 0x41)[5]? = some (.pinsWrite 0x100 0) ∧
    (sendByte ⟨pa8, .eightBit⟩ true 0x41)[4]? = some (.wait 500) := by decide +kernel
theorem witness_PinsWriteSetsExactlyItsPins : 15 < w8.out.length := by decide

/-- RS and E high, D7..D0 holding 0x41. -/
def raised8 : State := { w8 with out := drive 0x3FF 0x341 w8.out }

theorem witness_EnableFallMakesTheTransfer : raised8.cfg = some ⟨pa8, .eightBit⟩ ∧
    pinLevel raised8.out pa8.rs = Level.ofBool true ∧
    (∀ i ∈ dataLines8, ∀ x ∈ dataPin pa8 i, pinLevel raised8.out x = Level.ofBool ((0x41 : Byte).getLsbD i)) ∧
    widthOf pa8 = some .eightBit ∧
    (Nat.testBit 0x100 pa8.e = true ∧ Nat.testBit 0 pa8.e = false ∧ pinLevel raised8.out pa8.e = .high) ∧
    ¬ Nat.testBit 0x200 pa8.e = true := by decide +kernel
/-- CONFIGURE with `k` transfers recorded, the controller in Four mode. -/
def inConfigure (k : Nat) (phase : HdPhase) : State :=
  { raised8 with
    fg := .busy .configure [] 0
    transfers := List.replicate k ⟨false, 0, 0, none⟩
    hd := { raised8.hd with mode := .four, phase := phase } }

/-- R313's first transfer and its second, the third of CONFIGURE, which is neither, and a transfer outside CONFIGURE. -/
theorem witness_EnableFallMakesTheTransfer_recovery :
    recovering (inConfigure 1 .high) = true ∧ recovering (inConfigure 2 (.low 3 false)) = true ∧
    recovering (inConfigure 3 .high) = false ∧ recovering (inConfigure 1 (.low 3 false)) = false ∧
    recovering { inConfigure 1 .high with fg := .busy .writeCommand [] 0 } = false := by decide +kernel
/-- The hypothesis on `recovery`, at both its values. -/
theorem witness_EnableFallMakesTheTransfer_both :
    ((∃ steps pc, (inConfigure 0 .high).fg = .busy .configure steps pc) ∧
      (inConfigure 0 .high).transfers.length = 0 ∧ (inConfigure 0 .high).hd.phase = .high) ∧
    ((∃ steps pc, (inConfigure 1 (.low 3 false)).fg = .busy .configure steps pc) ∧
      (inConfigure 1 (.low 3 false)).transfers.length = 1 ∧ (inConfigure 1 (.low 3 false)).hd.phase = .low 3 false) ∧
    ¬ ∃ steps pc, raised8.fg = .busy .configure steps pc :=
  ⟨⟨⟨_, _, rfl⟩, rfl, rfl⟩, ⟨⟨_, _, rfl⟩, rfl, rfl⟩, fun ⟨_, _, h⟩ => nomatch h⟩
/-- The same for four data lines, D7..D4 holding 0xC. -/
def raised4 : State := { w4 with out := drive 0xFFFF 0x10A1 w4.out }

theorem witness_EnableFallMakesTheTransfer_four : raised4.cfg = some ⟨pn4, .fourBit⟩ ∧
    pinLevel raised4.out pn4.rs = Level.ofBool true ∧
    (∀ i ∈ dataLines4, ∀ x ∈ dataPin pn4 i, pinLevel raised4.out x = Level.ofBool ((0xC : Byte).getLsbD (i - 4))) ∧
    (0xC : Byte).toNat < 16 ∧ pinLevel raised4.out pn4.e = .high := by decide +kernel

/-- Before the XFER of a character, RS high, other pins not yet driven. -/
def beforeXfer : State :=
  { w8 with
    out := drive 0x200 0x200 w8.out
    fg := .busy .writeChar (sendRs ⟨pa8, .eightBit⟩ true ++ xfer ⟨pa8, .eightBit⟩ (maskIn .eightBit 0x41 pa8) ++ []) 1 }

theorem witness_XferMakesExactlyOneTransfer : PinsConsistent beforeXfer ∧ beforeXfer.cfg = some ⟨pa8, .eightBit⟩ ∧
    pinLevel beforeXfer.out pa8.rs = Level.ofBool true ∧ beforeXfer.fg = .busy .writeChar
      (sendRs ⟨pa8, .eightBit⟩ true ++ xfer ⟨pa8, .eightBit⟩ (maskIn .eightBit 0x41 pa8) ++ [])
      (sendRs ⟨pa8, .eightBit⟩ true).length := by
  refine ⟨⟨pins_w8.modes, by decide, pins_w8.wellFormed, pins_w8.programmed, fun p hp => ?_⟩, rfl, by decide, rfl⟩
  have small : ∀ p, p < 16 → usedBy beforeXfer.cfg p = false → pinLevel beforeXfer.out p = .unknown := by
    decide +kernel
  by_cases h : p < 16
  · exact small p h hp
  · rw [pinLevel, List.getElem?_eq_none (show beforeXfer.out.length ≤ p from Nat.le_of_not_lt h)]
    rfl

theorem witness_ByteWriteTransfers : PinsConsistent w4 ∧ w4.fg = .idle ∧ w4.cfg = some ⟨pn4, .fourBit⟩ :=
  ⟨pins_w4, rfl, rfl⟩
theorem witness_RowWriteTransfers : PinsConsistent w8 ∧ w8.fg = .idle ∧ w8.cfg = some ⟨pa8, .eightBit⟩ ∧
    rowCommand w8.par 1 = some 0x80 ∧ rowCommand w8.par 2 = some 0xC0 := ⟨pins_w8, rfl, rfl, rfl, rfl⟩
theorem witness_RowWriteRendersTheRow : (PinsConsistent w8 ∧ w8.fg = .idle ∧ w8.cfg = some ⟨pa8, .eightBit⟩ ∧
      ControllerReady .eightBit w8 ∧ w8.par.rowCmd1 = 0x80 ∧ w8.par.rowCmd2 = 0xC0 ∧
      w8.par.tExec.command ≤ Config.tEnableHigh ∧ w8.par.tExec.data ≤ Config.tEnableHigh) ∧
    PinsConsistent w4 ∧ w4.fg = .idle ∧ w4.cfg = some ⟨pn4, .fourBit⟩ ∧ ControllerReady .fourBit w4 ∧
      (1 = 1 ∨ 1 = 2) ∧ (2 = 1 ∨ 2 = 2) :=
  ⟨⟨pins_w8, rfl, rfl, ⟨rfl, by decide, rfl, rfl⟩, rfl, rfl, by decide, by decide⟩,
    pins_w4, rfl, rfl, ⟨rfl, by decide, ⟨rfl, rfl⟩, rfl⟩, by decide, by decide⟩
theorem witness_ConfigureBringsUpTheController : PinsConsistent st0 ∧ LaunchReady st0 ∧ st0.fg = .idle ∧
    st0.cfg = none ∧ (wellFormedPins st0.par pa8 = true ∧ widthOf pa8 = some .eightBit) ∧
    (wellFormedPins st0.par pn4 = true ∧ widthOf pn4 = some .fourBit) ∧ st0.par.tExec = {} ∧ 1020 ≤ st0.par.tSettle ∧
    st0.par.fs4 = 0x20 ∧ st0.par.fs8 = 0x38 ∧ st0.par.dispOn = 0x0C ∧ st0.par.clear = 0x01 ∧ st0.par.home = 0x02 ∧
    st0.par.nibbleSel = 0x2 :=
  ⟨pins_st0, ⟨by decide, rfl, by decide⟩, by decide +kernel⟩

/-- An edge pending on an enabled line; none pending; a disabled line. -/
theorem witness_EdgeArmsTheTimer : (chanGet pressed.button .start).edgePending = true ∧
    (chanGet pressed.ch .start).ie = true ∧ (chanGet st0.button .start).edgePending = false ∧
    (chanGet (opened false).ch .start).ie = false := ⟨rfl, rfl, rfl, rfl⟩
/-- The sample pressed and released. -/
theorem witness_ExpirySamplesAndRearms : (chanGet st0.ch .start).deadline = none ∧
    (chanGet (opened false).ch .start).deadline = some 31000 ∧
    (chanGet (opened false).button .start).level = pressedLevel (opened false).par ∧
    (chanGet (opened true).button .start).level ≠ pressedLevel (opened true).par := ⟨rfl, rfl, rfl, by decide⟩
/-- The second press in the last microsecond of the window. -/
theorem witness_BounceDispatchesAtMostOnce : st0.refused = false ∧ st0.irqMasked = false ∧
    st0.par.pendingReplay = false ∧ (chanGet st0.ch .start).ie = true ∧
    (chanGet st0.button .start).level = (!pressedLevel st0.par) ∧ 29999 < Config.tDebounce :=
  ⟨rfl, rfl, rfl, rfl, rfl, by decide⟩
/-- The expiry of a held button; then steps of the quiet line, an EDGE request among them, and a level that is no raw
edge. -/
theorem witness_NoHoldOrRepeat : (∃ t, exec (.debounceExpire .start) (opened false) = .next t) ∧
    (chanGet (opened false).button .start).edgePending = false ∧ (opened false).par.pendingReplay = false ∧
    (∃ t, step { st0 with queue := [.request (.op [0x20])] } = .next t) ∧
    stepInstr { st0 with queue := [.request (.op [0x20])] } = some (.edge .start) ∧
    (∃ t, step { st0 with queue := [.level .start true] } = .next t) ∧ true ≠ pressedLevel st0.par ∧
    (chanGet st0.button .start).edgePending = false ∧ (chanGet st0.ch .start).deadline = none :=
  ⟨⟨_, rfl⟩, rfl, rfl, ⟨_, rfl⟩, by decide +kernel, ⟨_, rfl⟩, by decide, rfl, rfl⟩

theorem witness_TickAdvancesWhileRunning : (watch true 0 0 (.flat 0)).tickLate = false ∧
    { watch true 0 0 (.flat 0) with tickLate := true }.tickLate = true := ⟨rfl, rfl⟩
theorem witness_StartRunsAndStopHalts : (watch false 500 0 (.flat 0)).running = false ∧
    (watch true 500 0 (.flat 0)).running = true := ⟨rfl, rfl⟩
theorem witness_LapComputesTheDelta : (watch true 500 359000 (.flat 0)).running = true ∧
    (watch true 500 359000 (.flat 0)).par.lapMode = .flattened ∧
    { watch true 500 359000 (.sub 0 0 0) with par := { par0 with lapMode := .subfieldNoBorrow } }.par.lapMode =
      .subfieldNoBorrow := ⟨rfl, rfl, rfl⟩
theorem witness_ResetRestartsTheStopwatch : (watch false 13530 6150 (.flat 1880)).running = false := rfl
theorem witness_SubfieldsCarryLikeTheCounter : 0 < 360000 ∧ 359999 < 360000 := by decide

theorem accepts_w8 : HdAccepts w8 := ⟨rfl, by decide⟩
theorem accepts_w4 : HdAccepts w4 := ⟨rfl, by decide⟩

theorem witness_ClearHomeAndReservedWords : HdAccepts w8 := accepts_w8
theorem witness_ModeWords : HdAccepts w4 := accepts_w4
/-- In DDRAM at address 0, at each other wrap point of R173 with two lines and with one, and in CGRAM. -/
theorem witness_CursorAndShiftWords : HdAccepts w8 ∧ (w8.hd.target = .ddram ∧ w8.hd.n = true ∧ w8.hd.ac = 0) ∧
    (∀ a n, HdAccepts (hdState fun h => { h with ac := a, n := n }) ∧
      (hdState fun h => { h with ac := a, n := n }).hd.target = .ddram) ∧
    ((hdState fun h => { h with ac := 0x4F, n := false }).hd.ac = 0x4F ∧
      (hdState fun h => { h with ac := 0x27, n := true }).hd.ac = 0x27 ∧
      (hdState fun h => { h with ac := 0x67, n := true }).hd.ac = 0x67 ∧
      (hdState fun h => { h with ac := 0x40, n := true }).hd.ac = 0x40) ∧
    HdAccepts (hdState fun h => { h with target := .cgram, ac := 0x3F }) ∧
    (hdState fun h => { h with target := .cgram, ac := 0x3F }).hd.target = .cgram :=
  ⟨accepts_w8, ⟨rfl, rfl, rfl⟩, fun _ _ => ⟨⟨rfl, accepts_w8.2⟩, rfl⟩, ⟨rfl, rfl, rfl, rfl⟩, ⟨rfl, by decide⟩, rfl⟩
/-- Both sides of every edge of the backed range, with two lines and with one. -/
theorem witness_AddressWords : HdAccepts w8 ∧ HdAccepts (hdState fun h => { h with n := false }) ∧
    (w8.hd.n = true ∧ (0x27 : BitVec 7).toNat ≤ 0x27 ∧
      (0x40 ≤ (0x40 : BitVec 7).toNat ∧ (0x40 : BitVec 7).toNat ≤ 0x67) ∧ (0x67 : BitVec 7).toNat ≤ 0x67) ∧
    (¬ ((0x28 : BitVec 7).toNat ≤ 0x27 ∨ (0x40 ≤ (0x28 : BitVec 7).toNat ∧ (0x28 : BitVec 7).toNat ≤ 0x67)) ∧
      ¬ ((0x3F : BitVec 7).toNat ≤ 0x27 ∨ (0x40 ≤ (0x3F : BitVec 7).toNat ∧ (0x3F : BitVec 7).toNat ≤ 0x67)) ∧
      ¬ ((0x68 : BitVec 7).toNat ≤ 0x27 ∨ (0x40 ≤ (0x68 : BitVec 7).toNat ∧ (0x68 : BitVec 7).toNat ≤ 0x67))) ∧
    (0x4F : BitVec 7).toNat ≤ 0x4F ∧ ¬ (0x50 : BitVec 7).toNat ≤ 0x4F :=
  ⟨accepts_w8, ⟨rfl, by decide⟩, by decide⟩
theorem witness_WriteDataStoresOneByte : HdAccepts w8 ∧ w8.hd.target = .ddram ∧ (1 : BitVec 7) ≠ w8.hd.ac ∧
    HdAccepts (hdState fun h => { h with target := .cgram, ac := 0x3F }) ∧
    (hdState fun h => { h with target := .cgram, ac := 0x3F }).hd.target = .cgram :=
  ⟨accepts_w8, rfl, by decide, ⟨rfl, by decide⟩, rfl⟩
/-- The last microsecond of the busy time. -/
theorem witness_BusyOrFaultedControllerTakesNoWord : isBusWord .hdClearDisplay = true ∧
    (hdState fun h => { h with fault := some .busyViolation }).hd.fault ≠ none ∧
    (hdState fun h => { h with busyUntil := 40001 }).hd.fault = none ∧
    (hdState fun h => { h with busyUntil := 40001 }).now < (hdState fun h => { h with busyUntil := 40001 }).hd.busyUntil
    := by decide
/-- In the boot mode; in Four mode between bytes, and after a high nibble of either RS level. -/
theorem witness_NibbleModeSelectLeavesBootMode : HdAccepts w8 ∧ w8.hd.mode = .eight ∧ HdAccepts w4 ∧
    w4.hd.mode = .four ∧ w4.hd.phase = .high ∧
    HdAccepts { w4 with hd := { w4.hd with phase := .low 15 true } } ∧
    HdAccepts { w4 with hd := { w4.hd with phase := .low 0 false } } :=
  ⟨accepts_w8, rfl, accepts_w4, rfl, rfl, ⟨rfl, by decide⟩, ⟨rfl, by decide⟩⟩
theorem witness_TransfersExecuteTheDecodedWord : HdAccepts w8 ∧ w8.hd.mode = .eight ∧ HdAccepts w4 ∧
    w4.hd.mode = .four ∧ w4.hd.phase = .high := ⟨accepts_w8, rfl, accepts_w4, rfl, rfl⟩
/-- The second pair exactly when the busy time of the first byte ends; in the last clause the fourth transfer exactly
when the busy time of the clear ends. -/
theorem witness_DesynchronisedControllerMisreads : w4.hd.fault = none ∧ w4.hd.mode = .four ∧ w4.hd.phase = .high ∧
    w4.hd.busyUntil ≤ 0 ∧ 0 ≤ 0 ∧ 0 + ({} : ExecTimes).command ≤ 37 ∧ 37 ≤ 37 ∧
    (37 ≤ 1557 ∧ 37 + ({} : ExecTimes).clear ≤ 1557) := by decide +kernel

end Sys2Proof.Tests
end

section
/-! PROOFS. The statements of the scope (00_scope): the pin write, the decoded request, time and parameters. -/

namespace Sys2Proof.Machine

/-! ### The pin write (00_scope R9, R12) -/

theorem pinLevel_pinsWrite (m v : Nat) (s : State) {p : Nat} (hp : p < s.out.length) :
    pinLevel (microStep (.pinsWrite m v) s).out p =
      if m.testBit p then (if v.testBit p then .high else .low) else pinLevel s.out p := by
  have hout : (microStep (.pinsWrite m v) s).out = drive m v s.out := congrArg (drive m v) (latch_out m v s)
  rw [hout, pinLevel_drive m v s.out p hp]
  cases v.testBit p <;> rfl

theorem length_out_pinsWrite (m v : Nat) (s : State) :
    (microStep (.pinsWrite m v) s).out.length = s.out.length :=
  (length_drive m v _).trans (congrArg List.length (latch_out m v s))

/-- The latch that precedes the write takes no time, so the event has the time of the step. -/
theorem trace_pinsWrite (m v : Nat) (s : State) :
    (microStep (.pinsWrite m v) s).trace = ⟨s.now, m, v⟩ :: s.trace := by
  obtain ⟨_, _, _, _, _, _, hnow, _⟩ := microStep_frame (.pinsWrite m v) s
  obtain ⟨htrace, _⟩ := latch_frame m v s
  have hlatch : (latch m v s).now = s.now := hnow
  show (⟨(latch m v s).now, m, v⟩ :: (latch m v s).trace : List PinEvent) = _
  rw [hlatch, htrace]

/-- Settles O36, from the levels after `drive` and the frame of a micro-step. -/
theorem pinsWriteSetsExactlyItsPins : Obligations.PinsWriteSetsExactlyItsPins := by
  intro m v s
  obtain ⟨_, hwatch, hlines, hcfg, hmode, hfg, hnow, _, _, _, _, hreader⟩ := microStep_frame (.pinsWrite m v) s
  obtain ⟨_, hready⟩ := latch_frame m v s
  exact ⟨fun _ hp => pinLevel_pinsWrite m v s hp, length_out_pinsWrite m v s, trace_pinsWrite m v s, hwatch, hlines,
    ⟨hcfg, hmode, hfg, hready⟩, hreader, hnow⟩

/-! ### The decoded request (30_encoding R83, 20_memory R74) -/

theorem step_request {s : State} {f : Frame} {rest : List Event} {i : Instr} (hr : s.refused = false)
    (hq : s.queue = .request f :: rest) (hd : decode f = .ok i) :
    step s = runInstr i { s with queue := rest } := by
  rw [step_event hr hq, runEvent, runFrame, hd]

theorem runInstr_of_scheduled {i : Instr} {s : State} (h : s.irqMasked = false ∨ isHandlerOp i = false) :
    runInstr i s = exec i s := by
  rcases h with h | h <;> simp [runInstr, h]

theorem runInstr_of_masked {i : Instr} {s : State} (hm : s.irqMasked = true) (hi : isHandlerOp i = true) :
    runInstr i s = .next s := by
  simp [runInstr, hm, hi]

/-- Settles O5: the step is `runInstr` of the decoded instruction, which the interrupt mask decides. -/
theorem stepRunsTheDecodedRequest : Obligations.StepRunsTheDecodedRequest := by
  intro s f rest i hr hq hd
  rw [step_request hr hq hd]
  exact ⟨fun h => runInstr_of_scheduled h, fun hm hi => runInstr_of_masked hm hi⟩

/-! ### Time and parameters (00_scope R7, R10) -/

/-- `t` may come after `s`: its time is not earlier and its parameters are the same. -/
structure NotBefore (s t : State) : Prop where
  now : s.now ≤ t.now
  par : t.par = s.par

theorem NotBefore.trans {s t u : State} (a : NotBefore s t) (b : NotBefore t u) : NotBefore s u :=
  ⟨a.now.trans b.now, b.par.trans a.par⟩

theorem HandlerFrame.notBefore {s t : State} (h : HandlerFrame s t) : NotBefore s t := ⟨h.now, h.par⟩

theorem foregroundStep_notBefore (s : State) : NotBefore s (foregroundStep s) := by
  obtain ⟨hpar, _, _, _, _, hnow, _⟩ := foregroundStep_frame s
  exact ⟨hnow, hpar⟩

theorem exec_notBefore {i : Instr} {s t : State} (h : exec i s = .next t) : NotBefore s t := by
  rcases exec_cases h with
    ⟨_, hframe⟩ | ⟨_, _, hdisplay⟩ | ⟨_, _, _, _, rfl | ⟨_, rfl⟩⟩ | ⟨_, _, _, rfl⟩
  · exact hframe.notBefore
  · rcases hdisplay with ⟨_, _, hn, rfl⟩ | ⟨_, _, _, _, _, rfl, _⟩ | ⟨_, _, _, _, _, _, _, rfl⟩
    · exact ⟨hn, rfl⟩
    · exact ⟨le_max_left _ _, rfl⟩
    · exact ⟨le_max_left _ _, rfl⟩
  · exact ⟨le_refl _, rfl⟩
  · exact ⟨le_refl _, rfl⟩
  · exact ⟨le_refl _, rfl⟩

theorem step_notBefore {s t : State} (h : step s = .next t) : NotBefore s t :=
  step_keeps (P := NotBefore s)
    (hbook := fun _ _ _ _ _ hu => ⟨hu.now, hu.par⟩)
    (hexec := fun _ _ _ hu hx => hu.trans (exec_notBefore hx))
    (hraise := fun _ _ _ hu => ⟨hu.now, hu.par⟩)
    (hfg := fun u hu => hu.trans (foregroundStep_notBefore u))
    (htime := fun _ _ hu hn => ⟨hu.now.trans hn, hu.par⟩)
    (hlevel := fun ch l u hu => hu.trans (handlerFrame_setLevel ch l u).notBefore)
    ⟨le_refl _, rfl⟩ h

/-- Settles O11: no kind of step goes back in time or writes a parameter. -/
theorem timeNeverDecreases : Obligations.TimeNeverDecreases := by
  intro s t h
  obtain ⟨hnow, hpar⟩ := step_notBefore h
  exact ⟨hnow, hpar⟩

end Sys2Proof.Machine
end

section
/-! PROOFS. The statements of the state (10_state): the pin space, the sequencer, the configuration, the stopwatch, the
refusals of the display operations, the reset state and the Foreground's micro-step. -/

namespace Sys2Proof.Machine

/-! ### The sequencer (10_state R40, 41_display_driver R139) -/

theorem SequencerInRange.of_same {s t : State} (h : SequencerInRange s) (hfg : t.fg = s.fg) (hcfg : t.cfg = s.cfg) :
    SequencerInRange t := by
  rw [SequencerInRange, hfg, hcfg]
  exact h

theorem sequencerInRange_of_idle {s : State} (hfg : s.fg = .idle) : SequencerInRange s := by
  intro op steps pc hbusy
  simp [hfg] at hbusy

theorem sequencerInRange_of_busy {s : State} {op : DisplayOp} {steps : List MicroStep} {pc : Nat} {c : DisplayCfg}
    (hfg : s.fg = .busy op steps pc) (hpc : pc < steps.length) (hcfg : s.cfg = some c)
    (hsteps : ∀ m ∈ steps, stepWithin (usedMask c) m) : SequencerInRange s := by
  intro op' steps' pc' hbusy
  rw [hfg] at hbusy
  cases hbusy
  exact ⟨hpc, c, hcfg, hsteps⟩

theorem length_sendByte_pos (c : DisplayCfg) (rs : Bool) (b : Byte) : 0 < (sendByte c rs b).length := by
  simp [sendByte, sendRs]

theorem length_lineSteps_pos (p : Params) (c : DisplayCfg) (rowCmd : Byte) (text : List Byte) :
    0 < (lineSteps p c rowCmd text).length := by
  rw [lineSteps, List.length_append]
  exact Nat.add_pos_left (length_sendByte_pos c false rowCmd) _

theorem length_initSteps_pos (p : Params) (c : DisplayCfg) : 0 < (initSteps p c).length := by
  cases hw : c.width <;> simp [initSteps, hw, initCommand]

/-- Every starting step leaves the sequencer at the head of a list that is not empty and stays inside the used pins. -/
theorem exec_keepsSequencer {i : Instr} {s t : State} (hs : SequencerInRange s) (h : exec i s = .next t) :
    SequencerInRange t := by
  rcases exec_cases h with
    ⟨_, hframe⟩ | ⟨op, _, hdisplay⟩ | ⟨_, _, _, _, rfl | ⟨_, rfl⟩⟩ | ⟨_, _, _, rfl⟩
  · exact hs.of_same hframe.driver.fg hframe.driver.cfg
  · rcases hdisplay with ⟨_, _, _, rfl⟩ | ⟨c, steps, _, hcfg, _, rfl, hsteps⟩ | ⟨pins, w, _, _, _, _, _, rfl⟩
    · exact hs.of_same rfl rfl
    · obtain ⟨hpos, hwithin⟩ : 0 < steps.length ∧ ∀ m ∈ steps, stepWithin (usedMask c) m := by
        rcases hsteps with ⟨rs, b, rfl⟩ | ⟨rc, tx, rfl⟩ | ⟨rc, rc', tx, tx', rfl⟩
        · exact ⟨length_sendByte_pos c rs b, sendByte_within c rs b⟩
        · exact ⟨length_lineSteps_pos s.par c rc tx, line_within s.par c rc tx⟩
        · refine ⟨?_, app_within (line_within s.par c rc tx) (line_within s.par c rc' tx')⟩
          rw [List.length_append]
          exact Nat.add_pos_left (length_lineSteps_pos s.par c rc tx) _
      exact sequencerInRange_of_busy rfl hpos hcfg hwithin
    · exact sequencerInRange_of_busy rfl (length_initSteps_pos s.par _) rfl (init_within s.par _)
  · exact hs.of_same rfl rfl
  · exact hs.of_same rfl rfl
  · exact hs.of_same rfl rfl

theorem foregroundStep_keepsSequencer {s : State} (hs : SequencerInRange s) : SequencerInRange (foregroundStep s) := by
  rcases foregroundStep_cases s with ⟨_, h⟩ | ⟨_, _, _, _, _, h⟩ | ⟨op, steps, pc, m, hfg, _, h⟩ <;> rw [h]
  · exact hs
  · exact sequencerInRange_of_idle rfl
  · obtain ⟨_, c, hcfg, hsteps⟩ := hs op steps pc hfg
    obtain ⟨_, _, _, hkept, _⟩ := microStep_frame m (foregroundTime s)
    by_cases hnext : pc + 1 < steps.length
    · exact sequencerInRange_of_busy (if_pos hnext) hnext (hkept.trans hcfg) hsteps
    · exact sequencerInRange_of_idle (if_neg hnext)

/-- Settles O19: an instruction starts a list inside the used pins, and a Foreground step moves inside its list. -/
theorem stepKeepsSequencerInRange : Obligations.StepKeepsSequencerInRange := by
  intro s t hs h
  exact step_keeps
    (hbook := fun _ _ _ _ _ hu => hu.of_same rfl rfl)
    (hexec := fun _ _ _ hu hx => exec_keepsSequencer hu hx)
    (hraise := fun _ _ _ hu => hu.of_same rfl rfl)
    (hfg := fun _ hu => foregroundStep_keepsSequencer hu)
    (htime := fun _ _ hu _ => hu.of_same rfl rfl)
    (hlevel := fun ch l u hu =>
      hu.of_same (handlerFrame_setLevel ch l u).driver.fg (handlerFrame_setLevel ch l u).driver.cfg)
    hs h

/-! ### The pin space (10_state R24, R26, R27) -/

theorem PinsConsistent.of_same {s t : State} (h : PinsConsistent s) (hpar : t.par = s.par) (hcfg : t.cfg = s.cfg)
    (hmode : t.pinMode = s.pinMode) (hout : t.out = s.out) : PinsConsistent t where
  modes := by rw [hmode, hpar]; exact h.modes
  levels := by rw [hout, hpar]; exact h.levels
  wellFormed := by rw [hcfg, hpar]; exact h.wellFormed
  programmed := by rw [hmode, hpar, hcfg]; exact h.programmed
  undriven := by rw [hout, hcfg]; exact h.undriven

theorem out_pinsWrite (m v : Nat) (s : State) : (microStep (.pinsWrite m v) s).out = drive m v s.out :=
  congrArg (drive m v) (latch_out m v s)

/-- A pin write inside the used pins drives no other pin. -/
theorem microStep_keepsPins {s : State} {c : DisplayCfg} {m : MicroStep} (hp : PinsConsistent s) (hcfg : s.cfg = some c)
    (hm : stepWithin (usedMask c) m) : PinsConsistent (microStep m s) := by
  obtain ⟨hpar, _, _, hkept, hmode, _⟩ := microStep_frame m s
  cases m with
  | wait d => exact hp.of_same hpar hkept hmode rfl
  | pinsWrite m v =>
    refine ⟨?_, ?_, ?_, ?_, ?_⟩
    · rw [hmode, hpar]; exact hp.modes
    · rw [out_pinsWrite, length_drive, hpar]; exact hp.levels
    · rw [hkept, hpar]; exact hp.wellFormed
    · rw [hmode, hpar, hkept]; exact hp.programmed
    · intro p hunused
      rw [hkept] at hunused
      have hoff : m.testBit p = false := by
        by_contra hon
        have hused : (usedMask c).testBit p = true := hm p (by simpa using hon)
        simp [usedBy, hcfg, hused] at hunused
      rw [out_pinsWrite, pinLevel_drive_off m v s.out p hoff]
      exact hp.undriven p hunused

theorem foregroundStep_keepsPins {s : State} (hp : PinsConsistent s) (hs : SequencerInRange s) :
    PinsConsistent (foregroundStep s) := by
  rcases foregroundStep_cases s with ⟨_, h⟩ | ⟨_, _, _, _, _, h⟩ | ⟨op, steps, pc, m, hfg, hm, h⟩ <;> rw [h]
  · exact hp
  · exact hp.of_same rfl rfl rfl rfl
  · obtain ⟨_, c, hcfg, hsteps⟩ := hs op steps pc hfg
    have hstep : PinsConsistent (microStep m (foregroundTime s)) :=
      microStep_keepsPins (hp.of_same rfl rfl rfl rfl) hcfg (hsteps m (List.mem_of_getElem? hm))
    exact hstep.of_same rfl rfl rfl rfl

/-- A configuration that is set where there was none programs its used pins. -/
theorem pinsConsistent_of_configured {s t : State} {c : DisplayCfg} (hp : PinsConsistent s) (hnone : s.cfg = none)
    (hwf : wellFormedPins s.par c.pins = true) (hwidth : widthOf c.pins = some c.width) (hpar : t.par = s.par)
    (hcfg : t.cfg = some c) (hmode : t.pinMode = programPins (usedMask c) s.pinMode) (hout : t.out = s.out) :
    PinsConsistent t := by
  have hunused : ∀ p, usedBy s.cfg p = false := fun p => by rw [hnone]; rfl
  refine ⟨?_, ?_, ?_, ?_, ?_⟩
  · rw [hmode, length_programPins, hpar]; exact hp.modes
  · rw [hout, hpar]; exact hp.levels
  · intro c' hc'
    obtain rfl : c = c' := Option.some.inj (hcfg.symm.trans hc')
    rw [hpar]
    exact ⟨hwf, hwidth⟩
  · intro p hlt
    rw [hpar] at hlt
    have hbefore : s.pinMode[p]? = some .unconfigured := by simpa [hunused p] using hp.programmed p hlt
    rw [hmode, getElem?_programPins, hbefore, hcfg]
    rfl
  · intro p _
    rw [hout]
    exact hp.undriven p (hunused p)

theorem exec_keepsPins {i : Instr} {s t : State} (hp : PinsConsistent s) (h : exec i s = .next t) :
    PinsConsistent t := by
  rcases exec_cases h with
    ⟨_, hframe⟩ | ⟨_, _, hdisplay⟩ | ⟨_, _, _, _, rfl | ⟨_, rfl⟩⟩ | ⟨_, _, _, rfl⟩
  · exact hp.of_same hframe.par hframe.driver.cfg hframe.driver.pinMode hframe.pins.out
  · rcases hdisplay with ⟨_, _, _, rfl⟩ | ⟨_, _, _, _, _, rfl, _⟩ | ⟨_, _, _, _, hnone, hwf, hwidth, rfl⟩
    · exact hp.of_same rfl rfl rfl rfl
    · exact hp.of_same rfl rfl rfl rfl
    · exact pinsConsistent_of_configured hp hnone hwf hwidth rfl rfl rfl rfl
  · exact hp.of_same rfl rfl rfl rfl
  · exact hp.of_same rfl rfl rfl rfl
  · exact hp.of_same rfl rfl rfl rfl

/-- Settles O18: only CONFIGURE touches the modes and only the Foreground the levels, whose list stays inside the used
pins as long as the sequencer is in range. -/
theorem stepKeepsPinsConsistent : Obligations.StepKeepsPinsConsistent := by
  intro s t hp hs h
  have hboth : PinsConsistent t ∧ SequencerInRange t := step_keeps (P := fun u => PinsConsistent u ∧ SequencerInRange u)
    (hbook := fun _ _ _ _ _ ⟨hu, hq⟩ => ⟨hu.of_same rfl rfl rfl rfl, hq.of_same rfl rfl⟩)
    (hexec := fun _ _ _ ⟨hu, hq⟩ hx => ⟨exec_keepsPins hu hx, exec_keepsSequencer hq hx⟩)
    (hraise := fun _ _ _ ⟨hu, hq⟩ => ⟨hu.of_same rfl rfl rfl rfl, hq.of_same rfl rfl⟩)
    (hfg := fun _ ⟨hu, hq⟩ => ⟨foregroundStep_keepsPins hu hq, foregroundStep_keepsSequencer hq⟩)
    (htime := fun _ _ ⟨hu, hq⟩ _ => ⟨hu.of_same rfl rfl rfl rfl, hq.of_same rfl rfl⟩)
    (hlevel := fun ch l u ⟨hu, hq⟩ => by
      have hframe := handlerFrame_setLevel ch l u
      exact ⟨hu.of_same hframe.par hframe.driver.cfg hframe.driver.pinMode hframe.pins.out,
        hq.of_same hframe.driver.fg hframe.driver.cfg⟩)
    ⟨hp, hs⟩ h
  exact hboth.1

/-! ### The configuration (10_state R21) -/

/-- Only CONFIGURE writes the configuration, where there is none. -/
theorem exec_cfg {i : Instr} {s t : State} (h : exec i s = .next t) :
    t.cfg = s.cfg ∨
    (s.cfg = none ∧ ∃ c, i = .configure c.pins ∧ wellFormedPins s.par c.pins = true ∧
      widthOf c.pins = some c.width ∧ t.cfg = some c) := by
  rcases exec_cases h with
    ⟨_, hframe⟩ | ⟨_, _, hdisplay⟩ | ⟨_, _, _, _, rfl | ⟨_, rfl⟩⟩ | ⟨_, _, _, rfl⟩
  · exact .inl hframe.driver.cfg
  · rcases hdisplay with ⟨_, _, _, rfl⟩ | ⟨_, _, _, _, _, rfl, _⟩ | ⟨pins, w, hi, _, hnone, hwf, hwidth, rfl⟩
    · exact .inl rfl
    · exact .inl rfl
    · exact .inr ⟨hnone, ⟨pins, w⟩, hi, hwf, hwidth, rfl⟩
  · exact .inl rfl
  · exact .inl rfl
  · exact .inl rfl

/-- A step leaves the configuration, or it is a CONFIGURE request and there was none. -/
theorem step_cfg {s t : State} (h : step s = .next t) :
    t.cfg = s.cfg ∨
    (s.cfg = none ∧ ∃ c f rest, s.queue = .request f :: rest ∧ decode f = .ok (.configure c.pins) ∧
      wellFormedPins s.par c.pins = true ∧ widthOf c.pins = some c.width ∧ t.cfg = some c) := by
  obtain ⟨_, ⟨_, hd, _, hx⟩ | ⟨_, _, rfl⟩ | ⟨e, rest, hq, hrun⟩⟩ := step_cases h
  · rcases exec_cfg hx with hsame | ⟨_, c, hi, _⟩
    · exact .inl hsame
    · have hhandler := isHandlerOp_instr hd
      simp [hi, isHandlerOp] at hhandler
  · obtain ⟨_, _, _, hkept, _⟩ := foregroundStep_frame s
    exact .inl hkept
  · rcases runEvent_cases hrun with ⟨f, i, he, hdec, hx, hinside, _⟩ | ⟨_, _, rfl⟩ | ⟨q, rfl⟩ | ⟨_, _, _, rfl⟩ | rfl |
      ⟨ch, l, _, rfl⟩ | ⟨_, _, rfl⟩
    · rcases exec_cfg hx with hsame | ⟨hnone, c, rfl, hwf, hwidth, hset⟩
      · exact .inl hsame
      · rcases he with rfl | rfl
        · exact .inr ⟨hnone, c, f, rest, hq, hdec, hwf, hwidth, hset⟩
        · simp [displayOpOf] at hinside
    · exact .inl rfl
    · obtain ⟨_, _, _, hkept, _⟩ := foregroundStep_frame { s with queue := q }
      exact .inl hkept
    · exact .inl rfl
    · exact .inl rfl
    · exact .inl (handlerFrame_setLevel ch l _).driver.cfg
    · exact .inl rfl

/-- Settles O12: a step that changes the configuration finds none and is a CONFIGURE request. -/
theorem configurationIsSetOnce : Obligations.ConfigurationIsSetOnce := by
  intro s t h
  rcases step_cfg h with hsame | ⟨hnone, c, f, rest, hq, hdec, hwf, hwidth, hset⟩
  · refine ⟨fun c hc => hsame.trans hc, fun c hc ht => ?_⟩
    rw [hsame, hc] at ht
    cases ht
  · refine ⟨fun c' hc' => ?_, fun c' _ ht => ?_⟩
    · rw [hnone] at hc'
      cases hc'
    · obtain rfl : c = c' := Option.some.inj (hset.symm.trans ht)
      exact ⟨hwf, hwidth, f, rest, hq, hdec⟩

/-! ### The stopwatch (10_state R34, R36, R37) -/

theorem StopwatchInRange.of_same {s t : State} (h : StopwatchInRange s) (hpar : t.par = s.par)
    (hwatch : SameStopwatch s t) : StopwatchInRange t where
  elapsed := by rw [hwatch.elapsed]; exact h.elapsed
  lapRef := by rw [hwatch.lapRef]; exact h.lapRef
  lapDelta := by rw [hpar, hwatch.lapDelta]; exact h.lapDelta

theorem zero_lt_elapsedMod : (0 : BitVec 32).toNat < Config.elapsedMod := by decide

theorem toNat_incElapsed_lt (e : BitVec 32) : (incElapsed e).toNat < Config.elapsedMod := by
  rw [incElapsed, BitVec.toNat_ofNat]
  exact lt_of_le_of_lt (Nat.mod_le _ _) (Nat.mod_lt _ (by decide))

theorem subField_lt (w a b : Nat) : subField w a b < 2 ^ w := by
  have hpos : (0 : Int) < (2 ^ w : Nat) := by exact_mod_cast Nat.two_pow_pos w
  have hlt := Int.emod_lt_of_pos ((a : Int) - (b : Int)) hpos
  rw [subField]
  omega

theorem lapDeltaInRange_zero (p : Params) : lapDeltaInRange p (.zero p.lapMode) := by
  cases hmode : p.lapMode <;> simp [LapDelta.zero, lapDeltaInRange, hmode, Config.elapsedMod]

theorem lapDeltaInRange_lapDeltaOf (p : Params) (e r : BitVec 32) : lapDeltaInRange p (lapDeltaOf p e r) := by
  cases hmode : p.lapMode with
  | flattened =>
    simp only [lapDeltaOf, hmode, lapDeltaInRange, Config.elapsedMod, BitVec.toNat_ofNat, true_and]
    omega
  | subfieldNoBorrow =>
    simp only [lapDeltaOf, hmode, lapDeltaInRange, true_and]
    exact ⟨subField_lt _ _ _, subField_lt _ _ _, subField_lt _ _ _⟩

theorem dispatch_keepsStopwatch {s : State} (c : Channel) (hs : StopwatchInRange s) :
    StopwatchInRange (dispatch c s) := by
  cases c <;> simp only [dispatch, startCommand, stopCommand, lapCommand, resetCommand] <;> split
  case start.isTrue | stop.isFalse | lap.isFalse | reset.isTrue => exact hs
  case start.isFalse | stop.isTrue => exact ⟨hs.elapsed, hs.lapRef, hs.lapDelta⟩
  case lap.isTrue => exact ⟨hs.elapsed, hs.elapsed, lapDeltaInRange_lapDeltaOf _ _ _⟩
  case reset.isFalse => exact ⟨zero_lt_elapsedMod, zero_lt_elapsedMod, lapDeltaInRange_zero _⟩

theorem tickBody_keepsStopwatch {s : State} (hs : StopwatchInRange s) : StopwatchInRange (tickBody s) := by
  rw [tickBody_eq]
  refine ⟨?_, hs.lapRef, hs.lapDelta⟩
  dsimp only
  split
  · exact toNat_incElapsed_lt _
  · exact hs.elapsed

theorem tickIsr_keepsStopwatch {s : State} (hs : StopwatchInRange s) : StopwatchInRange (tickIsr s) := by
  refine tickBody_keepsStopwatch (s := tickTime s) ?_
  rw [tickTime]
  split
  · exact hs
  · exact ⟨hs.elapsed, hs.lapRef, hs.lapDelta⟩

theorem edgeIsr_stopwatch (c : Channel) (s : State) : SameStopwatch s (edgeIsr c s) := by
  rcases edgeIsr_cases c s with ⟨_, h⟩ | ⟨_, h⟩ <;> rw [h] <;> exact ⟨rfl, rfl, rfl, rfl, rfl, rfl⟩

theorem expireIsr_keepsStopwatch {s : State} (c : Channel) (hs : StopwatchInRange s) :
    StopwatchInRange (expireIsr c s) := by
  rw [expireIsr]
  split
  · exact hs
  · rename_i d _
    have hwait : StopwatchInRange (waitUntil d s) := ⟨hs.elapsed, hs.lapRef, hs.lapDelta⟩
    have hdispatch : StopwatchInRange (dispatchIfPressed c (waitUntil d s)) := by
      rw [dispatchIfPressed]
      split
      · exact dispatch_keepsStopwatch c hwait
      · exact hwait
    show StopwatchInRange (expireBody c (waitUntil d s))
    rw [expireBody_eq]
    exact ⟨hdispatch.elapsed, hdispatch.lapRef, hdispatch.lapDelta⟩

theorem exec_keepsStopwatch {i : Instr} {s t : State} (hs : StopwatchInRange s) (h : exec i s = .next t) :
    StopwatchInRange t := by
  rcases exec_cases h with
    ⟨hi, -⟩ | ⟨_, _, hdisplay⟩ | ⟨_, _, _, _, rfl | ⟨_, rfl⟩⟩ | ⟨_, _, _, rfl⟩
  · cases i <;> simp only [isHandlerOp, Bool.false_eq_true] at hi <;> obtain rfl := Host.Outcome.next.inj h
    case tick => exact tickIsr_keepsStopwatch hs
    case edge c => exact hs.of_same (handlerFrame_edge c s).par (edgeIsr_stopwatch c s)
    case debounceExpire c => exact expireIsr_keepsStopwatch c hs
    case cmdStart => exact dispatch_keepsStopwatch .start hs
    case cmdStop => exact dispatch_keepsStopwatch .stop hs
    case cmdLap => exact dispatch_keepsStopwatch .lap hs
    case cmdReset => exact dispatch_keepsStopwatch .reset hs
  · rcases hdisplay with ⟨_, _, _, rfl⟩ | ⟨_, _, _, _, _, rfl, _⟩ | ⟨_, _, _, _, _, _, _, rfl⟩ <;>
      exact ⟨hs.elapsed, hs.lapRef, hs.lapDelta⟩
  · exact ⟨hs.elapsed, hs.lapRef, hs.lapDelta⟩
  · exact ⟨hs.elapsed, hs.lapRef, hs.lapDelta⟩
  · exact ⟨hs.elapsed, hs.lapRef, hs.lapDelta⟩

theorem setLevel_stopwatch (c : Channel) (l : Bool) (s : State) : SameStopwatch s (setLevel c l s) := by
  simp only [setLevel, rawEdge, suppressedEdge]
  repeat' split
  all_goals exact ⟨rfl, rfl, rfl, rfl, rfl, rfl⟩

/-- Settles O17: ticks count modulo `ELAPSED_MOD`, a lap stores a reduced difference and the old count, Reset zeroes. -/
theorem stepKeepsStopwatchInRange : Obligations.StepKeepsStopwatchInRange := by
  intro s t hs h
  refine step_keeps (hbook := ?_) (hexec := fun _ _ _ hu hx => exec_keepsStopwatch hu hx) (hraise := ?_) (hfg := ?_)
    (htime := ?_) (hlevel := ?_) hs h
  · exact fun _ _ _ _ _ hu => ⟨hu.elapsed, hu.lapRef, hu.lapDelta⟩
  · exact fun _ _ _ hu => ⟨hu.elapsed, hu.lapRef, hu.lapDelta⟩
  · intro u hu
    obtain ⟨hpar, hwatch, _⟩ := foregroundStep_frame u
    exact hu.of_same hpar hwatch
  · exact fun _ _ hu _ => ⟨hu.elapsed, hu.lapRef, hu.lapDelta⟩
  · exact fun ch l u hu => hu.of_same (handlerFrame_setLevel ch l u).par (setLevel_stopwatch ch l u)

/-! ### Malformed assignments (10_state R24) -/

/-- The pins of D0-D3, where they have one. -/
def lowPins (a : PinAssignment) : List (Option Nat) := [a.d0, a.d1, a.d2, a.d3]

/-- The pins of all ten roles. -/
def rolePins (a : PinAssignment) : List (Option Nat) :=
  lowPins a ++ [some a.d4, some a.d5, some a.d6, some a.d7, some a.e, some a.rs]

/-- Two places of a list hold the same pin. -/
def pinTwice (l : List (Option Nat)) : Prop :=
  ∃ j k x : Nat, j < k ∧ l[j]? = some (some x) ∧ l[k]? = some (some x)

/-- What 10_state R24 excludes. -/
def malformedPins (p : Params) (a : PinAssignment) : Prop :=
  (none ∈ lowPins a ∧ ∃ x, some x ∈ lowPins a) ∨ (∃ x, some x ∈ rolePins a ∧ p.pinCount ≤ x) ∨ pinTwice (rolePins a) ∨
    (p.linesShared = true ∧ ∃ c, some (chanGet p.line c) ∈ rolePins a)

/-- An assignment has no width exactly when D0-D3 are neither all present nor all absent. -/
theorem widthOf_isSome_iff (a : PinAssignment) :
    (widthOf a).isSome = true ↔ ¬ (none ∈ lowPins a ∧ ∃ x, some x ∈ lowPins a) := by
  obtain ⟨d0, d1, d2, d3, _⟩ := a
  cases d0 <;> cases d1 <;> cases d2 <;> cases d3 <;> simp [widthOf, lowPins]

theorem presentPins_eq (a : PinAssignment) : presentPins a = (rolePins a).filterMap id := by
  have hdata : dataLines8.filterMap (dataPin a) = (dataLines8.map (dataPin a)).filterMap id := by
    rw [List.filterMap_map]
    rfl
  have hcontrol : [a.e, a.rs] = [some a.e, some a.rs].filterMap id := rfl
  rw [presentPins, hdata, hcontrol, ← List.filterMap_append]
  rfl

theorem mem_presentPins {a : PinAssignment} {x : Nat} : x ∈ presentPins a ↔ some x ∈ rolePins a := by
  simp [presentPins_eq]

theorem filterMap_nodup_iff (l : List (Option Nat)) : (l.filterMap id).Nodup ↔ ¬ pinTwice l := by
  rw [List.Nodup, List.pairwise_filterMap, List.pairwise_iff_getElem]
  constructor
  · rintro h ⟨j, k, x, hjk, hj, hk⟩
    obtain ⟨hjlt, hj⟩ := List.getElem?_eq_some_iff.1 hj
    obtain ⟨hklt, hk⟩ := List.getElem?_eq_some_iff.1 hk
    exact h j k hjlt hklt hjk x hj x hk rfl
  · rintro h j k hjlt hklt hjk x hj y hk rfl
    exact h ⟨j, k, x, hjk, List.getElem?_eq_some_iff.2 ⟨hjlt, hj⟩, List.getElem?_eq_some_iff.2 ⟨hklt, hk⟩⟩

theorem mem_buttonPins {p : Params} {x : Nat} :
    x ∈ buttonPins p ↔ p.linesShared = true ∧ ∃ c, chanGet p.line c = x := by
  cases hshared : p.linesShared with
  | false => simp [buttonPins, hshared]
  | true =>
    simp only [buttonPins, hshared, if_true, List.mem_cons, List.not_mem_nil, or_false, true_and]
    constructor
    · rintro (rfl | rfl | rfl | rfl)
      exacts [⟨.start, rfl⟩, ⟨.stop, rfl⟩, ⟨.lap, rfl⟩, ⟨.reset, rfl⟩]
    · rintro ⟨c, rfl⟩
      cases c <;> simp [chanGet]

/-- The check of an assignment fails exactly on what R24 excludes. -/
theorem wellFormedPins_iff (p : Params) (a : PinAssignment) : wellFormedPins p a = true ↔ ¬ malformedPins p a := by
  have hnodup : (presentPins a).Nodup ↔ ¬ pinTwice (rolePins a) := by rw [presentPins_eq, filterMap_nodup_iff]
  have hbuttons : (∀ x ∈ presentPins a, x ∉ buttonPins p) ↔
      ¬ (p.linesShared = true ∧ ∃ c, some (chanGet p.line c) ∈ rolePins a) := by
    simp only [mem_presentPins, mem_buttonPins]
    constructor
    · rintro h ⟨hshared, c, hc⟩
      exact h _ hc ⟨hshared, c, rfl⟩
    · rintro h x hx ⟨hshared, c, rfl⟩
      exact h ⟨hshared, c, hx⟩
  have hbound : (∀ x ∈ presentPins a, x < p.pinCount) ↔ ¬ ∃ x, some x ∈ rolePins a ∧ p.pinCount ≤ x := by
    simp only [mem_presentPins, not_exists, not_and, Nat.not_le]
  simp only [wellFormedPins, Bool.and_eq_true, decide_eq_true_eq, List.all_eq_true, Bool.not_eq_true',
    List.contains_eq_mem, decide_eq_false_iff_not, widthOf_isSome_iff, hnodup, hbuttons, hbound, malformedPins, not_or]
  tauto

/-! ### Refused calls (41_display_driver R120, R126, R130, 60_exceptions R270, R271) -/

/-- A display write has a list and a check of its own. -/
theorem exec_displayWrite {i : Instr} {op : DisplayOp} (hi : displayOpOf i = some op) (hop : op ≠ .configure)
    (s : State) : ∃ own steps, exec i s = .next (startWrite op own steps s) := by
  cases i <;> cases hi
  case configure => exact absurd rfl hop
  case writeLine text row =>
    cases hrow : rowCommand s.par row with
    | none => exact ⟨some .badRow, fun _ _ => [], by simp [exec, execWriteLine, hrow]⟩
    | some rowCmd => exact ⟨none, fun p c => lineSteps p c rowCmd text, by simp [exec, execWriteLine, hrow]⟩
  all_goals exact ⟨none, _, rfl⟩

/-- Every display operation is a starting step. -/
theorem exec_display {i : Instr} {op : DisplayOp} (hi : displayOpOf i = some op) (s : State) :
    ∃ check go, exec i s = .next (startOp op check go s) := by
  by_cases hop : op = .configure
  · cases i <;> cases hi <;> cases hop
    exact ⟨_, _, rfl⟩
  · obtain ⟨own, steps, h⟩ := exec_displayWrite hi hop s
    exact ⟨_, _, h⟩

theorem startOp_of_busy {s : State} {op op' : DisplayOp} {steps : List MicroStep} {pc : Nat}
    (hfg : s.fg = .busy op' steps pc) (check : Option RefuseReason) (go : State → State) :
    startOp op check go s = raise .reentrant (.display op) s := by
  simp [startOp, hfg]

theorem startOp_of_refused {s : State} {r : RefuseReason} {check : Option RefuseReason} (hfg : s.fg = .idle)
    (hcheck : check = some r) (op : DisplayOp) (go : State → State) :
    startOp op check go s = raise r (.display op) (foregroundTime s) := by
  simp [startOp, hfg, hcheck]

theorem rowCommand_eq_none {p : Params} {row : Nat} (h1 : row ≠ 1) (h2 : row ≠ 2) : rowCommand p row = none := by
  simp [rowCommand, h1, h2]

/-- Settles O31: the check of R24 is `wellFormedPins_iff`; each refusal is the first check that fails. -/
theorem displayRefusalsComeFirst : Obligations.DisplayRefusalsComeFirst := by
  refine ⟨wellFormedPins_iff, fun s hfg => ⟨fun pins hcfg => ?_, fun pins hcfg hbad => ?_, fun i op hcfg hi hop => ?_,
    fun text row hcfg h1 h2 => ?_⟩⟩
  · have hcheck : configureCheck pins s = some .configureTwice := by
      simp [configureCheck, Option.isSome_iff_ne_none.2 hcfg]
    exact congrArg Host.Outcome.next (startOp_of_refused hfg hcheck _ _)
  · have hwf : wellFormedPins s.par pins = false := by
      rw [← Bool.not_eq_true, wellFormedPins_iff]
      exact not_not_intro hbad
    have hcheck : configureCheck pins s = some .badPinAssignment := by simp [configureCheck, hcfg, hwf]
    exact congrArg Host.Outcome.next (startOp_of_refused hfg hcheck _ _)
  · obtain ⟨own, steps, h⟩ := exec_displayWrite hi hop s
    have hcheck : writeCheck own s = some .notConfigured := by simp [writeCheck, hcfg]
    exact h.trans (congrArg Host.Outcome.next (startOp_of_refused hfg hcheck _ _))
  · have hcheck : writeCheck (some .badRow) s = some .badRow := by
      obtain ⟨c, hc⟩ := Option.ne_none_iff_exists'.1 hcfg
      simp [writeCheck, hc]
    have hexec : exec (.writeLine text row) s = .next (startWrite .writeLine (some .badRow) (fun _ _ => []) s) := by
      simp [exec, execWriteLine, rowCommand_eq_none h1 h2]
    exact hexec.trans (congrArg Host.Outcome.next (startOp_of_refused hfg hcheck _ _))

/-- Settles O33: a starting step checks Reentrant first, and what would move the sequencer needs an Idle one. -/
theorem busyForegroundRefusesCalls : Obligations.BusyForegroundRefusesCalls := by
  intro s op' steps pc hfg
  refine ⟨fun i op hi => ?_, fun i t h => ?_⟩
  · obtain ⟨check, go, h⟩ := exec_display hi s
    rw [h, startOp_of_busy hfg]
    rfl
  · rcases exec_cases h with
      ⟨_, hframe⟩ | ⟨_, _, hdisplay⟩ | ⟨_, _, _, _, rfl | ⟨_, rfl⟩⟩ | ⟨_, _, _, rfl⟩
    · exact hframe.driver.fg
    · rcases hdisplay with ⟨_, _, _, rfl⟩ | ⟨_, _, hidle, _⟩ | ⟨_, _, _, hidle, _⟩
      · rfl
      · simp [hfg] at hidle
      · simp [hfg] at hidle
    · rfl
    · rfl
    · rfl

/-! ### The reset state (10_state R46, 70_reset_and_hazards R300) -/

/-- The tick phase is a draw in `(0, T_TICK_US]` (10_state R42). -/
theorem resetPhase_range : 0 < resetPhase ∧ resetPhase ≤ Config.tTick := by
  have hlt : Config.freePhase % Config.tTick < Config.tTick := Nat.mod_lt _ (by decide)
  rw [resetPhase]
  omega

theorem chanGet_everyChannel {α : Type} (a : α) (c : Channel) : chanGet (everyChannel a) c = a := by
  cases c <;> rfl

/-- Every channel at reset is in the state of 10_state R31. -/
theorem reset_ch (c : Channel) : chanGet State.reset.ch c = .reset := chanGet_everyChannel _ c

/-- Settles O13: the fields of `State.resetWith`, and the range of the phase. -/
theorem resetState : Obligations.ResetState := by
  refine ⟨rfl, rfl, rfl, rfl, fun c => ?_, rfl, rfl, rfl, rfl, resetPhase_range, rfl, rfl, rfl⟩
  rw [reset_ch]
  exact ⟨rfl, rfl, rfl, rfl, rfl⟩

theorem distinct_distinctLines (l : PerChannel Nat) : (Config.distinctLines l).distinct = true := by
  rw [Config.distinctLines]
  split
  · assumption
  · decide

/-- Four distinct values differ pair by pair (00_scope R7). -/
theorem distinct_iff (l : PerChannel Nat) : l.distinct = true ↔
    l.start ≠ l.stop ∧ l.start ≠ l.lap ∧ l.start ≠ l.reset ∧ l.stop ≠ l.lap ∧ l.stop ≠ l.reset ∧ l.lap ≠ l.reset := by
  simp [PerChannel.distinct, and_assoc]

theorem linesConsistent_reset : LinesConsistent State.reset := by
  intro c
  rw [reset_ch]
  exact ⟨rfl, rfl⟩

theorem stopwatchInRange_reset : StopwatchInRange State.reset :=
  ⟨zero_lt_elapsedMod, zero_lt_elapsedMod, lapDeltaInRange_zero Config.params⟩

theorem pinsConsistent_reset : PinsConsistent State.reset where
  modes := List.length_replicate
  levels := List.length_replicate
  wellFormed := fun _ h => nomatch h
  programmed := fun p hlt => by
    show (List.replicate Config.params.pinCount PinMode.unconfigured)[p]? = some .unconfigured
    exact List.getElem?_replicate_of_lt hlt
  undriven := fun p _ => by
    show pinLevel (List.replicate Config.params.pinCount .unknown) p = .unknown
    rw [pinLevel, List.getElem?_replicate]
    split <;> rfl

theorem enableHeld_reset : EnableHeld State.reset where
  past := fun _ h => nomatch h
  running := fun _ _ _ h => nomatch h

/-- Settles O15: each invariant at its reset values, and the LINE values distinct by `distinctLines`. -/
theorem resetMeetsTheInvariants : Obligations.ResetMeetsTheInvariants :=
  ⟨linesConsistent_reset, stopwatchInRange_reset, pinsConsistent_reset, sequencerInRange_of_idle rfl, ⟨rfl, rfl⟩,
    enableHeld_reset, (distinct_iff _).1 (distinct_distinctLines _)⟩

/-! ### The micro-step at `pc` (10_state R40, 60_exceptions R277, R278) -/

/-- A block left alone with some handler enabled serves an enabled one. -/
theorem step_serves_enabled {s : State} (hr : s.refused = false) (hq : s.queue = []) (hen : enabledHandlers s ≠ []) :
    ∃ h ∈ enabledHandlers s, step s = exec h.instr (drawn s) := by
  obtain ⟨h, hn⟩ : ∃ h, nextHandler s = some h :=
    Option.ne_none_iff_exists'.1 fun hnone => hen (nextHandler_none.1 hnone)
  exact ⟨h, nextHandler_mem hn, step_serves hr hq hn⟩

theorem foregroundStep_of_idle {s : State} (hfg : s.fg = .idle) : foregroundStep s = s := by
  simp only [foregroundStep, hfg]

theorem foregroundStep_of_busy {s : State} {op : DisplayOp} {steps : List MicroStep} {pc : Nat} {m : MicroStep}
    (hfg : s.fg = .busy op steps pc) (hm : steps[pc]? = some m) :
    foregroundStep s = { microStep m (foregroundTime s) with fg := nextFg op steps pc } := by
  simp only [foregroundStep, hfg, hm]

/-- Settles O35: the Foreground's turn, at the head of the queue or alone, is `foregroundStep`. -/
theorem foregroundPerformsItsMicroStep : Obligations.ForegroundPerformsItsMicroStep := by
  intro s rest hr
  exact ⟨fun hq hen => step_foreground hr hq (nextHandler_none.2 hen), step_serves_enabled hr, step_event hr,
    foregroundStep_of_idle, fun _ _ _ _ => foregroundStep_of_busy, fun _ => rfl⟩

end Sys2Proof.Machine
end

section
/-! PROOFS. The statements of the memory (20_memory): the Foreground reader and its interrupt mask. -/

namespace Sys2Proof.Machine

/-! ### The reader's events wait for the display call in progress (20_memory R73) -/

theorem foregroundBusy_eq_false_iff {s : State} : foregroundBusy s = false ↔ s.fg = .idle := by
  cases hfg : s.fg <;> simp [foregroundBusy, hfg]

/-- An event that waits for an Idle sequencer acts at the Foreground's time; on a Busy one the step is the call's
micro-step and the event stays first in the queue. -/
theorem step_whenIdle {s : State} {e : Event} {rest : List Event} {act : State → State} (hr : s.refused = false)
    (hq : s.queue = e :: rest) (he : ∀ u, runEvent e u = .next (whenIdle e act u)) :
    (s.fg = .idle → step s = .next (act (foregroundTime { s with queue := rest }))) ∧
    (s.fg ≠ .idle → step s = .next (foregroundStep s)) := by
  rw [step_event hr hq, he]
  rcases whenIdle_cases e act { s with queue := rest } with ⟨hbusy, hw⟩ | ⟨hidle, hw⟩ <;> rw [hw]
  · refine ⟨fun hfg => ?_, fun _ => by rw [requeue hq]⟩
    have hnot : foregroundBusy { s with queue := rest } = false := foregroundBusy_eq_false_iff.2 hfg
    simp [hnot] at hbusy
  · exact ⟨fun _ => rfl, fun hfg => absurd (foregroundBusy_eq_false_iff.1 hidle) hfg⟩

/-! ### What a step under the mask leaves (20_memory R74) -/

/-- From `s` to `t` no handler and no command ran: the stopwatch is the same, and so are the channels but for an edge
remembered under PENDING_REPLAY. -/
structure NoHandlerRan (s t : State) : Prop where
  watch : SameStopwatch s t
  channel : ∀ c, { chanGet t.ch c with pending := false } = { chanGet s.ch c with pending := false }
  pending : s.par.pendingReplay = false → ∀ c, (chanGet t.ch c).pending = (chanGet s.ch c).pending

theorem NoHandlerRan.of_same {s t : State} (hwatch : SameStopwatch s t) (hch : t.ch = s.ch) : NoHandlerRan s t :=
  ⟨hwatch, fun c => by rw [hch], fun _ c => by rw [hch]⟩

theorem NoHandlerRan.of_queue {s t : State} {q : List Event} (h : NoHandlerRan { s with queue := q } t) :
    NoHandlerRan s t := by
  obtain ⟨⟨helapsed, hrunning, hlapRef, hlapDelta, hnext, hlate⟩, hchannel, hpending⟩ := h
  exact ⟨⟨helapsed, hrunning, hlapRef, hlapDelta, hnext, hlate⟩, hchannel, hpending⟩

theorem exec_noHandlerRan {i : Instr} {s t : State} (hi : isHandlerOp i = false) (h : exec i s = .next t) :
    NoHandlerRan s t := by
  rcases exec_cases h with
    ⟨hhandler, _⟩ | ⟨_, _, hdisplay⟩ | ⟨_, _, _, _, rfl | ⟨_, rfl⟩⟩ | ⟨_, _, _, rfl⟩
  · simp [hi] at hhandler
  · rcases hdisplay with ⟨_, _, _, rfl⟩ | ⟨_, _, _, _, _, rfl, _⟩ | ⟨_, _, _, _, _, _, _, rfl⟩ <;>
      exact .of_same ⟨rfl, rfl, rfl, rfl, rfl, rfl⟩ rfl
  · exact .of_same ⟨rfl, rfl, rfl, rfl, rfl, rfl⟩ rfl
  · exact .of_same ⟨rfl, rfl, rfl, rfl, rfl, rfl⟩ rfl
  · exact .of_same ⟨rfl, rfl, rfl, rfl, rfl, rfl⟩ rfl

theorem foregroundStep_noHandlerRan (s : State) : NoHandlerRan s (foregroundStep s) := by
  obtain ⟨_, hwatch, hlines, _⟩ := foregroundStep_frame s
  exact .of_same hwatch hlines.ch

/-- A level writes a channel only to remember an edge (43_debounce R201). -/
theorem setLevel_ch (c : Channel) (l : Bool) (s : State) : (setLevel c l s).ch = s.ch ∨
    (s.par.pendingReplay = true ∧
      (setLevel c l s).ch = chanSet s.ch c { chanGet s.ch c with pending := true }) := by
  simp only [setLevel, rawEdge, suppressedEdge]
  split
  · split
    · exact .inl rfl
    · split
      case isTrue hreplay => exact .inr ⟨hreplay, rfl⟩
      case isFalse => exact .inl rfl
  · exact .inl rfl

theorem setLevel_noHandlerRan (c : Channel) (l : Bool) (s : State) : NoHandlerRan s (setLevel c l s) := by
  rcases setLevel_ch c l s with hch | ⟨hreplay, hch⟩
  · exact .of_same (setLevel_stopwatch c l s) hch
  · refine ⟨setLevel_stopwatch c l s, fun c' => ?_, fun hoff => by simp [hreplay] at hoff⟩
    rw [hch]
    by_cases hc : c' = c
    · rw [hc, chanGet_chanSet_same]
    · rw [chanGet_chanSet_other s.ch hc]

theorem nextHandler_of_masked {s : State} (hm : s.irqMasked = true) : nextHandler s = none :=
  nextHandler_none.2 (by simp [enabledHandlers, hm])

theorem runEvent_noHandlerRan {e : Event} {s t : State} (hm : s.irqMasked = true) (h : runEvent e s = .next t) :
    NoHandlerRan s t := by
  rcases runEvent_cases h with ⟨_, i, _, _, hx, _, hhandler⟩ | ⟨_, _, rfl⟩ | ⟨q, rfl⟩ | ⟨_, _, _, rfl⟩ | rfl |
    ⟨ch, l, _, rfl⟩ | ⟨_, _, rfl⟩
  · cases hi : isHandlerOp i with
    | true => simp [hhandler hi] at hm
    | false => exact exec_noHandlerRan hi hx
  · exact .of_same ⟨rfl, rfl, rfl, rfl, rfl, rfl⟩ rfl
  · exact (foregroundStep_noHandlerRan { s with queue := q }).of_queue
  · exact .of_same ⟨rfl, rfl, rfl, rfl, rfl, rfl⟩ rfl
  · exact .of_same ⟨rfl, rfl, rfl, rfl, rfl, rfl⟩ rfl
  · exact setLevel_noHandlerRan ch l s
  · exact .of_same ⟨rfl, rfl, rfl, rfl, rfl, rfl⟩ rfl

theorem step_noHandlerRan {s t : State} (hm : s.irqMasked = true) (h : step s = .next t) : NoHandlerRan s t := by
  obtain ⟨_, ⟨_, _, hserved, _⟩ | ⟨_, _, rfl⟩ | ⟨e, rest, _, hrun⟩⟩ := step_cases h
  · simp [nextHandler_of_masked hm] at hserved
  · exact foregroundStep_noHandlerRan s
  · exact (runEvent_noHandlerRan (s := { s with queue := rest }) hm hrun).of_queue

/-- Settles O8: reads and masks are events that wait for an Idle sequencer (`step_whenIdle`), and each kind of step under
the mask leaves the stopwatch and the channels (`step_noHandlerRan`). -/
theorem readerReadsAndMasks : Obligations.ReaderReadsAndMasks := by
  intro s rest hr
  refine ⟨fun f hq => ?_, fun on hq => step_whenIdle hr hq fun _ => rfl, fun hm t h => ?_⟩
  · obtain ⟨hidle, hbusy⟩ := step_whenIdle hr hq fun _ => rfl
    refine ⟨fun hfg => (hidle hfg).trans ?_, hbusy⟩
    cases f <;> rfl
  · obtain ⟨hwatch, hchannel, hpending⟩ := step_noHandlerRan hm h
    exact ⟨hwatch, fun c => ⟨hchannel c, fun hoff => hpending hoff c⟩⟩

end Sys2Proof.Machine
end

section
/-! PROOFS. The statements of the encoding (30_encoding): decoding what was encoded, unmatched selectors, the rows of the
bus9 words, words of the table, and transfers as the words they carry. -/

namespace Sys2Proof.Machine

/-! ### Decoding an encoded instruction (30_encoding R82-R87) -/

/-- A reader that takes back what was written before any further bytes leaves none over when no more follow. -/
theorem takes_all {α : Type} {take : List Byte → Except DecodeError (α × List Byte)} {bytes : List Byte} {a : α}
    (h : ∀ bs, take (bytes ++ bs) = .ok (a, bs)) : take bytes = .ok (a, []) := by
  simpa using h []

theorem decode_of_decodeOp {bytes : List Byte} {i : Instr} (h : decodeOp bytes = .ok (i, [])) :
    decode (.op bytes) = .ok i := by
  rw [decode, h]

theorem decodeOp_configure (pins : PinAssignment) :
    decodeOp (0x01 :: encodePins pins) = .ok (.configure pins, []) := by
  simp [decodeOp, takes_all (takePins_encodePins pins), bind, Except.bind, pure, Except.pure]

theorem decodeOp_writeLine (text : List Byte) (row : Nat) :
    decodeOp (0x04 :: (encodeNat row ++ encodeText text)) = .ok (.writeLine text row, []) := by
  simp [decodeOp, takeNat_encodeNat, takes_all (takeText_encodeText text), bind, Except.bind, pure, Except.pure]

theorem decodeOp_writeTwoLines (text1 text2 : List Byte) :
    decodeOp (0x05 :: (encodeText text1 ++ encodeText text2)) = .ok (.writeTwoLines text1 text2, []) := by
  simp [decodeOp, takeText_encodeText, takes_all (takeText_encodeText text2), bind, Except.bind, pure, Except.pure]

theorem decodeOp_mask (value : Byte) (width : BusWidth) (pins : PinAssignment) :
    decodeOp (0x06 :: value :: (encodeWidth width ++ encodePins pins)) = .ok (.mask value width pins, []) := by
  simp [decodeOp, takeByte, takeWidth_encodeWidth, takes_all (takePins_encodePins pins), bind, Except.bind, pure,
    Except.pure]

/-- A word with the bits of a bus9 row decodes to the row's instruction: the bits above the row's highest one are 0, and
each field is read from the place it was written to (R86, R87). -/
theorem decodeBus9_of_encode {i : Instr} {w : BitVec 9} (h : encode i = .bus9 w) : decodeBus9 w = i := by
  cases i <;> simp only [encode, Frame.bus9.injEq, reduceCtorEq] at h
  all_goals
    subst h
    simp only [decodeBus9, BitVec.getLsbD_append, BitVec.extractLsb'_append_eq_right, Nat.reduceLT, Nat.reduceSub,
      BitVec.reduceGetLsb, BitVec.getLsbD_ofBool, ↓reduceIte, Bool.false_eq_true, decide_true, Bool.true_and]

theorem decode_of_encode_bus9 {i : Instr} {w : BitVec 9} (h : encode i = .bus9 w) : decode (encode i) = .ok i := by
  rw [h, decode, decodeBus9_of_encode h]

theorem decode_encode (i : Instr) : decode (encode i) = .ok i := by
  cases i with
  | configure pins => exact decode_of_decodeOp (decodeOp_configure pins)
  | writeLine text row => exact decode_of_decodeOp (decodeOp_writeLine text row)
  | writeTwoLines text1 text2 => exact decode_of_decodeOp (decodeOp_writeTwoLines text1 text2)
  | mask value width pins => exact decode_of_decodeOp (decodeOp_mask value width pins)
  | edge ch => cases ch <;> rfl
  | debounceExpire ch => cases ch <;> rfl
  | writeCommand _ | writeChar _ | tick | cmdStart | cmdStop | cmdLap | cmdReset | nibbleModeSelect => rfl
  | _ => exact decode_of_encode_bus9 rfl

/-- Settles O1: each operand reader takes back what its writer made, and each bus9 word its fields (`decode_encode`);
well-formedness excludes no instruction. -/
theorem decodeOfEncodeIsTheInstruction : Obligations.DecodeOfEncodeIsTheInstruction :=
  fun i _ => decode_encode i

/-! ### Unmatched selectors (30_encoding R85, 60_exceptions R270) -/

/-- A row accepts a selector when the masked byte is the row's match. -/
theorem accepts_byte (name : String) {m b : Nat} (hm : m < 2 ^ 8) (hb : b < 2 ^ 8) (sel : Byte) :
    (Row.mk name m b).accepts sel.toNat = decide (sel &&& BitVec.ofNat 8 m = BitVec.ofNat 8 b) := by
  rw [Row.accepts, Bool.eq_iff_iff, beq_iff_eq, decide_eq_true_iff, ← BitVec.toNat_inj, BitVec.toNat_and,
    BitVec.toNat_ofNat, BitVec.toNat_ofNat, Nat.mod_eq_of_lt hm, Nat.mod_eq_of_lt hb]

theorem decodeOp_of_unmatched {sel : Byte} (h : ∀ r ∈ opRows, r.accepts sel.toNat = false) (bs : List Byte) :
    decodeOp (sel :: bs) = .error (.unknownSelector sel) := by
  have hff : sel &&& 0xFF#8 = sel := BitVec.and_allOnes
  simp only [opRows, List.forall_mem_cons, accepts_byte, Nat.reducePow, Nat.reduceLT, hff, decide_eq_false_iff_not] at h
  simp [decodeOp, h]

theorem decode_of_unmatched {sel : Byte} (h : ∀ r ∈ opRows, r.accepts sel.toNat = false) (bs : List Byte) :
    decode (.op (sel :: bs)) = .error (.unknownSelector sel) := by
  rw [decode, decodeOp_of_unmatched h]

theorem runFrame_of_unknownSelector {f : Frame} {sel : Byte} (h : decode f = .error (.unknownSelector sel))
    (s : State) : runFrame f s = .next (raise .unknownSelector (.selector sel) s) := by
  rw [runFrame, h]
  rfl

theorem runHandlerFrame_of_unknownSelector {f : Frame} {sel : Byte} (h : decode f = .error (.unknownSelector sel))
    {s : State} (hm : s.irqMasked = false) :
    runHandlerFrame f s = .next (raise .unknownSelector (.selector sel) s) := by
  rw [runHandlerFrame, hm, h]
  rfl

/-- Settles O3: no branch of `decodeOp` takes the selector, and both forms of request reject the frame. -/
theorem unmatchedSelectorIsRefusedByName : Obligations.UnmatchedSelectorIsRefusedByName := by
  intro sel bs rest s hsel hr
  have hdecode := decode_of_unmatched hsel bs
  refine ⟨hdecode, ?_⟩
  rintro (hq | ⟨hq, hm⟩) <;> rw [step_event hr hq, runEvent]
  · exact runFrame_of_unknownSelector hdecode _
  · exact runHandlerFrame_of_unknownSelector hdecode hm

/-! ### Transfers as the words they carry (30_encoding R81, R86, 42_hd44780_bus_words R162) -/

theorem hdAccept_of_accepting {h : Hd} {t : Nat} (hf : h.fault = none) (ht : h.busyUntil ≤ t) (act : Hd → Hd) :
    hdAccept t act h = act h := by
  simp [hdAccept, hdBusy, hf, ht]

/-- A field of a field is a field of the word. -/
theorem extractLsb'_extractLsb'_of_add_le {w : Nat} (x : BitVec w) {i n j m : Nat} (h : j + m ≤ n) :
    (x.extractLsb' i n).extractLsb' j m = x.extractLsb' (i + j) m := by
  ext k hk
  simp [Nat.add_assoc]
  omega

/-- Executing `i` in `s` leaves the controller as `h`. -/
def LeavesHd (i : Instr) (s : State) (h : Hd) : Prop := ∃ t, exec i s = .next t ∧ t.hd = h

theorem LeavesHd.ite {c : Prop} [Decidable c] {i j : Instr} {s : State} {a b : Hd} (hi : LeavesHd i s a)
    (hj : LeavesHd j s b) : LeavesHd (if c then i else j) s (if c then a else b) := by
  split
  · exact hi
  · exact hj

/-- The decoded word does to an accepting controller what `execute` does with its RS bit and its two nibbles: both test
the bits of the word from the highest down (R86) and read the same fields (R87). -/
theorem leavesHd_decodeBus9 {s : State} (h : HdAccepts s) (w : BitVec 9) :
    LeavesHd (decodeBus9 w) s (hdExecute s.par.tExec (Config.freeAddress s.draws) (w.getLsbD 8) (w.extractLsb' 4 4)
      (w.extractLsb' 0 4) s.now s.hd) := by
  have hfield (n : Nat) : w.extractLsb' 4 n ++ w.extractLsb' 0 4 = w.extractLsb' 0 (n + 4) :=
    BitVec.extractLsb'_append_extractLsb'_eq_extractLsb' rfl
  simp only [decodeBus9, hdExecute, BitVec.getLsbD_extractLsb', extractLsb'_extractLsb'_of_add_le, hfield,
    Nat.reduceAdd, Nat.reduceLT, Nat.reduceLeDiff, decide_true, Bool.true_and]
  repeat' apply LeavesHd.ite
  all_goals exact ⟨_, rfl, hdAccept_of_accepting h.fault h.rested _⟩

theorem leavesHd_decodeBus9_byte {s : State} (h : HdAccepts s) (rs : Bool) (d : Byte) :
    LeavesHd (decodeBus9 (BitVec.ofBool rs ++ d)) s (hdExecute s.par.tExec (Config.freeAddress s.draws) rs
      (d.extractLsb' 4 4) (d.extractLsb' 0 4) s.now s.hd) := by
  have hrs : (BitVec.ofBool rs ++ d).getLsbD 8 = rs := by
    simp only [BitVec.getLsbD_append]
    simp
  have hhi : (BitVec.ofBool rs ++ d).extractLsb' 4 4 = d.extractLsb' 4 4 :=
    BitVec.extractLsb'_append_eq_of_add_le (by decide)
  have hlo : (BitVec.ofBool rs ++ d).extractLsb' 0 4 = d.extractLsb' 0 4 :=
    BitVec.extractLsb'_append_eq_of_add_le (by decide)
  have hw := leavesHd_decodeBus9 h (BitVec.ofBool rs ++ d)
  rwa [hrs, hhi, hlo] at hw

section
variable {h : Hd} {t : Nat} (hf : h.fault = none) (ht : h.busyUntil ≤ t) (x : ExecTimes) (q : Bool) (nib : BitVec 4)
  (addr : BitVec 7) (rs : Bool)
include hf ht

theorem hdReceive_byte (hm : h.mode = .eight) (d : Byte) :
    hdReceive x q .eightBit nib addr rs d t h = hdExecute x addr rs (d.extractLsb' 4 4) (d.extractLsb' 0 4) t h := by
  rw [hdReceive, hdAccept_of_accepting hf ht, hdTake, hm]
  rfl

theorem hdReceive_highNibble (hm : h.mode = .four) (hp : h.phase = .high) (n : BitVec 4) :
    hdReceive x q .fourBit nib addr rs (n.setWidth 8) t h = { h with phase := .low n rs } := by
  rw [hdReceive, hdAccept_of_accepting hf ht, hdTake, hm, hp]
  simp [BitVec.extractLsb'_setWidth_of_le]

theorem hdReceive_lowNibble (hm : h.mode = .four) {hi : BitVec 4} (hp : h.phase = .low hi rs) (n : BitVec 4) :
    hdReceive x q .fourBit nib addr rs (n.setWidth 8) t h = hdExecute x addr rs hi n t { h with phase := .high } := by
  rw [hdReceive, hdAccept_of_accepting hf ht, hdTake, hm, hp]
  simp [BitVec.extractLsb'_setWidth_of_le]

end

/-- The two nibbles of a byte, high first, are the byte. -/
theorem hdReceive_nibblePair {h : Hd} {t : Nat} (hf : h.fault = none) (ht : h.busyUntil ≤ t) (hm : h.mode = .four)
    (hp : h.phase = .high) (x : ExecTimes) (q q' : Bool) (nib nib' : BitVec 4) (addr addr' : BitVec 7) (rs : Bool)
    (hi lo : BitVec 4) :
    hdReceive x q' .fourBit nib' addr' rs (lo.setWidth 8) t
      (hdReceive x q .fourBit nib addr rs (hi.setWidth 8) t h) = hdExecute x addr' rs hi lo t h := by
  rw [hdReceive_highNibble hf ht _ _ _ _ _ hm hp]
  rw [hdReceive_lowNibble (h := { h with phase := .low hi rs }) hf ht _ _ _ _ _ hm rfl, ← hp]

/-- Settles O59: in its own mode the controller executes a transfer's byte, or its nibble pair, which is what the
decoded word does (`leavesHd_decodeBus9_byte`). -/
theorem transfersExecuteTheDecodedWord : Obligations.TransfersExecuteTheDecodedWord := by
  intro s rs q q' d nib nib' addr' h
  obtain ⟨t, hexec, hhd⟩ := leavesHd_decodeBus9_byte h rs d
  refine ⟨t, hexec, fun hm => ?_, fun hm hp => ?_⟩ <;> rw [hhd]
  · exact hdReceive_byte h.fault h.rested _ _ _ _ _ hm d
  · exact hdReceive_nibblePair h.fault h.rested hm hp _ _ _ _ _ _ _ _ _ _

/-! ### The rows of the bus9 words (30_encoding R86, R87) -/

/-- A word that two rows accept has both matches, so that they agree where both masks are set. -/
theorem bits_and_mask_comm_of_accepts {r r' : Row} {w : Nat} (h : r.accepts w = true) (h' : r'.accepts w = true) :
    r.bits &&& r'.mask = r'.bits &&& r.mask := by
  rw [← beq_iff_eq.1 h, ← beq_iff_eq.1 h', Nat.and_right_comm]

/-- No two bus9 rows agree where both their masks are set. -/
theorem bus9Rows_disjoint : bus9Rows.Pairwise fun r r' => r.bits &&& r'.mask ≠ r'.bits &&& r.mask := by
  decide

/-- The only element that satisfies `p`, where no two do. -/
theorem filter_eq_singleton {α : Type} {p : α → Bool} {l : List α} {a : α}
    (hl : l.Pairwise fun x y => ¬(p x = true ∧ p y = true)) (ha : a ∈ l) (hp : p a = true) : l.filter p = [a] := by
  induction l with
  | nil => simp at ha
  | cons x l ih =>
    obtain ⟨hx, hl⟩ := List.pairwise_cons.1 hl
    rcases List.mem_cons.1 ha with rfl | ha
    · have hnone : l.filter p = [] := List.filter_eq_nil_iff.2 fun y hy hpy => hx y hy ⟨hp, hpy⟩
      rw [List.filter_cons_of_pos hp, hnone]
    · rw [List.filter_cons_of_neg fun hpx => hx a ha ⟨hpx, hp⟩, ih hl ha]

/-- What a bus9 word decodes to encodes to a word of its own row. -/
theorem encodesItsRow_decodeBus9 (w : BitVec 9) : Laws.EncodesItsRow.Statement (decodeBus9 w) := by
  rw [decodeBus9]
  repeat' split
  exacts [Laws.EncodesItsRow.hdWriteData _, Laws.EncodesItsRow.hdSetDdramAddr _, Laws.EncodesItsRow.hdSetCgramAddr _,
    Laws.EncodesItsRow.hdFunctionSet _ _ _ _, Laws.EncodesItsRow.hdCursorDisplayShift _ _ _,
    Laws.EncodesItsRow.hdDisplayControl _ _ _, Laws.EncodesItsRow.hdEntryModeSet _ _,
    Laws.EncodesItsRow.hdReturnHome _, Laws.EncodesItsRow.hdClearDisplay, Laws.EncodesItsRow.hdReserved00]

/-- No bit of a bus9 word is lost, ignored bits included: evaluated for each of the 512 words. -/
theorem encode_decodeBus9 : ∀ w : BitVec 9, encode (decodeBus9 w) = .bus9 w := by
  decide +kernel

/-- Settles O2: the word is that of the instruction it decodes to, whose own row accepts it, and the rows are
disjoint. -/
theorem everyBus9WordHasOneRow : Obligations.EveryBus9WordHasOneRow := by
  intro w
  refine ⟨?_, encode_decodeBus9 w⟩
  obtain ⟨r, hr, hname, haccepts⟩ := encodesItsRow_decodeBus9 w
  rw [encode_decodeBus9] at hr haccepts
  have hone : (bus9Rows.filter fun r => r.accepts w.toNat) = [r] :=
    filter_eq_singleton (bus9Rows_disjoint.imp fun hne h => hne (bits_and_mask_comm_of_accepts h.1 h.2)) hr haccepts
  rw [hone, List.map_singleton, hname]

/-! ### Words of the table (30_encoding R82, R83, R86) -/

/-- Settles O4, word by word. -/
theorem tableWordsDecode : Obligations.TableWordsDecode :=
  ⟨rfl, rfl, rfl, rfl, rfl, rfl, rfl, rfl, rfl, rfl, rfl⟩

end Sys2Proof.Machine
end

section
/-! PROOFS. The statements of the bus masking (40_bus_masking): the pattern of MASK bit by bit, its read-back and its
inverse. -/

namespace Sys2Proof.Machine

theorem presentPins_nodup_of_wellFormedPins {p : Params} {a : PinAssignment} (h : wellFormedPins p a = true) :
    (presentPins a).Nodup :=
  (wellFormedPins_spec h).2.1

/-! ### The inverse on the placed bits (40_bus_masking R106) -/

/-- `unmask8` reads on each data line the bit that `mask8` placed there. -/
theorem unmask8_mask8 {a : PinAssignment} (hn : (presentPins a).Nodup) (hw : widthOf a = some .eightBit) (v : Byte) :
    unmask8 (mask8 v a) a = v := by
  refine readByte_eq _ _ _ fun i hi => ?_
  obtain ⟨x, hx⟩ := dataPin_eight hw hi
  rw [hx, bitAt, testBit_mask8_pin hn v hi hx]

/-- `unmask4` reads on each of D4-D7 the bit that `mask4` placed there; the high nibble is lost (R102). -/
theorem unmask4_mask4 {a : PinAssignment} (hn : (presentPins a).Nodup) (v : Byte) :
    unmask4 (mask4 v a) a = v.extractLsb' 0 4 := by
  refine readNibble_eq _ _ _ fun j hj => ?_
  obtain ⟨x, hx⟩ := dataPin_high a hj
  rw [hx, bitAt, testBit_mask4_pin hn v hj hx, BitVec.getLsbD_extractLsb', decide_eq_true hj, Bool.true_and,
    Nat.zero_add]

/-! ### The pattern of MASK, bit by bit (40_bus_masking R101, R102) -/

theorem mem_dataLines8 {i : Nat} : i ∈ dataLines8 ↔ i < 8 := by
  simp only [dataLines8, List.mem_cons, List.not_mem_nil, or_false]
  omega

theorem mem_dataLines4 {i : Nat} : i ∈ dataLines4 ↔ i < 8 ∧ 4 ≤ i := by
  simp only [dataLines4, List.mem_cons, List.not_mem_nil, or_false]
  omega

/-- Data line D`i` carries a set bit of the value in a width. -/
def PlacesOn (w : BusWidth) (v : Byte) (i : Nat) : Prop :=
  match w with
  | .eightBit => v.getLsbD i = true
  | .fourBit => 4 ≤ i ∧ v.getLsbD (i - 4) = true

/-- A pin is high exactly where a data line carries a set bit to it. -/
theorem testBit_maskIn_iff (w : BusWidth) (v : Byte) (a : PinAssignment) (x : Nat) :
    (maskIn w v a).testBit x = true ↔ ∃ i, i < 8 ∧ dataPin a i = some x ∧ PlacesOn w v i := by
  cases w
  case eightBit =>
    simp only [maskIn, testBit_mask8, List.any_eq_true, mem_dataLines8, Bool.and_eq_true, beq_iff_eq, PlacesOn]
    exact exists_congr fun i => and_congr_right fun _ => and_comm
  case fourBit =>
    simp only [maskIn, testBit_mask4, List.any_eq_true, mem_dataLines4, Bool.and_eq_true, beq_iff_eq, PlacesOn]
    exact exists_congr fun i => by tauto

/-! ### MASK (40_bus_masking R100, R103) -/

theorem exec_mask_of_wellFormedPins {s : State} {a : PinAssignment} (h : wellFormedPins s.par a = true) (v : Byte)
    (w : BusWidth) : exec (.mask v w a) s = .next { s with maskResult := some (maskIn w v a) } := by
  rw [exec, execMask, if_pos h]

theorem exec_mask_of_malformedPins {s : State} {a : PinAssignment} (h : wellFormedPins s.par a = false) (v : Byte)
    (w : BusWidth) : exec (.mask v w a) s = .next (raise .badPinAssignment .mask s) := by
  rw [exec, execMask, if_neg (by simp [h])]

/-! ### The obligations -/

/-- Settles O27: distinct pins keep the placed bits apart (R104), and no mask leaves the active data pins. -/
theorem maskReadsBack : Obligations.MaskReadsBack := by
  intro p a w v h
  have hn := presentPins_nodup_of_wellFormedPins h
  refine ⟨?_, ?_, fun x hx => ?_⟩
  · rintro rfl i x hi hpin
    exact testBit_mask8_pin hn v hi hpin
  · rintro rfl j x hj hpin
    exact testBit_mask4_pin hn v hj hpin
  · have hle := testBit_maskIn_le ⟨a, w⟩ v x
    rw [hx] at hle
    simpa using hle

/-- Settles O28: each mask has a left inverse on the bits it places, and so is injective on them. -/
theorem unmaskInvertsMask : Obligations.UnmaskInvertsMask := by
  intro p a h
  have hn := presentPins_nodup_of_wellFormedPins h
  refine ⟨unmask8_mask8 hn, unmask4_mask4 hn, fun hw v v' hv => ?_, fun v v' hv => ?_⟩
  · rw [← unmask8_mask8 hn hw v, hv, unmask8_mask8 hn hw v']
  · rw [← unmask4_mask4 hn v, hv, unmask4_mask4 hn v']

/-- Settles O29: the pattern of the width is returned, known bit by bit; a malformed assignment is refused. -/
theorem maskReturnsThePattern : Obligations.MaskReturnsThePattern := by
  intro s v w a
  refine ⟨fun h => ⟨maskIn w v a, exec_mask_of_wellFormedPins h v w, fun x => ?_⟩,
    fun h => exec_mask_of_malformedPins h v w⟩
  exact testBit_maskIn_iff w v a x

end Sys2Proof.Machine
end

section
/-! PROOFS. The statements of the display driver (41_display_driver): the starting steps, the lists they start, the
transfer that a fall of Enable makes, and what the display writes send when they run undisturbed. -/

namespace Sys2Proof.Machine

/-! ### What a starting step writes (41_display_driver, opening words, R139) -/

/-- A display operation is neither an operation of interrupt handlers nor a bus word. -/
theorem kinds_of_displayOp {i : Instr} {op : DisplayOp} (hi : displayOpOf i = some op) :
    isHandlerOp i = false ∧ isBusWord i = false := by
  cases i <;> cases hi <;> exact ⟨rfl, rfl⟩

/-- A starting step writes nothing but the time, the sequencer, the refusal and, in CONFIGURE, the configuration with
its pin modes. -/
theorem exec_starting {i : Instr} {op : DisplayOp} {s t : State} (hi : displayOpOf i = some op)
    (h : exec i s = .next t) :
    ∃ n fg mark record cfg modes,
      t = { s with now := n, fg := fg, refused := mark, refusal := record, cfg := cfg, pinMode := modes } ∧
      (op ≠ .configure → cfg = s.cfg ∧ modes = s.pinMode) := by
  obtain ⟨hnoHandler, hnoWord⟩ := kinds_of_displayOp hi
  rcases exec_cases h with ⟨hhandler, _⟩ | ⟨_, _, hdisplay⟩ | ⟨_, _, _, rfl, _⟩ | ⟨hword, _⟩
  · simp [hnoHandler] at hhandler
  · rcases hdisplay with ⟨_, _, _, rfl⟩ | ⟨_, _, _, _, _, rfl, _⟩ | ⟨_, _, rfl, _, _, _, _, rfl⟩
    · exact ⟨_, _, _, _, _, _, rfl, fun _ => ⟨rfl, rfl⟩⟩
    · exact ⟨_, _, _, _, _, _, rfl, fun _ => ⟨rfl, rfl⟩⟩
    · exact ⟨_, _, _, _, _, _, rfl, fun hop => absurd (Option.some.inj hi).symm hop⟩
  · cases hi
  · simp [hnoWord] at hword

/-- Settles O25: of the fields that `exec_starting` lists the statement names only the configuration and the modes. -/
theorem startingStepsWriteNoPin : Obligations.StartingStepsWriteNoPin := by
  intro i op s t hi h
  obtain ⟨_, _, _, _, _, _, rfl, hkept⟩ := exec_starting hi h
  exact ⟨⟨rfl, rfl, rfl, rfl⟩, ⟨rfl, rfl, rfl, rfl, rfl, rfl⟩, ⟨rfl, rfl⟩, ⟨rfl, rfl⟩, rfl, rfl, rfl, rfl, rfl, hkept⟩

/-! ### The start of an accepted operation (41_display_driver R120, R126-R132) -/

/-- The Foreground has started a list: Busy at its head, no sooner than the end of its last Wait. -/
def started (op : DisplayOp) (steps : List MicroStep) (s : State) : State :=
  { s with now := max s.now s.fgReady, fg := .busy op steps 0 }

theorem startOp_of_accepted {s : State} {check : Option RefuseReason} (hfg : s.fg = .idle) (hcheck : check = none)
    (op : DisplayOp) (go : State → State) : startOp op check go s = go (foregroundTime s) := by
  simp [startOp, hfg, hcheck]

theorem widthOf_fourBit {a : PinAssignment} (h : a.d0 = none ∧ a.d1 = none ∧ a.d2 = none ∧ a.d3 = none) :
    widthOf a = some .fourBit := by
  obtain ⟨h0, h1, h2, h3⟩ := h
  simp [widthOf, h0, h1, h2, h3]

theorem widthOf_eightBit {a : PinAssignment} (h : a.d0.isSome ∧ a.d1.isSome ∧ a.d2.isSome ∧ a.d3.isSome) :
    widthOf a = some .eightBit := by
  simp only [Option.isSome_iff_exists] at h
  obtain ⟨⟨_, h0⟩, ⟨_, h1⟩, ⟨_, h2⟩, ⟨_, h3⟩⟩ := h
  simp [widthOf, h0, h1, h2, h3]

theorem exec_configure_of_accepted {s : State} {pins : PinAssignment} {w : BusWidth} (hfg : s.fg = .idle)
    (hcfg : s.cfg = none) (hwf : wellFormedPins s.par pins = true) (hw : widthOf pins = some w) :
    exec (.configure pins) s = .next { s with
      now := max s.now s.fgReady
      cfg := some ⟨pins, w⟩
      pinMode := programPins (usedMask ⟨pins, w⟩) s.pinMode
      fg := .busy .configure (initSteps s.par ⟨pins, w⟩) 0 } := by
  have hcheck : configureCheck pins s = none := by simp [configureCheck, hcfg, hwf]
  have hgo : configureStart pins (foregroundTime s) = { foregroundTime s with
      cfg := some ⟨pins, w⟩
      pinMode := programPins (usedMask ⟨pins, w⟩) s.pinMode
      fg := .busy .configure (initSteps s.par ⟨pins, w⟩) 0 } := by
    simp [configureStart, hw]
  exact congrArg Host.Outcome.next ((startOp_of_accepted hfg hcheck _ _).trans hgo)

/-- Settles O30: the width is read off D0-D3, the checks pass, and the modes are known pin by pin. -/
theorem configureStartsTheInitialisation : Obligations.ConfigureStartsTheInitialisation := by
  intro s pins w hfg hcfg hwf hd4 hd8
  have hw : widthOf pins = some w := by
    cases w with
    | fourBit => exact widthOf_fourBit (hd4 rfl)
    | eightBit => exact widthOf_eightBit (hd8 rfl)
  exact ⟨_, exec_configure_of_accepted hfg hcfg hwf hw, getElem?_programPins _ _⟩

section
variable {s : State} {c : DisplayCfg} (hfg : s.fg = .idle) (hcfg : s.cfg = some c)
include hfg hcfg

theorem startWrite_of_configured (op : DisplayOp) (steps : Params → DisplayCfg → List MicroStep) :
    startWrite op none steps s = started op (steps s.par c) s := by
  have hcheck : writeCheck none s = none := by simp [writeCheck, hcfg]
  rw [startWrite, startOp_of_accepted hfg hcheck]
  simp [writeStart, hcfg, started, foregroundTime, waitUntil]

theorem exec_writeCommand_of_configured (b : Byte) :
    exec (.writeCommand b) s = .next (started .writeCommand (sendByte c false b) s) :=
  congrArg Host.Outcome.next (startWrite_of_configured hfg hcfg _ _)

theorem exec_writeChar_of_configured (b : Byte) :
    exec (.writeChar b) s = .next (started .writeChar (sendByte c true b) s) :=
  congrArg Host.Outcome.next (startWrite_of_configured hfg hcfg _ _)

theorem exec_writeLine_of_configured {row : Nat} {rowCmd : Byte} (hrow : rowCommand s.par row = some rowCmd)
    (text : List Byte) :
    exec (.writeLine text row) s = .next (started .writeLine (lineSteps s.par c rowCmd text) s) := by
  rw [exec, execWriteLine, hrow]
  exact congrArg Host.Outcome.next (startWrite_of_configured hfg hcfg _ _)

theorem exec_writeTwoLines_of_configured (text1 text2 : List Byte) :
    exec (.writeTwoLines text1 text2) s = .next (started .writeTwoLines
      (lineSteps s.par c s.par.rowCmd1 text1 ++ lineSteps s.par c s.par.rowCmd2 text2) s) :=
  congrArg Host.Outcome.next (startWrite_of_configured hfg hcfg _ _)

end

/-- Settles O32: each write passes its checks and starts its own list. -/
theorem displayWritesStart : Obligations.DisplayWritesStart := by
  intro s c hfg hcfg
  exact ⟨exec_writeCommand_of_configured hfg hcfg, exec_writeChar_of_configured hfg hcfg,
    exec_writeLine_of_configured hfg hcfg rfl, exec_writeLine_of_configured hfg hcfg rfl,
    exec_writeTwoLines_of_configured hfg hcfg⟩

/-! ### The bytes of a row write (41_display_driver R128, R130, R131) -/

/-- Characters past the end of a text are pads. -/
theorem getElem?_lineChars (pad : Byte) (text : List Byte) {k : Nat} (hk : k < 16) :
    (lineChars pad text)[k]? = some (if h : k < text.length then text[k] else pad) := by
  rw [lineChars, List.getElem?_take_of_lt (show k < Config.cols from hk)]
  split
  next h => rw [List.getElem?_append_left h, List.getElem?_eq_getElem h]
  next h =>
    rw [List.getElem?_append_right (Nat.le_of_not_lt h), List.getElem?_replicate_of_lt]
    exact Nat.lt_of_le_of_lt (Nat.sub_le _ _) hk

/-- Settles O34: a row write is the list of its bytes, each with the Enable holds of its width. -/
theorem rowWriteSendsSeventeenBytes : Obligations.RowWriteSendsSeventeenBytes := by
  intro p c rowCmd text
  refine ⟨lineBytes_flat p c rowCmd text, lineBytes_length p rowCmd text, fun _ => getElem?_lineChars p.pad text, ?_⟩
  rw [lineBytes_flat, count_bytes, lineBytes_length]
  cases c.width <;> rfl

/-! ### The fall of Enable (41_display_driver R141) -/

theorem latch_of_fall {s : State} {c : DisplayCfg} {m v : Nat} (hcfg : s.cfg = some c)
    (hfall : m.testBit c.pins.e = true ∧ v.testBit c.pins.e = false ∧ pinLevel s.out c.pins.e = .high) :
    latch m v s = captureTransfer c s := by
  obtain ⟨hm, hv, he⟩ := hfall
  simp [latch, hcfg, clears, hm, hv, he]

theorem latch_of_no_fall {s : State} {c : DisplayCfg} {m v : Nat} (hcfg : s.cfg = some c)
    (hno : ¬ (m.testBit c.pins.e = true ∧ v.testBit c.pins.e = false ∧ pinLevel s.out c.pins.e = .high)) :
    latch m v s = s := by
  simp only [latch, hcfg, clears]
  refine if_neg fun h => hno ?_
  simpa [and_assoc] using h

/-- The controller latches what the lines hold. -/
theorem captureTransfer_of_lines {s : State} {c : DisplayCfg} {rs : Bool} {data : Byte}
    (hrs : pinLevel s.out c.pins.rs = Level.ofBool rs)
    (hdata : readBus c.width (seenLevel s.out (Config.freePattern s.draws)) c.pins = data) :
    captureTransfer c s = deliver c.width rs data
      { s with transfers := ⟨rs, data, s.now, s.eRise.map fun r => s.now - r⟩ :: s.transfers } := by
  rw [captureTransfer, hdata, seenLevel, hrs, sample_ofBool]

/-- With one transfer more, the transfer just recorded is one of the two of 70_reset_and_hazards R313. -/
theorem recovering_cons_iff (s : State) (x : Transfer) :
    recovering { s with transfers := x :: s.transfers } = true ↔
      (∃ steps pc, s.fg = .busy .configure steps pc) ∧
      (s.transfers.length = 0 ∧ s.hd.phase = .high ∨ s.transfers.length = 1 ∧ ∃ hi r, s.hd.phase = .low hi r) := by
  rw [recovering_eq_true_iff, configuring_eq_true_iff]
  simp

/-- Settles O37: the latch looks at E alone, reads the lines before they are driven, and hands the transfer on. -/
theorem enableFallMakesTheTransfer : Obligations.EnableFallMakesTheTransfer := by
  intro s c m v rs recovery data hcfg hrecovery hrs hlines h8 h4
  have htransfers : (microStep (.pinsWrite m v) s).transfers = (latch m v s).transfers := rfl
  have hhd : (microStep (.pinsWrite m v) s).hd = (latch m v s).hd := rfl
  refine ⟨fun hfall => ?_, fun hno => ?_⟩
  · rw [htransfers, hhd, latch_of_fall hcfg hfall, captureTransfer_of_lines hrs (readBus_lines s c _ data hlines h8 h4)]
    refine ⟨rfl, Config.freeNibble s.draws, Config.freeAddress s.draws, ?_⟩
    have hrec : recovering { s with transfers := ⟨rs, data, s.now, s.eRise.map fun r => s.now - r⟩ :: s.transfers } =
        recovery := by
      rw [Bool.eq_iff_iff, recovering_cons_iff, hrecovery]
    rw [deliver_hd, hrec]
  · rw [htransfers, hhd, latch_of_no_fall hcfg hno]
    exact ⟨rfl, rfl⟩

/-! ### Running a part of a list undisturbed (41_display_driver R142) -/

/-- A Foreground step, wherever the sequencer stands in lists of the same operation. -/
theorem foregroundStep_sameOp {s : State} {op : DisplayOp} {l l' : List MicroStep} {pc pc' : Nat} {m : MicroStep}
    (hs : s.fg = .busy op l pc) (hm : l'[pc']? = some m) :
    foregroundStep { s with fg := .busy op l' pc' } =
      { microStep m (foregroundTime s) with fg := nextFg op l' pc' } := by
  rw [foregroundStep_of_busy rfl hm]
  exact congrArg (fun u : State => { u with fg := nextFg op l' pc' })
    (microStep_fg m (.busy op l' pc') (foregroundTime s) (configuring_sameOp hs rfl))

/-- Foreground steps over a part of a list, which may be its end, run that part. -/
theorem foregroundSteps_run_part {op : DisplayOp} {pre ms post : List MicroStep} {s : State} (hne : ms ≠ [])
    (h : s.fg = .busy op (pre ++ ms ++ post) pre.length) :
    ∃ f, foregroundSteps ms.length s = { runMicro ms s with fg := f } := by
  obtain ⟨a, m, rfl⟩ := (List.eq_nil_or_concat ms).resolve_left hne
  rw [List.concat_eq_append] at h ⊢
  have hlist : pre ++ (a ++ [m]) ++ post = pre ++ a ++ m :: post := by simp
  rw [hlist] at h
  have hm : (pre ++ a ++ m :: post)[(pre ++ a).length]? = some m := by simp
  rw [List.length_append, foregroundSteps_add, foregroundSteps_run op pre a (m :: post) s (by simp) h,
    List.length_singleton, foregroundSteps, foregroundSteps,
    foregroundStep_sameOp ((runMicro_keepsFg a s).trans h) hm, runMicro_append]
  exact ⟨_, rfl⟩

/-- Settles O38: the five steps are one `XFER` run, whose transfer `XferDone` states. -/
theorem xferMakesExactlyOneTransfer : Obligations.XferMakesExactlyOneTransfer := by
  intro s c op pre post v rs hpins hcfg hrs hfg
  obtain ⟨_, hrun⟩ := foregroundSteps_run_part (by simp [xfer]) hfg
  have hlen : (xfer c (maskIn c.width v c.pins)).length = 5 := rfl
  have htransfers : (foregroundSteps 5 s).transfers = (runMicro (xfer c (maskIn c.width v c.pins)) s).transfers := by
    rw [← hlen, hrun]
  exact ⟨_, _, le_refl _, htransfers.trans (runMicro_xfer (.of_pins hpins hcfg) hrs v).transfers⟩

/-! ### Whole operations, run undisturbed (41_display_driver R145-R147) -/

/-- The micro-steps of a byte with its RS level, in a width. -/
def byteSteps : BusWidth → Nat
  | .eightBit => 6
  | .fourBit => 11

/-- The pulses of E that a byte takes, in a width. -/
def bytePulses : BusWidth → Nat
  | .eightBit => 1
  | .fourBit => 2

theorem sendByte_ne_nil (c : DisplayCfg) (rs : Bool) (b : Byte) : sendByte c rs b ≠ [] :=
  List.ne_nil_of_length_pos (length_sendByte_pos c rs b)

theorem length_sendByte (c : DisplayCfg) (rs : Bool) (b : Byte) :
    (sendByte c rs b).length = byteSteps c.width := by
  cases hw : c.width <;> simp [sendByte, sendRs, writeByte, hw, byte4, byte8, xfer, byteSteps]

theorem length_sendBytes (c : DisplayCfg) (l : List (Bool × Byte)) :
    (l.flatMap fun x => sendByte c x.1 x.2).length = l.length * byteSteps c.width := by
  simp [List.length_flatMap, length_sendByte]

/-- A started list, run to its end. -/
theorem foregroundSteps_started (op : DisplayOp) {steps : List MicroStep} (hne : steps ≠ []) (s : State) :
    foregroundSteps steps.length (started op steps s) =
      { runMicro steps (started op steps s) with fg := .idle } :=
  foregroundSteps_run_all op steps _ hne rfl

theorem wired_started {s : State} {c : DisplayCfg} (hpins : PinsConsistent s) (hcfg : s.cfg = some c) (op : DisplayOp)
    (steps : List MicroStep) : Wired c (started op steps s) :=
  .of_pins (hpins.of_same rfl rfl rfl rfl) hcfg

theorem now_le_started (op : DisplayOp) (steps : List MicroStep) (s : State) :
    s.now ≤ max (started op steps s).now (started op steps s).fgReady :=
  le_trans (le_max_left _ _) (le_max_left _ _)

/-- Settles O39: the list of a byte, run from its start (`ByteDone`). -/
theorem byteWriteTransfers : Obligations.ByteWriteTransfers := by
  intro s c rs b hpins hfg hcfg
  obtain ⟨op, hexec⟩ : ∃ op, exec (if rs then .writeChar b else .writeCommand b) s =
      .next (started op (sendByte c rs b) s) := by
    cases rs
    · exact ⟨_, exec_writeCommand_of_configured hfg hcfg b⟩
    · exact ⟨_, exec_writeChar_of_configured hfg hcfg b⟩
  refine ⟨_, hexec, ?_⟩
  have hdone := runMicro_sendByte (wired_started hpins hcfg op (sendByte c rs b)) rs b
  have hrun := foregroundSteps_started op (sendByte_ne_nil c rs b) s
  rw [length_sendByte] at hrun
  intro u
  have hu : u = { runMicro (sendByte c rs b) (started op (sendByte c rs b) s) with fg := .idle } := hrun
  rw [hu]
  exact ⟨rfl, hdone.transfers, le_of_le_of_eq (Nat.add_le_add_right (now_le_started _ _ _) _) hdone.now.symm,
    hdone.eLevel, hdone.rsLevel⟩

/-- The last byte of a list ends with its hold: the Foreground may go on at once. -/
theorem runMicro_bytes_rested {s : State} {c : DisplayCfg} (h : Wired c s) {l : List (Bool × Byte)} (hne : l ≠ []) :
    (runMicro (l.flatMap fun x => sendByte c x.1 x.2) s).fgReady =
      (runMicro (l.flatMap fun x => sendByte c x.1 x.2) s).now := by
  obtain ⟨l, x, rfl⟩ := (List.eq_nil_or_concat l).resolve_left hne
  obtain ⟨hwired, _⟩ := runMicro_bytes h l
  rw [List.concat_eq_append, List.flatMap_append, runMicro_append, List.flatMap_singleton]
  exact (runMicro_sendByte hwired x.1 x.2).fgReady

/-- Bytes started as one list and run for its `n` micro-steps, with `k` Enable holds among them. -/
theorem run_started_bytes {s : State} {c : DisplayCfg} (hpins : PinsConsistent s) (hcfg : s.cfg = some c)
    (op : DisplayOp) {l : List (Bool × Byte)} (hne : l ≠ []) {n k : Nat}
    (hn : n = l.length * byteSteps c.width) (hk : k = l.length * bytePulses c.width) :
    let u := foregroundSteps n (started op (l.flatMap fun x => sendByte c x.1 x.2) s)
    u.fg = .idle ∧
      u.transfers.map Transfer.content = bytesTransfers c.width l ++ s.transfers.map Transfer.content ∧
      s.now + k * Config.tEnableHigh ≤ u.now := by
  have hsteps : (l.flatMap fun x => sendByte c x.1 x.2) ≠ [] := by
    obtain ⟨x, l, rfl⟩ := List.exists_cons_of_ne_nil hne
    exact List.append_ne_nil_of_left_ne_nil (sendByte_ne_nil c x.1 x.2) _
  have hwired := wired_started hpins hcfg op (l.flatMap fun x => sendByte c x.1 x.2)
  obtain ⟨_, _, htransfers, htime⟩ := runMicro_bytes hwired l
  rw [runMicro_bytes_rested hwired hne, Nat.max_self] at htime
  rw [hn, hk, ← length_sendBytes, foregroundSteps_started op hsteps]
  exact ⟨rfl, htransfers, le_trans (Nat.add_le_add_right (now_le_started _ _ _) _) htime⟩

theorem lineBytes_ne_nil (p : Params) (rowCmd : Byte) (text : List Byte) : lineBytes p rowCmd text ≠ [] :=
  List.cons_ne_nil _ _

/-- Settles O40: a row write is the list of its seventeen bytes, and two rows are the bytes of both in order. -/
theorem rowWriteTransfers : Obligations.RowWriteTransfers := by
  intro s c hpins hfg hcfg
  refine ⟨fun text row rowCmd hrow => ?_, fun text1 text2 => ?_⟩
  · refine ⟨_, exec_writeLine_of_configured hfg hcfg hrow text, ?_⟩
    rw [lineBytes_flat]
    refine run_started_bytes hpins hcfg .writeLine (lineBytes_ne_nil _ _ _) ?_ ?_ <;> rw [lineBytes_length] <;>
      cases c.width <;> rfl
  · refine ⟨_, exec_writeTwoLines_of_configured hfg hcfg text1 text2, ?_⟩
    rw [lineBytes_flat, lineBytes_flat, ← List.flatMap_append]
    refine run_started_bytes hpins hcfg .writeTwoLines
      (List.append_ne_nil_of_left_ne_nil (lineBytes_ne_nil _ _ _) _) ?_ ?_ <;>
      rw [List.length_append, lineBytes_length, lineBytes_length] <;> cases c.width <;> rfl

end Sys2Proof.Machine
end

section
/-! PROOFS. The statements of the reference controller (42_hd44780_bus_words): what its words do and leave alone, its
memories, the misreadings of 70_reset_and_hazards R313, the rendered rows and the initialisation. -/

namespace Sys2Proof.Machine

/-! ### Power-on (42_hd44780_bus_words R161) -/

/-- Settles O14: the controller of the reset state is `Hd.powerOn`, whose memories list no cell. -/
theorem controllerPowerOn : Obligations.ControllerPowerOn :=
  ⟨rfl, rfl, rfl, rfl, rfl, rfl, rfl, rfl, rfl, fun _ => rfl, fun _ => rfl, rfl, rfl, rfl, rfl, rfl⟩

/-! ### Words as the memories see them (42_hd44780_bus_words R160) -/

/-- Both memories of the controller are in canonical form. -/
structure HdCanonical (h : Hd) : Prop where
  ddram : Memory.wf (some ddramDefault) 128 h.ddram = true
  cgram : Memory.wf none 64 h.cgram = true

theorem memoriesCanonical_iff {s : State} : MemoriesCanonical s ↔ HdCanonical s.hd :=
  ⟨fun h => ⟨h.ddram, h.cgram⟩, fun h => ⟨h.ddram, h.cgram⟩⟩

/-- An action on the controller that keeps its memories canonical. -/
def KeepsCanonical (act : Hd → Hd) : Prop := ∀ h, HdCanonical h → HdCanonical (act h)

theorem KeepsCanonical.of_same {act : Hd → Hd} (hddram : ∀ h, (act h).ddram = h.ddram)
    (hcgram : ∀ h, (act h).cgram = h.cgram) : KeepsCanonical act :=
  fun h hc => ⟨(hddram h).symm ▸ hc.ddram, (hcgram h).symm ▸ hc.cgram⟩

theorem KeepsCanonical.ite {b : Prop} [Decidable b] {act act' : Hd → Hd} (ha : KeepsCanonical act)
    (ha' : KeepsCanonical act') : KeepsCanonical fun h => if b then act h else act' h := by
  intro h hc
  dsimp only
  split
  · exact ha h hc
  · exact ha' h hc

section
variable (x : ExecTimes) (t : Nat)

theorem hdClearDisplay_keepsCanonical : KeepsCanonical (hdClearDisplay x t) :=
  fun _ hc => ⟨rfl, hc.cgram⟩

theorem hdReturnHome_keepsCanonical : KeepsCanonical (hdReturnHome x t) :=
  .of_same (fun _ => rfl) (fun _ => rfl)

theorem hdEntryModeSet_keepsCanonical (id s : Bool) : KeepsCanonical (hdEntryModeSet x id s t) :=
  .of_same (fun _ => rfl) (fun _ => rfl)

theorem hdDisplayControl_keepsCanonical (d c b : Bool) : KeepsCanonical (hdDisplayControl x d c b t) :=
  .of_same (fun _ => rfl) (fun _ => rfl)

theorem hdCursorDisplayShift_keepsCanonical (sc rl : Bool) (free : BitVec 7) :
    KeepsCanonical (hdCursorDisplayShift x sc rl free t) := by
  refine .ite (.of_same (fun _ => rfl) (fun _ => rfl)) (.of_same (fun h => ?_) (fun h => ?_)) <;>
    cases h.target <;> rfl

theorem hdFunctionSet_keepsCanonical (dl n f : Bool) : KeepsCanonical (hdFunctionSet x dl n f t) :=
  .ite (.of_same (fun _ => rfl) (fun _ => rfl)) (.of_same (fun _ => rfl) (fun _ => rfl))

theorem hdSetCgramAddr_keepsCanonical (a : BitVec 6) : KeepsCanonical (hdSetCgramAddr x a t) :=
  .of_same (fun _ => rfl) (fun _ => rfl)

theorem hdSetDdramAddr_keepsCanonical (a : BitVec 7) : KeepsCanonical (hdSetDdramAddr x a t) := by
  intro h hc
  rw [hdSetDdramAddr]
  split
  · exact ⟨hc.ddram, hc.cgram⟩
  · exact ⟨hc.ddram, hc.cgram⟩

theorem hdReserved00_keepsCanonical : KeepsCanonical hdReserved00 :=
  .of_same (fun _ => rfl) (fun _ => rfl)

/-- The one word that stores, in the memory the counter points into. -/
theorem hdWriteData_keepsCanonical (d : Byte) : KeepsCanonical (hdWriteData x d t) := by
  intro h hc
  rw [hdWriteData]
  cases h.target with
  | ddram => exact ⟨wf_ddramWrite hc.ddram h.ac d, hc.cgram⟩
  | cgram => exact ⟨hc.ddram, wf_cgramWrite hc.cgram _ d⟩

theorem hdExecute_keepsCanonical (free : BitVec 7) (rs : Bool) (hi lo : BitVec 4) :
    KeepsCanonical (hdExecute x free rs hi lo t) :=
  .ite (hdWriteData_keepsCanonical x t _) <| .ite (hdSetDdramAddr_keepsCanonical x t _) <|
  .ite (hdSetCgramAddr_keepsCanonical x t _) <| .ite (hdFunctionSet_keepsCanonical x t _ _ _) <|
  .ite (hdCursorDisplayShift_keepsCanonical x t _ _ free) <| .ite (hdDisplayControl_keepsCanonical x t _ _ _) <|
  .ite (hdEntryModeSet_keepsCanonical x t _ _) <| .ite (hdReturnHome_keepsCanonical x t) <|
  .ite (hdClearDisplay_keepsCanonical x t) hdReserved00_keepsCanonical

theorem hdTake_keepsCanonical (q : Bool) (w : BusWidth) (nib : BitVec 4) (addr : BitVec 7) (rs : Bool) (d : Byte) :
    KeepsCanonical (hdTake x q w nib addr rs d t) := by
  intro h hc
  rw [hdTake]
  cases h.mode with
  | eight => exact hdExecute_keepsCanonical x t _ _ _ _ h hc
  | four =>
    cases h.phase with
    | high => exact ⟨hc.ddram, hc.cgram⟩
    | low hi r =>
      dsimp only
      split
      · exact ⟨hc.ddram, hc.cgram⟩
      · exact hdExecute_keepsCanonical x t _ _ _ _ _ ⟨hc.ddram, hc.cgram⟩

end

theorem hdAccept_keepsCanonical {act : Hd → Hd} (ha : KeepsCanonical act) (t : Nat) :
    KeepsCanonical (hdAccept t act) := by
  intro h hc
  rw [hdAccept]
  split
  · exact hc
  · split
    · exact ⟨hc.ddram, hc.cgram⟩
    · exact ha h hc

theorem hdReceive_keepsCanonical (x : ExecTimes) (q : Bool) (w : BusWidth) (nib : BitVec 4) (addr : BitVec 7)
    (rs : Bool) (d : Byte) (t : Nat) : KeepsCanonical (hdReceive x q w nib addr rs d t) :=
  hdAccept_keepsCanonical (hdTake_keepsCanonical x t q w nib addr rs d) t

/-! ### What a bus word does to the machine (42_hd44780_bus_words R162) -/

/-- A bus word is an action that the controller takes unless it has a fault or is busy; beside it, only the count of
draws moves. -/
theorem exec_busWord {i : Instr} (hi : isBusWord i = true) (s : State) : ∃ act k, KeepsCanonical act ∧
    exec i s = .next { s with hd := hdAccept s.now act s.hd, draws := k } := by
  cases i with
  | hdClearDisplay => exact ⟨_, _, hdClearDisplay_keepsCanonical _ _, rfl⟩
  | hdReturnHome _ => exact ⟨_, _, hdReturnHome_keepsCanonical _ _, rfl⟩
  | hdEntryModeSet i sh => exact ⟨_, _, hdEntryModeSet_keepsCanonical _ _ i sh, rfl⟩
  | hdDisplayControl d c b => exact ⟨_, _, hdDisplayControl_keepsCanonical _ _ d c b, rfl⟩
  | hdCursorDisplayShift sc rl _ => exact ⟨_, _, hdCursorDisplayShift_keepsCanonical _ _ sc rl _, rfl⟩
  | hdFunctionSet dl n f _ => exact ⟨_, _, hdFunctionSet_keepsCanonical _ _ dl n f, rfl⟩
  | hdSetCgramAddr a => exact ⟨_, _, hdSetCgramAddr_keepsCanonical _ _ a, rfl⟩
  | hdSetDdramAddr a => exact ⟨_, _, hdSetDdramAddr_keepsCanonical _ _ a, rfl⟩
  | hdWriteData d => exact ⟨_, _, hdWriteData_keepsCanonical _ _ d, rfl⟩
  | hdReserved00 => exact ⟨_, _, hdReserved00_keepsCanonical, rfl⟩
  | nibbleModeSelect => exact ⟨_, _, hdTake_keepsCanonical _ _ _ _ _ _ _ _, rfl⟩
  | _ => cases hi

/-- Settles O26: `exec_busWord` names the two fields that a bus word can write. -/
theorem busWordsTouchOnlyTheController : Obligations.BusWordsTouchOnlyTheController := by
  intro i s t hi h
  obtain ⟨_, _, _, hexec⟩ := exec_busWord hi s
  rw [h] at hexec
  cases hexec
  exact ⟨⟨rfl, rfl, rfl, rfl⟩, ⟨rfl, rfl, rfl, rfl⟩, ⟨rfl, rfl, rfl, rfl, rfl, rfl⟩, ⟨rfl, rfl⟩, ⟨rfl, rfl⟩,
    rfl, rfl, rfl, rfl, rfl⟩

theorem hdAccept_of_fault {h : Hd} (hf : h.fault ≠ none) (t : Nat) (act : Hd → Hd) : hdAccept t act h = h :=
  if_pos (Option.isSome_iff_ne_none.2 hf)

theorem hdAccept_of_busy {h : Hd} {t : Nat} (hf : h.fault = none) (ht : t < h.busyUntil) (act : Hd → Hd) :
    hdAccept t act h = { h with fault := some .busyViolation } := by
  simp [hdAccept, hdBusy, hf, ht]

/-- Settles O57: every bus word goes through `hdAccept`. -/
theorem busyOrFaultedControllerTakesNoWord : Obligations.BusyOrFaultedControllerTakesNoWord := by
  intro i s hi
  obtain ⟨act, _, _, hexec⟩ := exec_busWord hi s
  exact ⟨_, hexec, fun hf => hdAccept_of_fault hf _ act, fun hf ht => hdAccept_of_busy hf ht act⟩

/-! ### Every step and the memories (42_hd44780_bus_words R160, R161) -/

theorem exec_keepsMemories {i : Instr} {s t : State} (hs : HdCanonical s.hd) (h : exec i s = .next t) :
    HdCanonical t.hd := by
  rcases exec_cases h with
    ⟨_, hframe⟩ | ⟨_, _, hdisplay⟩ | ⟨_, _, _, _, rfl | ⟨_, rfl⟩⟩ | ⟨hword, _⟩
  · rwa [hframe.hd]
  · rcases hdisplay with ⟨_, _, _, rfl⟩ | ⟨_, _, _, _, _, rfl, _⟩ | ⟨_, _, _, _, _, _, _, rfl⟩
    · exact hs
    · exact hs
    · exact hs
  · exact hs
  · exact hs
  · obtain ⟨act, k, hact, hexec⟩ := exec_busWord hword s
    rw [h] at hexec
    cases hexec
    exact hdAccept_keepsCanonical hact _ _ hs

/-- A micro-step reaches the controller by a transfer only. -/
theorem microStep_keepsMemories (m : MicroStep) {s : State} (hs : HdCanonical s.hd) :
    HdCanonical (microStep m s).hd := by
  cases m with
  | wait d => exact hs
  | pinsWrite m v =>
    show HdCanonical (latch m v s).hd
    rw [latch]
    cases s.cfg with
    | none => exact hs
    | some c =>
      dsimp only
      split
      · exact hdReceive_keepsCanonical _ _ _ _ _ _ _ _ _ hs
      · exact hs

theorem foregroundStep_keepsMemories {s : State} (hs : HdCanonical s.hd) : HdCanonical (foregroundStep s).hd := by
  rcases foregroundStep_cases s with ⟨_, h⟩ | ⟨_, _, _, _, _, h⟩ | ⟨_, _, _, m, _, _, h⟩ <;> rw [h]
  · exact hs
  · exact hs
  · exact microStep_keepsMemories m (s := foregroundTime s) hs

/-- Settles O20: only bus words and transfers reach the memories, and both keep them canonical. -/
theorem stepKeepsMemoriesCanonical : Obligations.StepKeepsMemoriesCanonical := by
  intro s t hs h
  rw [memoriesCanonical_iff] at hs ⊢
  exact step_keeps (P := fun u => HdCanonical u.hd)
    (hbook := fun _ _ _ _ _ hu => hu)
    (hexec := fun _ _ _ hu hx => exec_keepsMemories hu hx)
    (hraise := fun _ _ _ hu => hu)
    (hfg := fun _ hu => foregroundStep_keepsMemories hu)
    (htime := fun _ _ hu _ => hu)
    (hlevel := fun ch l u hu => (handlerFrame_setLevel ch l u).hd.symm ▸ hu)
    hs h

/-! ### Words that the controller accepts (42_hd44780_bus_words R165-R173, R178) -/

theorem onHd_of_accepts {s : State} (h : HdAccepts s) (act : ExecTimes → Nat → Hd → Hd) :
    onHd act s = { s with hd := act s.par.tExec s.now s.hd } := by
  rw [onHd, hdAccept_of_accepting h.fault h.rested]

/-- The accepted word `act` leaves the controller as `h`. -/
theorem next_onHd_of_accepts {s : State} (hs : HdAccepts s) {act : ExecTimes → Nat → Hd → Hd} {h : Hd}
    (hact : act s.par.tExec s.now s.hd = h) :
    Host.Outcome.next (onHd act s) = (.next { s with hd := h } : Host.Outcome State Fault Refusal) := by
  rw [onHd_of_accepts hs, hact]

/-- Settles O52: with no cell listed, every DDRAM address reads the default byte. -/
theorem clearHomeAndReservedWords : Obligations.ClearHomeAndReservedWords := by
  intro s h
  exact ⟨⟨[], fun _ => rfl, next_onHd_of_accepts h rfl⟩, fun _ => next_onHd_of_accepts h rfl,
    next_onHd_of_accepts h rfl⟩

theorem hdFunctionSet_eq (x : ExecTimes) (dl n f : Bool) (t : Nat) (h : Hd) : hdFunctionSet x dl n f t h = { h with
    mode := if dl then .eight else .four
    phase := if dl then h.phase else .high
    n := n, f := f, busyUntil := t + x.command } := by
  cases dl <;> rfl

/-- Settles O53. -/
theorem modeWords : Obligations.ModeWords := by
  intro s h
  exact ⟨fun _ _ => next_onHd_of_accepts h rfl, fun _ _ _ => next_onHd_of_accepts h rfl,
    fun dl n f _ => next_onHd_of_accepts h (hdFunctionSet_eq _ dl n f _ _)⟩

/-- `a'` comes after `a`, counting up or down, in the table of R173: the wrap points of one line (`n = false`) or two,
and elsewhere one more or less, modulo 128. -/
def CountsTo (a : BitVec 7) (up n : Bool) (a' : BitVec 7) : Prop :=
  if up then
    if n = false ∧ a = 0x4F then a' = 0x00
    else if n = true ∧ a = 0x27 then a' = 0x40
    else if n = true ∧ a = 0x67 then a' = 0x00
    else a'.toNat = (a.toNat + 1) % 128
  else
    if n = false ∧ a = 0x00 then a' = 0x4F
    else if n = true ∧ a = 0x40 then a' = 0x27
    else if n = true ∧ a = 0x00 then a' = 0x67
    else a'.toNat + 1 = a.toNat

theorem countsTo_stepAc (a : BitVec 7) (up n : Bool) : CountsTo a up n (stepAc a up n) := by
  have hpred : a ≠ 0 → (a - 1).toNat + 1 = a.toNat := by
    intro h
    bv_omega
  cases up <;> cases n <;> simp only [CountsTo, stepAc, Bool.false_eq_true, if_false, if_true, true_and, false_and,
    reduceCtorEq]
  · split
    next => rfl
    next h => exact hpred h
  · split
    next => rfl
    next =>
      split
      next => rfl
      next h => exact hpred h
  · split
    next => rfl
    next => exact BitVec.toNat_add a 1
  · split
    next => rfl
    next =>
      split
      next => rfl
      next => exact BitVec.toNat_add a 1

/-- The counter after a cursor move: it counts in DDRAM, and is free in CGRAM (log 20). -/
def movedAc (h : Hd) (rl : Bool) (free : BitVec 7) : BitVec 7 :=
  match h.target with
  | .ddram => stepAc h.ac rl h.n
  | .cgram => free

theorem hdCursorDisplayShift_cursor (x : ExecTimes) (rl : Bool) (free : BitVec 7) (t : Nat) (h : Hd) :
    hdCursorDisplayShift x false rl free t h = { h with ac := movedAc h rl free, busyUntil := t + x.command } := by
  simp only [hdCursorDisplayShift, movedAc, Bool.false_eq_true, if_false]
  cases h.target <;> rfl

theorem hdCursorDisplayShift_display (x : ExecTimes) (rl : Bool) (free : BitVec 7) (t : Nat) (h : Hd) :
    hdCursorDisplayShift x true rl free t h =
      { h with shift := h.shift + (if rl then 1 else -1), busyUntil := t + x.command } := by
  cases rl <;> rfl

/-- Settles O54: a cursor move in DDRAM counts by the table of R173. -/
theorem cursorAndShiftWords : Obligations.CursorAndShiftWords := by
  intro s rl x h
  have hexec (sc : Bool) : exec (.hdCursorDisplayShift sc rl x) s = .next { s with
      hd := hdCursorDisplayShift s.par.tExec sc rl (Config.freeAddress s.draws) s.now s.hd
      draws := s.draws + 1 } := by
    rw [exec, execHdCursorDisplayShift, onHd_of_accepts h]
    rfl
  refine ⟨⟨_, rfl, ?_⟩, ⟨movedAc s.hd rl (Config.freeAddress s.draws), fun htarget => ?_, ?_⟩⟩
  · rw [hexec, hdCursorDisplayShift_display]
  · rw [movedAc, htarget]
    exact countsTo_stepAc s.hd.ac rl s.hd.n
  · rw [hexec, hdCursorDisplayShift_cursor]

/-- The addresses backed with one line or two (R172), by their numbers. -/
theorem ddramBacked_iff (n : Bool) (a : BitVec 7) : ddramBacked n a = true ↔
    if n then a.toNat ≤ 0x27 ∨ (0x40 ≤ a.toNat ∧ a.toNat ≤ 0x67) else a.toNat ≤ 0x4F := by
  cases n <;> simp [ddramBacked, BitVec.le_def]

theorem hdSetDdramAddr_of_backed {h : Hd} {a : BitVec 7} (hb : ddramBacked h.n a = true) (x : ExecTimes) (t : Nat) :
    hdSetDdramAddr x a t h = { h with ac := a, target := .ddram, busyUntil := t + x.command } :=
  if_pos hb

theorem hdSetDdramAddr_of_unbacked {h : Hd} {a : BitVec 7} (hb : ¬ ddramBacked h.n a = true) (x : ExecTimes)
    (t : Nat) : hdSetDdramAddr x a t h = { h with fault := some .badDdramAddress } :=
  if_neg hb

/-- Settles O55. -/
theorem addressWords : Obligations.AddressWords := by
  intro s h
  refine ⟨fun _ => next_onHd_of_accepts h rfl, fun a => ⟨fun hb => ?_, fun hb => ?_⟩⟩
  · exact next_onHd_of_accepts h (hdSetDdramAddr_of_backed ((ddramBacked_iff _ a).2 hb) _ _)
  · exact next_onHd_of_accepts h (hdSetDdramAddr_of_unbacked (fun h => hb ((ddramBacked_iff _ a).1 h)) _ _)

theorem hdWriteData_ddram {h : Hd} (htarget : h.target = .ddram) (x : ExecTimes) (d : Byte) (t : Nat) :
    hdWriteData x d t h =
      { ddramWrite h.ac d h with ac := stepAc h.ac h.id h.n, busyUntil := t + x.data } := by
  rw [hdWriteData, htarget]

theorem hdWriteData_cgram {h : Hd} (htarget : h.target = .cgram) (x : ExecTimes) (d : Byte) (t : Nat) :
    hdWriteData x d t h =
      { cgramWrite (h.ac.extractLsb' 0 6) d h with ac := stepCg h.ac h.id, busyUntil := t + x.data } := by
  rw [hdWriteData, htarget]

/-- In CGRAM the counter moves by one modulo 64 (R173). -/
theorem toNat_stepCg (a : BitVec 7) (up : Bool) :
    ((stepCg a up).toNat : Int) = ((a.toNat : Int) + (if up then 1 else -1)) % 64 := by
  cases up <;> simp [stepCg] <;> omega

/-- Settles O56, by the target of the word: read after write in that memory, and the counter's step. -/
theorem writeDataStoresOneByte : Obligations.WriteDataStoresOneByte := by
  intro s d h
  refine ⟨_, next_onHd_of_accepts h rfl, ?_⟩
  have hread (a : BitVec 7) := ddramRead_ddramWrite s.hd s.hd.ac d a
  have hcgread (a : BitVec 6) := cgramRead_cgramWrite s.hd (s.hd.ac.extractLsb' 0 6) d a
  cases htarget : s.hd.target with
  | ddram =>
    rw [hdWriteData_ddram htarget]
    refine ⟨rfl, h.fault, htarget, rfl, rfl, rfl, rfl, rfl, rfl, fun _ => ⟨?_, fun a ha => ?_, fun _ => rfl, ?_⟩, ?_⟩
    · exact (hread s.hd.ac).trans (if_pos rfl)
    · exact (hread a).trans (if_neg ha)
    · exact countsTo_stepAc _ _ _
    · simp
  | cgram =>
    rw [hdWriteData_cgram htarget]
    refine ⟨rfl, h.fault, htarget, rfl, rfl, rfl, rfl, rfl, rfl, ?_, fun _ => ⟨?_, fun a ha => ?_, fun _ => rfl, ?_⟩⟩
    · simp
    · exact (hcgread _).trans (if_pos rfl)
    · exact (hcgread a).trans (if_neg ha)
    · exact toNat_stepCg _ _

/-! ### What a controller makes of single transfers (42_hd44780_bus_words R162, 70_reset_and_hazards R313) -/

section
variable {h : Hd} {t : Nat} (hf : h.fault = none) (ht : h.busyUntil ≤ t) (x : ExecTimes) (q : Bool) (w : BusWidth)
  (nib : BitVec 4) (addr : BitVec 7) (rs : Bool) (d : Byte)
include hf ht

theorem hdReceive_eight (hm : h.mode = .eight) : hdReceive x q w nib addr rs d t h =
    hdExecute x addr rs (highLines w d) (lowLines w nib d) t h := by
  rw [hdReceive, hdAccept_of_accepting hf ht, hdTake, hm]

theorem hdReceive_four_high (hm : h.mode = .four) (hp : h.phase = .high) : hdReceive x q w nib addr rs d t h =
    { h with phase := .low (fourModeNibble q w d) rs } := by
  rw [hdReceive, hdAccept_of_accepting hf ht, hdTake, hm, hp]

theorem hdReceive_four_low_same (hm : h.mode = .four) {hi : BitVec 4} (hp : h.phase = .low hi rs) :
    hdReceive x q w nib addr rs d t h =
      hdExecute x addr rs hi (fourModeNibble q w d) t { h with phase := .high } := by
  rw [hdReceive, hdAccept_of_accepting hf ht, hdTake, hm, hp]
  exact if_neg (fun hne => hne rfl)

theorem hdReceive_four_low_changed (hm : h.mode = .four) {hi : BitVec 4} {r : Bool} (hp : h.phase = .low hi r)
    (hr : r ≠ rs) : hdReceive x q w nib addr rs d t h = { h with fault := some .rsChangedMidByte } := by
  rw [hdReceive, hdAccept_of_accepting hf ht, hdTake, hm, hp]
  exact if_pos hr

/-- Two transfers with one RS level, to a controller in Four mode between bytes: the byte of their two nibbles. -/
theorem hdReceive_four_pair (hm : h.mode = .four) (hp : h.phase = .high) (d' : Byte) {t' : Nat} (htt : t ≤ t') :
    hdReceive x q w nib addr rs d' t' (hdReceive x q w nib addr rs d t h) =
      hdExecute x addr rs (fourModeNibble q w d) (fourModeNibble q w d') t' h := by
  rw [hdReceive_four_high hf ht x q w nib addr rs d hm hp,
    hdReceive_four_low_same (h := { h with phase := .low (fourModeNibble q w d) rs }) hf (ht.trans htt) _ _ _ _ _ _ _
      hm rfl, ← hp]

end

/-- `execute` of a command byte, RS = 0. -/
def hdCommand (x : ExecTimes) (free : BitVec 7) (b : Byte) (t : Nat) (h : Hd) : Hd :=
  hdExecute x free false (b.extractLsb' 4 4) (b.extractLsb' 0 4) t h

section
variable (x : ExecTimes) (free : BitVec 7) (t : Nat) (h : Hd)

theorem hdCommand_clear : hdCommand x free 0x01 t h = hdClearDisplay x t h := by
  simp [hdCommand, hdExecute]

theorem hdCommand_home : hdCommand x free 0x02 t h = hdReturnHome x t h := by
  simp [hdCommand, hdExecute]

theorem hdCommand_displayOn : hdCommand x free 0x0C t h = hdDisplayControl x true false false t h := by
  simp [hdCommand, hdExecute]

theorem hdCommand_fs4 : hdCommand x free 0x20 t h = hdFunctionSet x false false false t h := by
  simp [hdCommand, hdExecute]

theorem hdCommand_fs8 : hdCommand x free 0x38 t h = hdFunctionSet x true true false t h := by
  simp [hdCommand, hdExecute]

end

/-- Clear and then home, each a whole byte to a controller in Eight mode. -/
theorem hdReceive_clear_home {h : Hd} {t t' : Nat} (hf : h.fault = none) (ht : h.busyUntil ≤ t) (x : ExecTimes)
    (q q' : Bool) (nib : BitVec 4) (addr : BitVec 7) (hm : h.mode = .eight) (hclear : t + x.clear ≤ t') :
    hdReceive x q' .eightBit nib addr false 0x02 t' (hdReceive x q .eightBit nib addr false 0x01 t h) =
      hdReturnHome x t' (hdClearDisplay x t h) := by
  have hcleared : hdReceive x q .eightBit nib addr false 0x01 t h = hdClearDisplay x t h :=
    (hdReceive_eight hf ht x q .eightBit nib addr false 0x01 hm).trans (hdCommand_clear x addr t h)
  rw [hcleared]
  exact (hdReceive_eight (h := hdClearDisplay x t h) hf hclear x q' .eightBit nib addr false 0x02 hm).trans
    (hdCommand_home x addr t' _)

/-- The byte `0x2?` is a function set with DL = 0, its N and F in the low nibble (30_encoding R86, R87). -/
theorem hdExecute_functionSet_four (x : ExecTimes) (free : BitVec 7) (lo : BitVec 4) (t : Nat) (h : Hd) :
    hdExecute x free false 2#4 lo t h = { h with
      mode := .four, phase := .high, n := lo.getLsbD 3, f := lo.getLsbD 2, busyUntil := t + x.command } := rfl

/-- The word of a high nibble with RS = 0 and the low nibble of the nibble-mode select. -/
theorem fields_of_nibbleSelect_word : ∀ hi : BitVec 4, (0#1 ++ hi ++ 2#4).getLsbD 8 = false ∧
    (0#1 ++ hi ++ 2#4).extractLsb' 4 4 = hi ∧ (0#1 ++ hi ++ 2#4).extractLsb' 0 4 = 2#4 := by
  decide

theorem exec_nibbleModeSelect {s : State} {h : Hd}
    (hhd : hdReceive s.par.tExec (recovering s) .fourBit (Config.freeNibble s.draws) (Config.freeAddress s.draws) false
      0x02 s.now s.hd = h) :
    exec .nibbleModeSelect s = .next { s with hd := h, draws := s.draws + 1 } := by
  rw [← hhd]
  rfl

/-- Settles O58, by the mode and the phase in which the nibble arrives. -/
theorem nibbleModeSelectLeavesBootMode : Obligations.NibbleModeSelectLeavesBootMode := by
  intro s h
  refine ⟨fun hm => ⟨(Config.freeNibble s.draws).getLsbD 3, (Config.freeNibble s.draws).getLsbD 2,
    exec_nibbleModeSelect ?_⟩, fun hm hp => exec_nibbleModeSelect ?_,
    fun hi hm hp => exec_nibbleModeSelect ?_, fun hi hm hp => ?_⟩
  · rw [hdReceive_eight h.fault h.rested _ _ _ _ _ _ _ hm]
    exact hdExecute_functionSet_four _ _ _ _ _
  · rw [hdReceive_four_high h.fault h.rested _ _ _ _ _ _ _ hm hp, fourModeNibble_fourBit]
    rfl
  · exact hdReceive_four_low_changed h.fault h.rested _ _ _ _ _ _ _ hm hp (by decide)
  · obtain ⟨t, hexec, hhd⟩ := leavesHd_decodeBus9 (s := { s with hd := { s.hd with phase := .high } })
      ⟨h.fault, h.rested⟩ (0#1 ++ hi ++ 2#4)
    refine ⟨t, hexec, exec_nibbleModeSelect ?_⟩
    obtain ⟨hrs, hhi, hlo⟩ := fields_of_nibbleSelect_word hi
    rw [hhd, hrs, hhi, hlo, hdReceive_four_low_same h.fault h.rested _ _ _ _ _ _ _ hm hp, fourModeNibble_fourBit]
    rfl

/-- Settles O60: in Four mode two transfers are one byte (`hdReceive_four_pair`), each misread byte is a word of its
own, and after 0x30 the rest of the EightBit initialisation is taken whole. -/
theorem desynchronisedControllerMisreads : Obligations.DesynchronisedControllerMisreads := by
  intro x nib addr t1 t2 t3 t4 h hf hm hp h1 h12 h23 h34
  have hread22 (q : Bool) : hdReceive x q .fourBit nib addr false 0x2 t2
      (hdReceive x q .fourBit nib addr false 0x2 t1 h) =
      { h with mode := .four, phase := .high, n := false, f := false, busyUntil := t2 + x.command } := by
    rw [hdReceive_four_pair hf h1 x q .fourBit nib addr false 0x2 hm hp 0x2 h12, fourModeNibble_fourBit]
    exact hdExecute_functionSet_four x addr 2#4 t2 h
  have hrecovered : hdReceive x true .eightBit nib addr false 0x0C t2
      (hdReceive x true .eightBit nib addr false 0x38 t1 h) =
      { h with mode := .eight, n := false, f := false, busyUntil := t2 + x.command } :=
    hdReceive_four_pair hf h1 x true .eightBit nib addr false 0x38 hm hp 0x0C h12
  refine ⟨fun q w rs d d' => ?_, fun q => ?_, fun q rs d => ?_, ?_, hrecovered, fun hclear => ?_⟩
  · rw [hdReceive_four_high hf h1 x q w nib addr rs d hm hp,
      hdReceive_four_low_changed (h := { h with phase := .low (fourModeNibble q w d) rs }) hf (h1.trans h12) _ _ _ _ _
        _ _ hm rfl (by cases rs <;> decide)]
  · rw [hread22 q, hdReceive_four_pair (h := { h with
      mode := .four, phase := .high, n := false, f := false, busyUntil := t2 + x.command }) hf h23 _ _ _ _ _ _ _ rfl
      rfl _ h34, fourModeNibble_fourBit]
    rfl
  · rw [hdReceive_four_high hf h1 x q .eightBit nib addr rs d hm hp]
    cases q <;> rfl
  · have hbacked : ddramBacked h.n 0x0C = true := by cases h.n <;> rfl
    exact (hdReceive_four_pair hf h1 x false .eightBit nib addr false 0x38 hm hp 0x0C h12).trans
      (hdSetDdramAddr_of_backed hbacked x t2)
  · rw [hrecovered, hdReceive_clear_home (h := { h with
      mode := .eight, n := false, f := false, busyUntil := t2 + x.command }) hf h23 x _ _ _ _ rfl hclear]
    exact ⟨hf, rfl, rfl, rfl⟩

/-! ### The rendered rows (42_hd44780_bus_words R180, 41_display_driver R151) -/

/-- The DDRAM address of a column of a row (20_memory R62). -/
def rowCell (row k : Nat) : BitVec 7 := BitVec.ofNat 7 (rowBase row + k)

theorem rowBase_cases (row : Nat) : rowBase row = 0x00 ∨ rowBase row = 0x40 := by
  rw [rowBase]
  split
  · exact .inl rfl
  · exact .inr rfl

theorem rowCell_inj {row row' k k' : Nat} (hk : k < 16) (hk' : k' < 16) (h : rowCell row k = rowCell row' k') :
    rowBase row = rowBase row' ∧ k = k' := by
  have h := congrArg BitVec.toNat h
  simp only [rowCell, BitVec.toNat_ofNat] at h
  rcases rowBase_cases row with hr | hr <;> rcases rowBase_cases row' with hr' | hr' <;> rw [hr, hr'] at h ⊢ <;> omega

/-- Inside a row the counter goes on by one: no wrap point of R173 lies there. -/
theorem stepAc_rowCell (row : Nat) {k : Nat} (hk : k < 15) (n : Bool) :
    stepAc (rowCell row k) true n = rowCell row (k + 1) := by
  have hall : ∀ base ∈ [0x00, 0x40], ∀ n : Bool, ∀ k < 15,
      stepAc (BitVec.ofNat 7 (base + k)) true n = BitVec.ofNat 7 (base + (k + 1)) := by decide
  exact hall _ (by simpa using rowBase_cases row) n k hk

/-- The row selects of both rows, at the addresses of their first columns (41_display_driver R130). -/
theorem hdCommand_rowSelect {p : Params} (h1 : p.rowCmd1 = 0x80) (h2 : p.rowCmd2 = 0xC0) {row : Nat} {rowCmd : Byte}
    (hrow : rowCommand p row = some rowCmd) (x : ExecTimes) (free : BitVec 7) (t : Nat) (h : Hd) :
    hdCommand x free rowCmd t h = { h with ac := rowCell row 0, target := .ddram, busyUntil := t + x.command } := by
  rw [rowCommand, h1, h2] at hrow
  split at hrow
  next hr =>
    cases hrow
    subst hr
    exact hdSetDdramAddr_of_backed (a := 0x00) (by cases h.n <;> rfl) x t
  next hr =>
    split at hrow
    next hr2 =>
      cases hrow
      subst hr2
      exact hdSetDdramAddr_of_backed (a := 0x40) (by cases h.n <;> rfl) x t
    next => cases hrow

theorem hdExecute_data (x : ExecTimes) (free : BitVec 7) (b : Byte) (t : Nat) (h : Hd) :
    hdExecute x free true (b.extractLsb' 4 4) (b.extractLsb' 0 4) t h = hdWriteData x b t h := by
  have hb : b.extractLsb' 4 4 ++ b.extractLsb' 0 4 = b.extractLsb' 0 8 :=
    BitVec.extractLsb'_append_extractLsb'_eq_extractLsb' rfl
  rw [hdExecute, if_pos rfl, hb, BitVec.extractLsb'_eq_self]

/-- Readiness for the next byte looks at the fault, the busy time, the mode and the phase. -/
theorem HdReady.of_same {w : BusWidth} {t t' : Nat} {h h' : Hd} (hr : HdReady w t h) (hf : h'.fault = none)
    (hb : h'.busyUntil ≤ t') (hmode : h'.mode = h.mode) (hphase : h'.phase = h.phase) : HdReady w t' h' where
  fault := hf
  rested := hb
  mode := by
    rw [hmode, hphase]
    exact hr.mode

/-- Block and controller are ready for a row write: the controller can take the next byte, it counts up, and no word of
a row keeps it busy longer than a hold of E. -/
structure RowReady (c : DisplayCfg) (s : State) : Prop where
  wired : Wired c s
  hd : HdReady c.width (max s.now s.fgReady + Config.tEnableHigh) s.hd
  counting : s.hd.id = true
  command : s.par.tExec.command ≤ Config.tEnableHigh
  data : s.par.tExec.data ≤ Config.tEnableHigh

/-- So it is after a byte that leaves the mode, the phase and the counting alone, and the controller busy for no longer
than a hold. -/
theorem RowReady.of_byteDone {c : DisplayCfg} {rs : Bool} {b : Byte} {s t : State} (h : RowReady c s)
    (d : ByteDone c rs b s t) (hf : t.hd.fault = none) (hb : t.hd.busyUntil ≤ t.now + Config.tEnableHigh)
    (hmode : t.hd.mode = s.hd.mode) (hphase : t.hd.phase = s.hd.phase) (hid : t.hd.id = s.hd.id) : RowReady c t where
  wired := d.wired
  hd := h.hd.of_same hf (by rw [d.fgReady, Nat.max_self]; exact hb) hmode hphase
  counting := hid.trans h.counting
  command := d.par ▸ h.command
  data := d.par ▸ h.data

/-- The address counter stands at column `k` of a row, if there is such a column. -/
structure AtColumn (row k : Nat) (h : Hd) : Prop where
  target : h.target = .ddram
  ac : k < 16 → h.ac = rowCell row k

theorem runMicro_rowSelect {c : DisplayCfg} {s : State} (hs : RowReady c s) (h1 : s.par.rowCmd1 = 0x80)
    (h2 : s.par.rowCmd2 = 0xC0) {row : Nat} {rowCmd : Byte} (hrow : rowCommand s.par row = some rowCmd) :
    let t := runMicro (sendByte c false rowCmd) s
    RowReady c t ∧ t.par = s.par ∧ AtColumn row 0 t.hd ∧ ∀ a, ddramRead t.hd a = ddramRead s.hd a := by
  intro t
  have d : ByteDone c false rowCmd s t := runMicro_sendByte hs.wired false rowCmd
  obtain ⟨free, hexec⟩ := d.executes hs.hd
  have hhd := hexec.trans (hdCommand_rowSelect h1 h2 hrow _ free _ _)
  refine ⟨hs.of_byteDone d ?_ ?_ ?_ ?_ ?_, d.par, ⟨?_, fun _ => ?_⟩, fun a => ?_⟩ <;> rw [hhd]
  · exact hs.hd.fault
  · exact Nat.add_le_add_left hs.command _
  · rfl

/-- What characters sent from column `k` on leave: the next column, the characters in theirs, every other address as
before. -/
structure CharsDone (c : DisplayCfg) (row k : Nat) (l : List Byte) (s t : State) : Prop where
  ready : RowReady c t
  par : t.par = s.par
  column : AtColumn row (k + l.length) t.hd
  written : ∀ j (hj : j < l.length), ddramRead t.hd (rowCell row (k + j)) = l[j]
  kept : ∀ a, (∀ j, k ≤ j → j < 16 → a ≠ rowCell row j) → ddramRead t.hd a = ddramRead s.hd a

theorem runMicro_char {c : DisplayCfg} {row k : Nat} {s : State} (hs : RowReady c s) (hcol : AtColumn row k s.hd)
    (hk : k < 16) (b : Byte) :
    let t := runMicro (sendByte c true b) s
    RowReady c t ∧ t.par = s.par ∧ AtColumn row (k + 1) t.hd ∧
      ∀ a, ddramRead t.hd a = if a = rowCell row k then b else ddramRead s.hd a := by
  intro t
  have d : ByteDone c true b s t := runMicro_sendByte hs.wired true b
  obtain ⟨free, hexec⟩ := d.executes hs.hd
  have hhd := hexec.trans ((hdExecute_data _ free b _ _).trans (hdWriteData_ddram hcol.target _ b _))
  refine ⟨hs.of_byteDone d ?_ ?_ ?_ ?_ ?_, d.par, ⟨?_, fun hk' => ?_⟩, fun a => ?_⟩ <;> rw [hhd]
  · exact hs.hd.fault
  · exact Nat.add_le_add_left hs.data _
  · rfl
  · rfl
  · rfl
  · exact hcol.target
  · rw [hcol.ac hk, hs.counting]
    exact stepAc_rowCell row (by omega) _
  · rw [← hcol.ac hk]
    exact ddramRead_ddramWrite s.hd s.hd.ac b a

theorem runMicro_chars {c : DisplayCfg} {row : Nat} (l : List Byte) {k : Nat} {s : State} (hs : RowReady c s)
    (hcol : AtColumn row k s.hd) (hk : k + l.length ≤ 16) : CharsDone c row k l s (runMicro (sendChars c l) s) := by
  induction l generalizing k s with
  | nil => exact ⟨hs, rfl, hcol, fun _ hj => absurd hj (Nat.not_lt_zero _), fun _ _ => rfl⟩
  | cons b l ih =>
    rw [List.length_cons] at hk
    obtain ⟨hs1, hpar1, hcol1, hread1⟩ := runMicro_char hs hcol (by omega) b
    rw [sendChars, runMicro_append]
    generalize runMicro (sendByte c true b) s = s1 at hs1 hpar1 hcol1 hread1
    have h := ih hs1 hcol1 (by omega)
    refine ⟨h.ready, h.par.trans hpar1, ?_, fun j hj => ?_, fun a ha => ?_⟩
    · rw [List.length_cons, Nat.add_comm l.length, ← Nat.add_assoc]
      exact h.column
    · cases j with
      | zero =>
        rw [h.kept _ fun j hj hj16 heq => ?_, hread1]
        · exact if_pos rfl
        · obtain ⟨_, hkj⟩ := rowCell_inj (show k + 0 < 16 by omega) hj16 heq
          omega
      | succ j =>
        have hw := h.written j (by simpa using hj)
        rwa [Nat.add_assoc, Nat.add_comm 1] at hw
    · rw [h.kept a fun j hj => ha j (by omega), hread1]
      exact if_neg (ha k (Nat.le_refl k) (by omega))

/-- What a row write under the parameters `p` leaves: its row, and the other one as before. -/
structure LineDone (p : Params) (c : DisplayCfg) (row : Nat) (text : List Byte) (s t : State) : Prop where
  ready : RowReady c t
  par : t.par = p
  shown : renderedRow t.hd row = lineChars p.pad text
  other : ∀ row', rowBase row' ≠ rowBase row → renderedRow t.hd row' = renderedRow s.hd row'

section
variable {p : Params} {c : DisplayCfg} {s : State} (hs : RowReady c s) (hpar : s.par = p) (h1 : p.rowCmd1 = 0x80)
  (h2 : p.rowCmd2 = 0xC0)
include hs hpar h1 h2

theorem runMicro_line {row : Nat} {rowCmd : Byte} (hrow : rowCommand p row = some rowCmd) (text : List Byte) :
    LineDone p c row text s (runMicro (lineSteps p c rowCmd text) s) := by
  subst hpar
  obtain ⟨hs1, hpar1, hcol1, hread1⟩ := runMicro_rowSelect hs h1 h2 hrow
  have hlen := lineChars_length s.par.pad text
  have h := runMicro_chars (lineChars s.par.pad text) hs1 hcol1 (by omega)
  rw [lineSteps, runMicro_append]
  refine ⟨h.ready, h.par.trans hpar1, ?_, fun row' hne => ?_⟩
  · refine List.ext_getElem (by simp [renderedRow, Config.cols, hlen]) fun j hj hj' => ?_
    have hw := h.written j hj'
    rw [Nat.zero_add] at hw
    rw [← hw]
    simp [renderedRow, rowCell]
  · refine List.map_congr_left fun k hk => ?_
    refine (h.kept _ fun j _ hj heq => hne ?_).trans (hread1 _)
    exact (rowCell_inj (List.mem_range.1 hk) hj heq).1

/-- The second of two rows leaves the first. -/
theorem runMicro_twoLines (text1 text2 : List Byte) :
    let t := runMicro (lineSteps p c p.rowCmd1 text1 ++ lineSteps p c p.rowCmd2 text2) s
    RowReady c t ∧ renderedRow t.hd 1 = lineChars p.pad text1 ∧ renderedRow t.hd 2 = lineChars p.pad text2 := by
  have hline1 := runMicro_line (row := 1) hs hpar h1 h2 rfl text1
  have hline2 := runMicro_line (row := 2) hline1.ready hline1.par h1 h2 rfl text2
  rw [runMicro_append]
  exact ⟨hline2.ready, (hline2.other 1 (by decide)).trans hline1.shown, hline2.shown⟩

end

theorem rowReady_started {s : State} {c : DisplayCfg} (hpins : PinsConsistent s) (hcfg : s.cfg = some c)
    (hctl : ControllerReady c.width s) (hcmd : s.par.tExec.command ≤ Config.tEnableHigh)
    (hdata : s.par.tExec.data ≤ Config.tEnableHigh) (op : DisplayOp) (steps : List MicroStep) :
    RowReady c (started op steps s) where
  wired := wired_started hpins hcfg op steps
  hd := ⟨hctl.fault, hctl.rested.trans (Nat.add_le_add_right (le_max_left _ _) _), hctl.mode⟩
  counting := hctl.counting
  command := hcmd
  data := hdata

theorem length_lineSteps (p : Params) (c : DisplayCfg) (rowCmd : Byte) (text : List Byte) :
    (lineSteps p c rowCmd text).length = 17 * byteSteps c.width := by
  rw [lineBytes_flat, length_sendBytes, lineBytes_length]

theorem foregroundSteps_started_of_length (op : DisplayOp) {steps : List MicroStep} {n : Nat}
    (hn : n = steps.length) (hpos : 0 < n) (s : State) :
    foregroundSteps n (started op steps s) = { runMicro steps (started op steps s) with fg := .idle } := by
  subst hn
  exact foregroundSteps_started op (List.ne_nil_of_length_pos hpos) s

/-- Settles O41: `runMicro_line` for each row, the second row of two leaving the first alone. -/
theorem rowWriteRendersTheRow : Obligations.RowWriteRendersTheRow := by
  intro s c hpins hfg hcfg hctl h1 h2 hcmd hdata
  have hready := rowReady_started hpins hcfg hctl hcmd hdata
  refine ⟨fun text row hrow => ?_, fun text1 text2 => ?_⟩
  · obtain ⟨rowCmd, hrowCmd, hother⟩ : ∃ rowCmd, rowCommand s.par row = some rowCmd ∧
        rowBase (3 - row) ≠ rowBase row := by
      rcases hrow with rfl | rfl
      · exact ⟨_, rfl, by decide⟩
      · exact ⟨_, rfl, by decide⟩
    refine ⟨_, exec_writeLine_of_configured hfg hcfg hrowCmd text, ?_⟩
    intro u
    have hu : u = _ := foregroundSteps_started_of_length .writeLine
      (by rw [length_lineSteps]; cases c.width <;> rfl) (by cases c.width <;> decide) s
    have hline := runMicro_line (hready .writeLine (lineSteps s.par c rowCmd text)) rfl h1 h2 hrowCmd text
    rw [hu]
    exact ⟨rfl, hline.ready.hd.fault, hline.shown, hline.other _ hother⟩
  · refine ⟨_, exec_writeTwoLines_of_configured hfg hcfg text1 text2, ?_⟩
    intro u
    have hu : u = _ := foregroundSteps_started_of_length .writeTwoLines
      (by rw [List.length_append, length_lineSteps, length_lineSteps]; cases c.width <;> rfl)
      (by cases c.width <;> decide) s
    obtain ⟨hdone, hrow1, hrow2⟩ := runMicro_twoLines (hready .writeTwoLines
      (lineSteps s.par c s.par.rowCmd1 text1 ++ lineSteps s.par c s.par.rowCmd2 text2)) rfl h1 h2 text1 text2
    rw [hu]
    exact ⟨rfl, hdone.hd.fault, hrow1, hrow2⟩

/-! ### The initialisation (42_hd44780_bus_words R181-R183, 41_display_driver R122-R124, R146) -/

theorem HdReady.mono {w : BusWidth} {t t' : Nat} {h : Hd} (hr : HdReady w t h) (ht : t ≤ t') : HdReady w t' h :=
  hr.of_same hr.fault (hr.rested.trans ht) rfl rfl

theorem Wired.withReady {c : DisplayCfg} {s : State} (h : Wired c s) (n : Nat) : Wired c { s with fgReady := n } :=
  ⟨h.cfg, h.wellFormed, h.width, h.levels⟩

/-- A settle wait, after a byte or a nibble whose hold has been waited. -/
theorem runMicro_wait {s : State} (h : s.fgReady = s.now) (d : Nat) :
    runMicro [.wait d] s = { s with fgReady := s.now + d } := by
  have hnow : max s.now s.fgReady = s.now := by omega
  rw [runMicro, foregroundTime, waitUntil, hnow]
  rfl

/-- A transfer with its RS level. -/
theorem runMicro_sendRs_xfer {c : DisplayCfg} {s : State} (h : Wired c s) (rs : Bool) (v : Byte) :
    XferDone c rs v s (runMicro (sendRs c rs ++ xfer c (maskIn c.width v c.pins)) s) := by
  obtain ⟨out, tr, hrun, hwired, hlevel⟩ := runMicro_sendRs h rs
  rw [runMicro_append, hrun]
  have x := runMicro_xfer hwired hlevel v
  exact ⟨x.wired, x.par, x.now.trans (by simp), x.fgReady, x.transfers, x.hd, x.rsLevel, x.eLevel⟩

/-- Block and controller are ready for the next command of the initialisation, under the parameters `p`. -/
structure InitReady (p : Params) (c : DisplayCfg) (s : State) : Prop where
  par : s.par = p
  wired : Wired c s
  hd : HdReady c.width (max s.now s.fgReady + Config.tEnableHigh) s.hd

/-- A part of the initialisation has run: it did `act` to the controller and made the transfers `made`. -/
structure InitDone (p : Params) (c : DisplayCfg) (act : Hd → Hd) (made : List (Bool × Byte)) (s t : State) : Prop where
  ready : InitReady p c t
  hd : t.hd = act s.hd
  transfers : t.transfers.map Transfer.content = made ++ s.transfers.map Transfer.content

theorem InitDone.trans {p : Params} {c : DisplayCfg} {act act' : Hd → Hd} {made made' : List (Bool × Byte)}
    {s t u : State} (a : InitDone p c act made s t) (b : InitDone p c act' made' t u) :
    InitDone p c (act' ∘ act) (made' ++ made) s u where
  ready := b.ready
  hd := b.hd.trans (congrArg act' a.hd)
  transfers := by rw [b.transfers, a.transfers, List.append_assoc]

/-- A command that, executed at time `n` in the times of R164, a settle wait of 1020 and the next hold outlast: the controller ends ready for
width `w`, its busy time over at `n + 1520` (R181, 70_reset_and_hazards R312). -/
def SettlesIn (w : BusWidth) (b : Byte) (act : Nat → Hd → Hd) : Prop :=
  ∀ free n h, HdReady w n h → hdCommand {} free b n h = act n h ∧ HdReady w (n + 1520) (act n h)

theorem settlesIn_displayOn (w : BusWidth) : SettlesIn w 0x0C (hdDisplayControl {} true false false) :=
  fun free n h hr => ⟨hdCommand_displayOn _ free n h, hr.of_same hr.fault (by simp [hdDisplayControl]) rfl rfl⟩

theorem settlesIn_clear (w : BusWidth) : SettlesIn w 0x01 (hdClearDisplay {}) :=
  fun free n h hr => ⟨hdCommand_clear _ free n h, hr.of_same hr.fault (by simp [hdClearDisplay]) rfl rfl⟩

theorem settlesIn_home (w : BusWidth) : SettlesIn w 0x02 (hdReturnHome {}) :=
  fun free n h hr => ⟨hdCommand_home _ free n h, hr.of_same hr.fault (by simp [hdReturnHome]) rfl rfl⟩

theorem settlesIn_fs8 : SettlesIn .eightBit 0x38 (hdFunctionSet {} true true false) :=
  fun free n h hr => ⟨hdCommand_fs8 _ free n h, ⟨hr.fault, by simp [hdFunctionSet], rfl⟩⟩

theorem settlesIn_fs4 : SettlesIn .fourBit 0x20 (hdFunctionSet {} false false false) :=
  fun free n h hr => ⟨hdCommand_fs4 _ free n h, ⟨hr.fault, by simp [hdFunctionSet], rfl, rfl⟩⟩

/-- The parameters that 42_hd44780_bus_words R181-R183 speak of: the initialisation's own bytes, the execution times of
R164, and a settle wait that, with the next hold, outlasts the longest of them. -/
structure InitParams (p : Params) : Prop where
  times : p.tExec = {}
  settle : 1020 ≤ p.tSettle
  fs4 : p.fs4 = 0x20
  fs8 : p.fs8 = 0x38
  dispOn : p.dispOn = 0x0C
  clear : p.clear = 0x01
  home : p.home = 0x02
  nibbleSel : p.nibbleSel = 0x2

/-- Ready again once the settle wait is over, whatever has kept the controller busy for at most 1520. -/
theorem HdReady.settled {p : Params} (hp : InitParams p) {w : BusWidth} {n : Nat} {h : Hd}
    (hr : HdReady w (n + 1520) h) : HdReady w (max n (n + p.tSettle) + Config.tEnableHigh) h := by
  refine hr.mono ?_
  have hsettle := hp.settle
  rw [Config.tEnableHigh]
  omega

section
variable {p : Params} {c : DisplayCfg} {s : State} (hp : InitParams p)
include hp

theorem runMicro_initCommand (hs : InitReady p c s) {b : Byte} {act : Nat → Hd → Hd}
    (hact : SettlesIn c.width b act) :
    ∃ n, InitDone p c (act n) (byteTransfers c.width false b) s (runMicro (initCommand p c b) s) := by
  have d := runMicro_sendByte hs.wired false b
  rw [initCommand, runMicro_append, runMicro_wait d.fgReady]
  generalize runMicro (sendByte c false b) s = t at d
  obtain ⟨free, hexec⟩ := d.executes hs.hd
  rw [hs.par, hp.times] at hexec
  have hn : max s.now s.fgReady + Config.tEnableHigh ≤ t.now := by
    rw [d.now]
    cases c.width <;> simp [Config.tEnableHigh]
  obtain ⟨hcmd, hready⟩ := hact free t.now s.hd (hs.hd.mono hn)
  have hhd : t.hd = act t.now s.hd := hexec.trans hcmd
  exact ⟨t.now, ⟨d.par.trans hs.par, d.wired.withReady _, (hhd ▸ hready).settled hp⟩, hhd,
    d.transfers⟩

/-- The commands that both initialisations end with (41_display_driver R122, R124). -/
theorem runMicro_initTail (hs : InitReady p c s) : ∃ n1 n2 n3, InitDone p c
    (hdReturnHome {} n3 ∘ hdClearDisplay {} n2 ∘ hdDisplayControl {} true false false n1)
    (byteTransfers c.width false 0x02 ++ (byteTransfers c.width false 0x01 ++ byteTransfers c.width false 0x0C)) s
    (runMicro (initCommand p c p.dispOn ++ initCommand p c p.clear ++ initCommand p c p.home) s) := by
  rw [hp.dispOn, hp.clear, hp.home, runMicro_append, runMicro_append]
  obtain ⟨n1, d1⟩ := runMicro_initCommand hp hs (settlesIn_displayOn _)
  obtain ⟨n2, d2⟩ := runMicro_initCommand hp d1.ready (settlesIn_clear _)
  obtain ⟨n3, d3⟩ := runMicro_initCommand hp d2.ready (settlesIn_home _)
  exact ⟨n1, n2, n3, (d1.trans d2).trans d3⟩

end

/-- The controller after the initialisation in width `w` (42_hd44780_bus_words R182, R183). -/
structure BroughtUp (w : BusWidth) (h : Hd) : Prop where
  n : h.n = (match w with | .eightBit => true | .fourBit => false)
  f : h.f = false
  d : h.d = true
  c : h.c = false
  b : h.b = false
  id : h.id = true
  ac : h.ac = 0
  target : h.target = .ddram
  ddram : ∀ a, ddramRead h a = 0x20

theorem broughtUp_of_tail {w : BusWidth} {h : Hd} (hn : h.n = (match w with | .eightBit => true | .fourBit => false))
    (hf : h.f = false) (n1 n2 n3 : Nat) :
    BroughtUp w (hdReturnHome {} n3 (hdClearDisplay {} n2 (hdDisplayControl {} true false false n1 h))) :=
  ⟨hn, hf, rfl, rfl, rfl, rfl, rfl, rfl, fun _ => rfl⟩

/-- A controller in its boot mode that can take the first transfer (41_display_driver R125). -/
structure Booted (t : Nat) (h : Hd) : Prop where
  fault : h.fault = none
  rested : h.busyUntil ≤ t
  mode : h.mode = .eight

theorem LaunchReady.booted {s : State} (h : LaunchReady s) : Booted s.now s.hd :=
  ⟨by rw [h.boot]; rfl, h.rested, by rw [h.boot]; rfl⟩

/-- The transfers of the initialisation, newest first (41_display_driver R146). -/
def initTransfers : BusWidth → List (Bool × Byte)
  | .eightBit => [(false, 0x02), (false, 0x01), (false, 0x0C), (false, 0x38)]
  | .fourBit => [(false, 0x2), (false, 0x0), (false, 0x1), (false, 0x0), (false, 0xC), (false, 0x0), (false, 0x0),
      (false, 0x2), (false, 0x2)]

/-- The initialisation has run. -/
structure InitRun (p : Params) (c : DisplayCfg) (made : List (Bool × Byte)) (s t : State) : Prop where
  ready : InitReady p c t
  up : BroughtUp c.width t.hd
  transfers : t.transfers.map Transfer.content = made ++ s.transfers.map Transfer.content

section
variable {p : Params} {c : DisplayCfg} {s : State} (hp : InitParams p) (hpar : s.par = p) (hw : Wired c s)
  (hboot : Booted (max s.now s.fgReady + Config.tEnableHigh) s.hd)
include hp hpar hw hboot

theorem runMicro_initSteps_eight (h8 : c.width = .eightBit) :
    InitRun p c (initTransfers .eightBit) s (runMicro (initSteps p c) s) := by
  have hsteps : initSteps p c = initCommand p c 0x38 ++
      (initCommand p c p.dispOn ++ initCommand p c p.clear ++ initCommand p c p.home) := by
    simp [initSteps, h8, hp.fs8]
  have hs : InitReady p c s := ⟨hpar, hw, by rw [h8]; exact ⟨hboot.fault, hboot.rested, hboot.mode⟩⟩
  obtain ⟨n0, d0⟩ := runMicro_initCommand hp hs (by rw [h8]; exact settlesIn_fs8)
  obtain ⟨n1, n2, n3, d⟩ := runMicro_initTail hp d0.ready
  rw [hsteps, runMicro_append]
  refine ⟨d.ready, ?_, ?_⟩
  · rw [d.hd, d0.hd, h8]
    exact broughtUp_of_tail rfl rfl n1 n2 n3
  · rw [(d0.trans d).transfers, h8]
    rfl

/-- The nibble-mode select takes the controller from its boot mode into Four mode, between bytes (R182). -/
theorem runMicro_nibbleSelect (h4 : c.width = .fourBit) : ∃ n f n0, InitDone p c
    (fun h => { h with mode := .four, phase := .high, n := n, f := f, busyUntil := n0 }) [(false, 0x02)] s
    (runMicro (sendRs c false ++ xfer c (mask4 (p.nibbleSel.setWidth 8) c.pins) ++ [.wait p.tSettle]) s) := by
  have hmask : mask4 (p.nibbleSel.setWidth 8) c.pins = maskIn c.width 0x02 c.pins := by
    rw [hp.nibbleSel, h4]
    rfl
  have hcarried : carried c.width 0x02 = 0x02 := by
    rw [h4]
    rfl
  have x := runMicro_sendRs_xfer hw false 0x02
  rw [hmask, runMicro_append, runMicro_wait x.fgReady]
  generalize runMicro (sendRs c false ++ xfer c (maskIn c.width 0x02 c.pins)) s = t at x
  obtain ⟨q, nib, addr, hrecv⟩ := x.hd
  have hhd : t.hd = { s.hd with
      mode := .four, phase := .high, n := nib.getLsbD 3, f := nib.getLsbD 2
      busyUntil := t.now + s.par.tExec.command } := by
    rw [hrecv, hcarried, h4]
    exact (hdReceive_eight hboot.fault (x.now ▸ hboot.rested) _ q _ nib addr false 0x02 hboot.mode).trans
      (hdExecute_functionSet_four _ addr nib t.now s.hd)
  have hready : HdReady c.width (t.now + 1520) t.hd := by
    rw [hhd, h4, hpar, hp.times]
    exact ⟨hboot.fault, by simp, rfl, rfl⟩
  have htransfers : t.transfers.map Transfer.content = [(false, 0x02)] ++ s.transfers.map Transfer.content := by
    rw [x.transfers, hcarried]
    rfl
  exact ⟨_, _, _, ⟨x.par.trans hpar, x.wired.withReady _, hready.settled hp⟩, hhd, htransfers⟩

theorem runMicro_initSteps_four (h4 : c.width = .fourBit) :
    InitRun p c (initTransfers .fourBit) s (runMicro (initSteps p c) s) := by
  have hsteps : initSteps p c =
      (sendRs c false ++ xfer c (mask4 (p.nibbleSel.setWidth 8) c.pins) ++ [.wait p.tSettle]) ++
        (initCommand p c 0x20 ++
          (initCommand p c p.dispOn ++ initCommand p c p.clear ++ initCommand p c p.home)) := by
    simp [initSteps, h4, hp.fs4]
  obtain ⟨_, _, _, dn⟩ := runMicro_nibbleSelect hp hpar hw hboot h4
  obtain ⟨n0, d0⟩ := runMicro_initCommand hp dn.ready (by rw [h4]; exact settlesIn_fs4)
  obtain ⟨n1, n2, n3, d⟩ := runMicro_initTail hp d0.ready
  rw [hsteps, runMicro_append, runMicro_append]
  refine ⟨d.ready, ?_, ?_⟩
  · rw [d.hd, d0.hd, h4]
    exact broughtUp_of_tail rfl rfl n1 n2 n3
  · rw [((dn.trans d0).trans d).transfers, h4]
    rfl

theorem runMicro_initSteps : InitRun p c (initTransfers c.width) s (runMicro (initSteps p c) s) := by
  cases h : c.width with
  | eightBit => exact runMicro_initSteps_eight hp hpar hw hboot h
  | fourBit => exact runMicro_initSteps_four hp hpar hw hboot h

end

theorem length_initSteps (p : Params) (c : DisplayCfg) :
    (initSteps p c).length = (match c.width with | .eightBit => 28 | .fourBit => 55) := by
  cases hw : c.width <;> simp [initSteps, initCommand, sendRs, xfer, length_sendByte, byteSteps, hw]

/-- The state that CONFIGURE starts from: wired as it says, the controller still as it was. -/
def configured (pins : PinAssignment) (w : BusWidth) (s : State) : State :=
  { s with
    now := max s.now s.fgReady
    cfg := some ⟨pins, w⟩
    pinMode := programPins (usedMask ⟨pins, w⟩) s.pinMode
    fg := .busy .configure (initSteps s.par ⟨pins, w⟩) 0 }

/-- Settles O42: the initialisation of either width, run from its start. -/
theorem configureBringsUpTheController : Obligations.ConfigureBringsUpTheController := by
  intro s pins w hpins hlaunch hfg hcfg hwf hw htimes hsettle hfs4 hfs8 hdisp hclear hhome hnib
  have hp : InitParams s.par := ⟨htimes, hsettle, hfs4, hfs8, hdisp, hclear, hhome, hnib⟩
  refine ⟨configured pins w s, exec_configure_of_accepted hfg hcfg hwf hw, ?_⟩
  have hwired : Wired ⟨pins, w⟩ (configured pins w s) := ⟨rfl, hwf, hw, hpins.levels⟩
  have hboot : Booted (max (configured pins w s).now (configured pins w s).fgReady + Config.tEnableHigh) s.hd :=
    ⟨hlaunch.booted.fault, by have := hlaunch.rested; simp only [configured]; omega, hlaunch.booted.mode⟩
  have hrun := foregroundSteps_run_all .configure (initSteps s.par ⟨pins, w⟩) (configured pins w s)
    (List.ne_nil_of_length_pos (length_initSteps_pos _ _)) rfl
  rw [length_initSteps] at hrun
  intro u
  have hu : u = { runMicro (initSteps s.par ⟨pins, w⟩) (configured pins w s) with fg := .idle } := hrun
  have hinit := runMicro_initSteps (s := configured pins w s) hp rfl hwired hboot
  rw [hu]
  obtain ⟨hn, hf, hd, hc, hb, hid, hac, htarget, hddram⟩ := hinit.up
  exact ⟨rfl, ⟨hinit.ready.hd.fault, hinit.ready.hd.rested, hinit.ready.hd.mode, hid⟩, hn, hf, hd, hc, hb, hac,
    htarget, hddram, hinit.transfers⟩

end Sys2Proof.Machine
end

section
/-! PROOFS. The statements of the debounce engine (43_debounce): the Environment's levels, the edge and expiry handlers,
the consistency of the lines, and what follows for a bounce and for a held button. -/

namespace Sys2Proof.Machine

/-! ### The Environment (43_debounce R199-R201, 30_encoding R91) -/

theorem isRawEdge_iff (p : Params) (old new : Bool) :
    isRawEdge p old new = true ↔ old ≠ new ∧ new = pressedLevel p := by
  simp [isRawEdge]

theorem isRawEdge_eq_false_iff (p : Params) (old new : Bool) :
    isRawEdge p old new = false ↔ old = new ∨ new ≠ pressedLevel p := by
  rw [← Bool.not_eq_true, isRawEdge_iff, not_and_or, ne_eq, not_not]

/-- A level changes the line's level; a raw edge also becomes pending delivery on an enabled line, and is remembered
on a disabled one under PENDING_REPLAY. -/
theorem setLevel_eq (c : Channel) (l : Bool) (s : State) : setLevel c l s = { s with
    button := chanSet s.button c
      ⟨l, isRawEdge s.par (chanGet s.button c).level l && (chanGet s.ch c).ie || (chanGet s.button c).edgePending⟩
    ch := if isRawEdge s.par (chanGet s.button c).level l && !(chanGet s.ch c).ie && s.par.pendingReplay
      then chanSet s.ch c { chanGet s.ch c with pending := true } else s.ch } := by
  cases hraw : isRawEdge s.par (chanGet s.button c).level l with
  | false => simp [setLevel, hraw, setButton]
  | true =>
    cases hie : (chanGet s.ch c).ie with
    | true => simp [setLevel, hraw, rawEdge, hie, setButton]
    | false => cases hreplay : s.par.pendingReplay <;>
        simp [setLevel, hraw, rawEdge, suppressedEdge, hie, hreplay, setButton, setCh]

/-- Settles O10: `setLevel_eq` in each of the four cases. -/
theorem environmentActions : Obligations.EnvironmentActions := by
  intro s rest hr
  refine ⟨fun us hq => step_event hr hq, fun c l hq => ?_⟩
  have hstep : step s = .next (setLevel c l { s with queue := rest }) := step_event hr hq
  rw [setLevel_eq] at hstep
  dsimp only
  refine ⟨fun hnot => ?_, fun hne hl hie => ?_, fun hne hl hie hoff => ?_, fun hne hl hie hon => ?_⟩
  · have hraw := (isRawEdge_eq_false_iff s.par (chanGet s.button c).level l).2 hnot
    simp [hstep, hraw]
  all_goals have hraw := (isRawEdge_iff s.par (chanGet s.button c).level l).2 ⟨hne, hl⟩
  · simp [hstep, hraw, hie]
  · simp [hstep, hraw, hie, hoff]
  · simp [hstep, hraw, hie, hon]

/-! ### The handlers (43_debounce R200, R203, R204) -/

/-- Settles O43: `edgeIsr_cases`, whose condition is the two premises. -/
theorem edgeArmsTheTimer : Obligations.EdgeArmsTheTimer := by
  intro s c
  rcases edgeIsr_cases c s with ⟨hdeliverable, h⟩ | ⟨hnot, h⟩
  · rw [edgeDeliverable, Bool.and_eq_true] at hdeliverable
    exact ⟨fun _ _ => congrArg Host.Outcome.next h, fun hno => by simp [hdeliverable] at hno⟩
  · refine ⟨fun hpending hie => ?_, fun _ => congrArg Host.Outcome.next h⟩
    simp [edgeDeliverable, hpending, hie] at hnot

theorem expireIsr_of_disarmed {c : Channel} {s : State} (hd : (chanGet s.ch c).deadline = none) :
    expireIsr c s = s := by
  rw [expireIsr, hd]

/-- The expiry of an armed timer, at its deadline or later: the command if the level is the pressed one, and a line that
listens again. -/
theorem expireIsr_of_armed {c : Channel} {s : State} {d : Nat} (hd : (chanGet s.ch c).deadline = some d) :
    expireIsr c s = { dispatchIfPressed c (waitUntil d s) with
      ch := chanSet s.ch c ⟨false, true, none, Level.ofBool (chanGet s.button c).level, false⟩
      button := if s.par.pendingReplay && (chanGet s.ch c).pending
        then chanSet s.button c { chanGet s.button c with edgePending := true } else s.button } := by
  rw [expireIsr, hd]
  exact expireBody_eq c (waitUntil d s)

theorem ofBool_eq_ite (l : Bool) : Level.ofBool l = if l then .high else .low := by
  cases l <;> rfl

/-- Settles O44: the state between is that of the dispatch, if there is one, at the time of the sample. -/
theorem expirySamplesAndRearms : Obligations.ExpirySamplesAndRearms := by
  intro s c
  refine ⟨fun hd => congrArg Host.Outcome.next (expireIsr_of_disarmed hd), fun d hd => ?_⟩
  refine ⟨dispatchIfPressed c (waitUntil d s), ?_, ?_⟩
  · by_cases hpressed : (chanGet s.button c).level = pressedLevel s.par
    · have hdispatch : dispatchIfPressed c (waitUntil d s) = dispatch c (waitUntil d s) := if_pos hpressed
      rw [if_pos hpressed, hdispatch]
      exact exec_commandOf c _
    · rw [if_neg hpressed]
      exact if_neg hpressed
  · rw [← ofBool_eq_ite]
    exact congrArg Host.Outcome.next (expireIsr_of_armed hd)

/-! ### Independence of the channels (43_debounce R210) -/

/-- The debounce state and the line of channel `c` agree. -/
structure SameChannel (c : Channel) (s t : State) : Prop where
  ch : chanGet t.ch c = chanGet s.ch c
  button : chanGet t.button c = chanGet s.button c

theorem SameLines.channel {s t : State} (h : SameLines s t) (c : Channel) : SameChannel c s t :=
  ⟨by rw [h.ch], by rw [h.button]⟩

theorem edgeIsr_sameChannel {c c' : Channel} (hne : c' ≠ c) (s : State) : SameChannel c' s (edgeIsr c s) := by
  rcases edgeIsr_cases c s with ⟨_, h⟩ | ⟨_, h⟩ <;> rw [h]
  · exact ⟨chanGet_chanSet_other _ hne _, chanGet_chanSet_other _ hne _⟩
  · exact ⟨rfl, rfl⟩

theorem expireIsr_sameChannel {c c' : Channel} (hne : c' ≠ c) (s : State) : SameChannel c' s (expireIsr c s) := by
  cases hd : (chanGet s.ch c).deadline with
  | none =>
    rw [expireIsr_of_disarmed hd]
    exact ⟨rfl, rfl⟩
  | some d =>
    rw [expireIsr_of_armed hd]
    refine ⟨chanGet_chanSet_other _ hne _, ?_⟩
    dsimp only
    split
    · exact chanGet_chanSet_other _ hne _
    · rfl

theorem setLevel_sameChannel {c c' : Channel} (hne : c' ≠ c) (l : Bool) (s : State) :
    SameChannel c' s (setLevel c l s) := by
  rw [setLevel_eq]
  refine ⟨?_, chanGet_chanSet_other _ hne _⟩
  dsimp only
  split
  · exact chanGet_chanSet_other _ hne _
  · rfl

theorem tickIsr_sameLines (s : State) : SameLines s (tickIsr s) := by
  show SameLines s (tickBody (tickTime s))
  rw [tickBody_eq, tickTime]
  split <;> exact ⟨rfl, rfl⟩

/-- Only its two handlers write a channel. -/
theorem exec_sameChannel {c : Channel} {i : Instr} {s t : State} (hedge : i ≠ .edge c) (hexpire : i ≠ .debounceExpire c)
    (h : exec i s = .next t) : SameChannel c s t := by
  rcases exec_cases h with
    ⟨hi, -⟩ | ⟨_, _, hdisplay⟩ | ⟨_, _, _, _, rfl | ⟨_, rfl⟩⟩ | ⟨_, _, _, rfl⟩
  · cases i <;> simp only [isHandlerOp, Bool.false_eq_true] at hi <;> obtain rfl := Host.Outcome.next.inj h
    case tick => exact (tickIsr_sameLines s).channel c
    case edge c' => exact edgeIsr_sameChannel (fun hc => hedge (by rw [hc])) s
    case debounceExpire c' => exact expireIsr_sameChannel (fun hc => hexpire (by rw [hc])) s
    case cmdStart => exact (dispatch_lines .start s).1.channel c
    case cmdStop => exact (dispatch_lines .stop s).1.channel c
    case cmdLap => exact (dispatch_lines .lap s).1.channel c
    case cmdReset => exact (dispatch_lines .reset s).1.channel c
  · rcases hdisplay with ⟨_, _, _, rfl⟩ | ⟨_, _, _, _, _, rfl, _⟩ | ⟨_, _, _, _, _, _, _, rfl⟩ <;> exact ⟨rfl, rfl⟩
  · exact ⟨rfl, rfl⟩
  · exact ⟨rfl, rfl⟩
  · exact ⟨rfl, rfl⟩

/-- Settles O24: a channel is written by its own two handlers only. -/
theorem channelsAreIndependent : Obligations.ChannelsAreIndependent := by
  intro c c' s t hne h
  have hsame : SameChannel c' s t := by
    rcases h with h | h <;> exact exec_sameChannel (by simp [hne.symm]) (by simp [hne.symm]) h
  exact ⟨hsame.ch, hsame.button⟩

/-! ### The consistency of the lines (43_debounce R205) -/

/-- EDGE suppresses, disables and arms; an expiry undoes the three; no other instruction writes a channel. -/
theorem exec_keepsLines {i : Instr} {s t : State} (hs : LinesConsistent s) (h : exec i s = .next t) :
    LinesConsistent t := by
  intro c
  by_cases hedge : i = .edge c
  · obtain rfl := Host.Outcome.next.inj (hedge ▸ h)
    rcases edgeIsr_cases c s with ⟨_, h⟩ | ⟨_, h⟩ <;> rw [h]
    · rw [chanGet_chanSet_same]
      exact ⟨rfl, rfl⟩
    · exact hs c
  by_cases hexpire : i = .debounceExpire c
  · obtain rfl := Host.Outcome.next.inj (hexpire ▸ h)
    cases hd : (chanGet s.ch c).deadline with
    | none =>
      rw [expireIsr_of_disarmed hd]
      exact hs c
    | some d =>
      rw [expireIsr_of_armed hd, chanGet_chanSet_same]
      exact ⟨rfl, rfl⟩
  rw [(exec_sameChannel hedge hexpire h).ch]
  exact hs c

theorem setLevel_keepsLines {s : State} (hs : LinesConsistent s) (c : Channel) (l : Bool) :
    LinesConsistent (setLevel c l s) := by
  rcases setLevel_ch c l s with h | ⟨_, h⟩
  · exact fun c' => h ▸ hs c'
  · intro c'
    rw [h]
    by_cases hc : c' = c
    · rw [hc, chanGet_chanSet_same]
      exact hs c
    · rw [chanGet_chanSet_other _ hc]
      exact hs c'

/-- Settles O16: of a step's parts only the two handlers write an enable, a suppression or a timer. -/
theorem stepKeepsLinesConsistent : Obligations.StepKeepsLinesConsistent := by
  intro s t hs h
  refine step_keeps (hbook := fun _ _ _ _ _ hu => hu) (hexec := fun _ _ _ hu hx => exec_keepsLines hu hx)
    (hraise := fun _ _ _ hu => hu) (hfg := ?_) (htime := fun _ _ hu _ => hu)
    (hlevel := fun c l _ hu => setLevel_keepsLines hu c l) hs h
  intro u hu c
  obtain ⟨_, _, hlines, _⟩ := foregroundStep_frame u
  rw [hlines.ch]
  exact hu c

/-! ### A quiet line (43_debounce R208) -/

/-- No edge of `c` is pending delivery, and its timer is disarmed. -/
structure LineQuiet (c : Channel) (s : State) : Prop where
  edgePending : (chanGet s.button c).edgePending = false
  deadline : (chanGet s.ch c).deadline = none

theorem LineQuiet.of_same {c : Channel} {s t : State} (h : LineQuiet c s) (hc : SameChannel c s t) : LineQuiet c t :=
  ⟨by rw [hc.button, h.edgePending], by rw [hc.ch, h.deadline]⟩

/-- The handlers of a quiet line change nothing. -/
theorem exec_of_quiet {c : Channel} {s : State} (h : LineQuiet c s) {i : Instr}
    (hi : i = .edge c ∨ i = .debounceExpire c) : exec i s = .next s := by
  rcases hi with rfl | rfl
  · exact (edgeArmsTheTimer s c).2 (.inl h.edgePending)
  · exact (expirySamplesAndRearms s c).1 h.deadline

theorem exec_keepsQuiet {c : Channel} {i : Instr} {s t : State} (hs : LineQuiet c s) (h : exec i s = .next t) :
    LineQuiet c t := by
  by_cases hi : i = .edge c ∨ i = .debounceExpire c
  · rw [exec_of_quiet hs hi] at h
    exact Host.Outcome.next.inj h ▸ hs
  · obtain ⟨hedge, hexpire⟩ := not_or.1 hi
    exact hs.of_same (exec_sameChannel hedge hexpire h)

/-- A level that is no raw edge of an enabled line leaves the line quiet. -/
theorem setLevel_keepsQuiet {c : Channel} {s : State} (hs : LineQuiet c s) {l : Bool}
    (hl : l = (chanGet s.button c).level ∨ l ≠ pressedLevel s.par ∨ (chanGet s.ch c).ie = false) :
    LineQuiet c (setLevel c l s) := by
  have hno : (isRawEdge s.par (chanGet s.button c).level l && (chanGet s.ch c).ie) = false := by
    rw [Bool.and_eq_false_iff, isRawEdge_eq_false_iff]
    tauto
  rw [setLevel_eq]
  refine ⟨by simp [hno, hs.edgePending], ?_⟩
  dsimp only
  split
  · rw [chanGet_chanSet_same]
    exact hs.deadline
  · exact hs.deadline

/-- An expiry without a remembered edge leaves the line quiet. -/
theorem expireIsr_quiet {c : Channel} {s : State} (hp : (chanGet s.button c).edgePending = false)
    (hno : s.par.pendingReplay = false ∨ (chanGet s.ch c).pending = false) : LineQuiet c (expireIsr c s) := by
  cases hd : (chanGet s.ch c).deadline with
  | none =>
    rw [expireIsr_of_disarmed hd]
    exact ⟨hp, hd⟩
  | some d =>
    have hforgotten : (s.par.pendingReplay && (chanGet s.ch c).pending) = false := Bool.and_eq_false_iff.2 hno
    rw [expireIsr_of_armed hd]
    exact ⟨by simp [hforgotten, hp], by simp⟩

/-- The step whose instruction `stepInstr` names executes it; the event taken and the draw are all that went before. -/
theorem step_executes {i : Instr} {s t : State} (h : step s = .next t) (hi : stepInstr s = some i) :
    ∃ q k, exec i { s with queue := q, draws := k } = .next t := by
  obtain ⟨hr, ⟨hq, hd, hn, hx⟩ | ⟨hq, hn, _⟩ | ⟨e, rest, hq, hrun⟩⟩ := step_cases h
  · simp only [stepInstr, hq, hn, Option.map_some, Option.some.injEq] at hi
    exact ⟨s.queue, s.draws + 1, hi ▸ hx⟩
  · simp [stepInstr, hq, hn] at hi
  · refine ⟨rest, s.draws, ?_⟩
    cases e with
    | request f =>
      cases hf : decode f with
      | error err => simp [stepInstr, hq, hf] at hi
      | ok j =>
        simp only [stepInstr, hq, hf, Option.ite_none_left_eq_some, Option.some.injEq] at hi
        obtain ⟨hscheduled, rfl⟩ := hi
        simpa [runEvent, runFrame, hf, runInstr, hscheduled] using hrun
    | handlerRequest f =>
      cases hf : decode f with
      | error err => simp [stepInstr, hq, hf] at hi
      | ok j =>
        simp only [stepInstr, hq, hf, Option.ite_none_left_eq_some, Option.some.injEq, Bool.or_eq_true, not_or] at hi
        obtain ⟨⟨hmask, hop⟩, rfl⟩ := hi
        simpa [runEvent, runHandlerFrame, hf, hmask, Option.not_isSome_iff_eq_none.1 hop] using hrun
    | foreground | awaitIdle | read _ | maskInterrupts _ | level _ _ | advance _ => simp [stepInstr, hq] at hi

/-- A quiet line stays quiet in every step but a raw edge that reaches it enabled. -/
theorem step_keepsQuiet {c : Channel} {s t : State} (hs : LineQuiet c s) (h : step s = .next t)
    (hedge : ∀ l rest, s.queue = .level c l :: rest →
      l = (chanGet s.button c).level ∨ l ≠ pressedLevel s.par ∨ (chanGet s.ch c).ie = false) : LineQuiet c t := by
  have foreground : ∀ u, LineQuiet c u → LineQuiet c (foregroundStep u) := fun u hu => by
    obtain ⟨_, _, hlines, _⟩ := foregroundStep_frame u
    exact hu.of_same (hlines.channel c)
  obtain ⟨_, ⟨_, _, _, hx⟩ | ⟨_, _, rfl⟩ | ⟨e, rest, hq, hrun⟩⟩ := step_cases h
  · have hdrawn : LineQuiet c (drawn s) := ⟨hs.edgePending, hs.deadline⟩
    exact exec_keepsQuiet hdrawn hx
  · exact foreground s hs
  · have hs' : LineQuiet c { s with queue := rest } := ⟨hs.edgePending, hs.deadline⟩
    rcases runEvent_cases hrun with ⟨_, _, _, _, hx, _⟩ | ⟨_, _, rfl⟩ | ⟨q, rfl⟩ | ⟨_, _, _, rfl⟩ | rfl |
      ⟨c', l, rfl, rfl⟩ | ⟨_, _, rfl⟩
    · exact exec_keepsQuiet hs' hx
    · exact hs'.of_same ⟨rfl, rfl⟩
    · exact foreground _ ⟨hs.edgePending, hs.deadline⟩
    · exact hs'.of_same ⟨rfl, rfl⟩
    · exact hs'
    · by_cases hc : c = c'
      · subst hc
        exact setLevel_keepsQuiet hs' (hedge l rest hq)
      · exact hs'.of_same (setLevel_sameChannel hc l _)
    · exact hs'.of_same ⟨rfl, rfl⟩

/-- Settles O46: the expiry leaves the line quiet, a quiet line's handlers change nothing, and every step but the
raw edge keeps it quiet. -/
theorem noHoldOrRepeat : Obligations.NoHoldOrRepeat := by
  intro s t c
  refine ⟨fun h hp hno => ?_, fun h hp hd => ⟨fun hi => ?_, fun hedge => ?_⟩⟩
  · obtain rfl := Host.Outcome.next.inj h
    obtain ⟨hp', hd'⟩ := expireIsr_quiet hp hno
    exact ⟨hp', hd'⟩
  · obtain ⟨i, hi, hhandler⟩ : ∃ i, stepInstr s = some i ∧ (i = .edge c ∨ i = .debounceExpire c) := by
      rcases hi with hi | hi
      · exact ⟨_, hi, .inl rfl⟩
      · exact ⟨_, hi, .inr rfl⟩
    obtain ⟨q, k, hx⟩ := step_executes h hi
    have hquiet : LineQuiet c { s with queue := q, draws := k } := ⟨hp, hd⟩
    obtain rfl := Host.Outcome.next.inj ((exec_of_quiet hquiet hhandler).symm.trans hx)
    exact ⟨rfl, rfl, rfl, rfl, rfl, rfl⟩
  · obtain ⟨hp', hd'⟩ := step_keepsQuiet ⟨hp, hd⟩ h hedge
    exact ⟨hp', hd'⟩

/-! ### A bounce within the window (43_debounce R207) -/

/-- `s` with the debounce state `x` and the line `b` of channel `c`, at time `n`, with the events `q` to come. -/
def withLine (c : Channel) (x : ChannelState) (b : Button) (n : Nat) (q : List Event) (s : State) : State :=
  { s with ch := chanSet s.ch c x, button := chanSet s.button c b, now := n, queue := q }

theorem withLine_self (c : Channel) (q : List Event) (s : State) :
    withLine c (chanGet s.ch c) (chanGet s.button c) s.now q s = { s with queue := q } := by
  simp [withLine]

/-- The debounce state that EDGE leaves at time `n`. -/
def ChannelState.armed (x : ChannelState) (n : Nat) : ChannelState :=
  { x with ie := false, suppressed := true, deadline := some (n + Config.tDebounce) }

/-- The debounce state that an expiry leaves after the sample `l`. -/
def ChannelState.listening (l : Bool) : ChannelState := ⟨false, true, none, Level.ofBool l, false⟩

section
variable {c : Channel} {x : ChannelState} {b : Button} {n : Nat} {q : List Event} {s : State}

theorem step_withLine (hr : s.refused = false) (e : Event) :
    step (withLine c x b n (e :: q) s) = runEvent e (withLine c x b n q s) :=
  step_event (s := withLine c x b n (e :: q) s) hr rfl

theorem step_withLine_press (hr : s.refused = false) (hie : x.ie = true) (hb : b.level = !pressedLevel s.par) :
    step (withLine c x b n (.level c (pressedLevel s.par) :: q) s) =
      .next (withLine c x ⟨pressedLevel s.par, true⟩ n q s) := by
  have hraw : isRawEdge s.par b.level (pressedLevel s.par) = true := (isRawEdge_iff _ _ _).2 ⟨by simp [hb], rfl⟩
  rw [step_withLine hr, runEvent, setLevel_eq]
  simp [withLine, hraw, hie]

/-- On a disabled line, without PENDING_REPLAY, a level is no more than that: an edge is discarded. -/
theorem step_withLine_discards (hr : s.refused = false) (hreplay : s.par.pendingReplay = false) (hie : x.ie = false)
    (l : Bool) : step (withLine c x b n (.level c l :: q) s) = .next (withLine c x { b with level := l } n q s) := by
  rw [step_withLine hr, runEvent, setLevel_eq]
  simp [withLine, hreplay, hie]

theorem step_withLine_advance (hr : s.refused = false) (k : Nat) :
    step (withLine c x b n (.advance k :: q) s) = .next (withLine c x b (n + k) q s) :=
  step_withLine hr _

theorem step_withLine_request (hr : s.refused = false) (hmask : s.irqMasked = false) (i : Instr) :
    step (withLine c x b n (.request (encode i) :: q) s) = exec i (withLine c x b n q s) := by
  rw [step_withLine hr, runEvent, runFrame, decode_encode]
  exact runInstr_of_scheduled (.inl hmask)

theorem exec_withLine_edge (hie : x.ie = true) (hb : b.edgePending = true) :
    exec (.edge c) (withLine c x b n q s) = .next (withLine c (x.armed n) { b with edgePending := false } n q s) := by
  rw [(edgeArmsTheTimer _ c).1 (by simp [withLine, hb]) (by simp [withLine, hie])]
  simp [withLine, ChannelState.armed, Config.tDebounce]

/-- A command reads neither the lines nor the queue, and leaves them and the time. -/
theorem dispatch_withLine (c' : Channel) :
    dispatch c' (withLine c x b n q s) = withLine c x b n q (dispatch c' { s with now := n }) := by
  cases c' <;> cases hrun : s.running <;>
    simp [dispatch, startCommand, stopCommand, lapCommand, resetCommand, withLine, drawn, tickLateAfterReset, hrun]

theorem dispatchIfPressed_withLine : dispatchIfPressed c (withLine c x b n q s) =
    withLine c x b n q (if b.level = pressedLevel s.par then dispatch c { s with now := n } else s) := by
  have hlevel : (chanGet (withLine c x b n q s).button c).level = b.level := by simp [withLine]
  rw [dispatchIfPressed, hlevel, dispatch_withLine, apply_ite (withLine c x b n q)]
  rfl

/-- Without PENDING_REPLAY the expiry leaves what its command leaves, and a line that listens again. -/
theorem expireIsr_withLine {d : Nat} (hd : x.deadline = some d) (hreplay : s.par.pendingReplay = false) :
    expireIsr c (withLine c x b n q s) = withLine c (.listening b.level) b (max n d) q
      (if b.level = pressedLevel s.par then dispatch c { s with now := max n d } else s) := by
  have hwait : waitUntil d (withLine c x b n q s) = withLine c x b (max n d) q s := rfl
  rw [expireIsr_of_armed (d := d) (by simp [withLine, hd]), hwait, dispatchIfPressed_withLine]
  obtain ⟨hch, hbutton⟩ : SameLines s
      (if b.level = pressedLevel s.par then dispatch c { s with now := max n d } else s) := by
    split
    · obtain ⟨⟨hch, hbutton⟩, -⟩ := dispatch_lines c { s with now := max n d }
      exact ⟨hch, hbutton⟩
    · exact ⟨rfl, rfl⟩
  simp [withLine, ChannelState.listening, hreplay, hch, hbutton]

end

/-- The bounce up to its expiry: the edge opens a window in which every level is discarded. -/
theorem run_bounce {s : State} {c : Channel} (k : Nat) (l : Bool) (hr : s.refused = false) (hmask : s.irqMasked = false)
    (hreplay : s.par.pendingReplay = false) (hie : (chanGet s.ch c).ie = true)
    (hlevel : (chanGet s.button c).level = !pressedLevel s.par) :
    Host.Core.run Sys2Proof.core 7 { s with queue :=
        [.level c (pressedLevel s.par), .request (encode (.edge c)), .advance k, .level c (!pressedLevel s.par),
          .level c (pressedLevel s.par), .level c l, .request (encode (.debounceExpire c))] } =
      .next (expireIsr c (withLine c ((chanGet s.ch c).armed s.now) ⟨l, false⟩ (s.now + k) [] s)) := by
  rw [← withLine_self c, core_run_next (step_withLine_press hr hie hlevel),
    core_run_next ((step_withLine_request hr hmask _).trans (exec_withLine_edge hie rfl)),
    core_run_next (step_withLine_advance hr k), core_run_next (step_withLine_discards hr hreplay rfl _),
    core_run_next (step_withLine_discards hr hreplay rfl _), core_run_next (step_withLine_discards hr hreplay rfl l),
    core_run_next (step_withLine_request hr hmask _)]
  rfl

/-- Settles O45: after the run the stopwatch is that of the sampled command, or untouched. -/
theorem bounceDispatchesAtMostOnce : Obligations.BounceDispatchesAtMostOnce := by
  intro s c k l hr hmask hreplay hie hlevel hk
  refine ⟨_, run_bounce k l hr hmask hreplay hie hlevel, ?_⟩
  have hnow : max (s.now + k) (s.now + Config.tDebounce) = s.now + Config.tDebounce := by omega
  rw [expireIsr_withLine rfl hreplay, hnow]
  refine ⟨rfl, rfl, by simp [withLine, ChannelState.listening], by simp [withLine], ?_⟩
  split
  case isTrue => exact ⟨_, exec_commandOf c _, ⟨rfl, rfl, rfl, rfl, rfl, rfl⟩⟩
  case isFalse => exact ⟨rfl, rfl, rfl, rfl, rfl, rfl⟩

end Sys2Proof.Machine
end

section
/-! PROOFS. The statements of timekeeping (44_timekeeping): the tick, the four commands, what may move `elapsed` and
`lap_delta`, and the sub-field carry chain. -/

namespace Sys2Proof.Machine

/-! ### The tick (44_timekeeping R232, R240) -/

theorem tickIsr_of_late {s : State} (hlate : s.tickLate = true) : tickIsr s = { s with
    tickLate := false
    elapsed := if s.running then incElapsed s.elapsed else s.elapsed } := by
  have htime : tickTime s = s := if_pos hlate
  show tickBody (tickTime s) = _
  rw [htime, tickBody_eq, if_pos hlate]

theorem tickIsr_of_not_late {s : State} (hlate : s.tickLate = false) : tickIsr s = { s with
    now := max s.now s.nextTick
    nextTick := s.nextTick + Config.tTick
    elapsed := if s.running then incElapsed s.elapsed else s.elapsed } := by
  have htime : tickTime s = waitUntil s.nextTick s := if_neg (by simp [hlate])
  show tickBody (tickTime s) = _
  rw [htime, tickBody_eq]
  simp [waitUntil, hlate]

/-- Settles O47: a firing that is not late waits for its time (`tickIsr_of_not_late`), a late one is served at once
(`tickIsr_of_late`). -/
theorem tickAdvancesWhileRunning : Obligations.TickAdvancesWhileRunning := by
  intro s
  exact ⟨fun hlate => congrArg Host.Outcome.next (tickIsr_of_not_late hlate),
    fun hlate => congrArg Host.Outcome.next (tickIsr_of_late hlate)⟩

/-! ### The commands (44_timekeeping R241-R244, R246, R248) -/

theorem startCommand_of_idle {s : State} (hidle : s.running = false) :
    startCommand s = { s with running := true } := if_neg (by simp [hidle])

theorem startCommand_of_running {s : State} (hrun : s.running = true) : startCommand s = s := if_pos hrun

theorem stopCommand_of_running {s : State} (hrun : s.running = true) :
    stopCommand s = { s with running := false } := if_pos hrun

theorem stopCommand_of_idle {s : State} (hidle : s.running = false) : stopCommand s = s := if_neg (by simp [hidle])

theorem lapCommand_of_running {s : State} (hrun : s.running = true) :
    lapCommand s = { s with lapDelta := lapDeltaOf s.par s.elapsed s.lapRef, lapRef := s.elapsed } := if_pos hrun

theorem lapCommand_of_idle {s : State} (hidle : s.running = false) : lapCommand s = s := if_neg (by simp [hidle])

theorem resetCommand_of_running {s : State} (hrun : s.running = true) : resetCommand s = s := if_pos hrun

theorem resetCommand_of_idle {s : State} (hidle : s.running = false) : resetCommand s = { s with
    elapsed := 0
    lapRef := 0
    lapDelta := .zero s.par.lapMode
    running := true
    tickLate := tickLateAfterReset (Config.freeLate s.draws) s
    nextTick := s.now + Config.tTick
    draws := s.draws + 1 } := if_neg (by simp [hidle])

/-- Settles O48: each command in the state it acts in, and in the one where it is silent. -/
theorem startRunsAndStopHalts : Obligations.StartRunsAndStopHalts := by
  intro s
  refine ⟨fun hidle => ?_, fun hrun => ?_, fun hrun => ?_, fun hidle => ?_, fun hidle => ?_, fun hrun => ?_⟩ <;>
    refine congrArg Host.Outcome.next ?_
  · exact startCommand_of_idle hidle
  · exact startCommand_of_running hrun
  · exact stopCommand_of_running hrun
  · exact stopCommand_of_idle hidle
  · exact lapCommand_of_idle hidle
  · exact resetCommand_of_running hrun

/-- The remainder is not negative, so that `toNat` keeps it. -/
theorem coe_subField (w a b : Nat) : (subField w a b : Int) = ((a : Int) - (b : Int)) % (2 ^ w : Nat) :=
  Int.toNat_of_nonneg (Int.emod_nonneg _ (by exact_mod_cast (Nat.two_pow_pos w).ne'))

/-- The flattened delta is below `ELAPSED_MOD`, so that its word holds it whole. -/
theorem lapDeltaOf_flattened {p : Params} (hmode : p.lapMode = .flattened) (e r : BitVec 32) :
    ∃ v : BitVec 32, (v.toNat : Int) = ((e.toNat : Int) - (r.toNat : Int)) % 360000 ∧
      lapDeltaOf p e r = .flat v := by
  refine ⟨_, ?_, by rw [lapDeltaOf, hmode]⟩
  rw [BitVec.toNat_ofNat, Config.elapsedMod]
  omega

theorem lapDeltaOf_subfieldNoBorrow {p : Params} (hmode : p.lapMode = .subfieldNoBorrow) (e r : BitVec 32) :
    lapDeltaOf p e r = .sub (subField p.wSub (mins e.toNat) (mins r.toNat))
      (subField p.wSub (secs e.toNat) (secs r.toNat)) (subField p.wSub (cents e.toNat) (cents r.toNat)) := by
  rw [lapDeltaOf, hmode]

/-- Settles O49: the running Lap stores `lapDeltaOf`, whose value is the difference in either mode. -/
theorem lapComputesTheDelta : Obligations.LapComputesTheDelta := by
  intro s hrun
  have hlap : exec .cmdLap s = .next { s with
      lapDelta := lapDeltaOf s.par s.elapsed s.lapRef, lapRef := s.elapsed } :=
    congrArg Host.Outcome.next (lapCommand_of_running hrun)
  refine ⟨fun hmode => ?_, fun hmode => ?_⟩
  · obtain ⟨v, hv, hdelta⟩ := lapDeltaOf_flattened hmode s.elapsed s.lapRef
    exact ⟨v, hv, by rw [hlap, hdelta]⟩
  · exact ⟨_, _, _, coe_subField _ _ _, coe_subField _ _ _, coe_subField _ _ _,
      by rw [hlap, lapDeltaOf_subfieldNoBorrow hmode]⟩

/-- Settles O50: the late firing is the draw, and only where one was due. -/
theorem resetRestartsTheStopwatch : Obligations.ResetRestartsTheStopwatch := by
  intro s hidle
  refine ⟨tickLateAfterReset (Config.freeLate s.draws) s, fun hlate => ?_,
    congrArg Host.Outcome.next (resetCommand_of_idle hidle)⟩
  rw [tickLateAfterReset, Bool.and_eq_true, decide_eq_true_eq] at hlate
  exact hlate.1

/-! ### What moves `elapsed` and `lap_delta` (44_timekeeping R247, 10_state R38) -/

/-- From `s` to `t` the instruction `i` moves `elapsed` and `lap_delta` only as R247 and R38 let it. -/
structure WatchMoves (i : Instr) (s t : State) : Prop where
  elapsed : t.elapsed ≠ s.elapsed → (i = .tick ∧ s.running = true) ∨
    ((i = .cmdReset ∨ i = .debounceExpire .reset) ∧ s.running = false ∧ t.elapsed = 0)
  lapDelta : t.lapDelta ≠ s.lapDelta → ((i = .cmdLap ∨ i = .debounceExpire .lap) ∧ s.running = true) ∨
    ((i = .cmdReset ∨ i = .debounceExpire .reset) ∧ s.running = false ∧ t.lapDelta = .zero s.par.lapMode)

theorem WatchMoves.of_eq {i : Instr} {s t : State} (helapsed : t.elapsed = s.elapsed)
    (hdelta : t.lapDelta = s.lapDelta) : WatchMoves i s t :=
  ⟨fun hne => absurd helapsed hne, fun hne => absurd hdelta hne⟩

/-- A tick moves `elapsed` only while running, and never `lap_delta`. -/
theorem tickIsr_watchMoves (s : State) : WatchMoves .tick s (tickIsr s) := by
  obtain ⟨helapsed, hdelta⟩ : (tickIsr s).elapsed = (if s.running then incElapsed s.elapsed else s.elapsed) ∧
      (tickIsr s).lapDelta = s.lapDelta := by
    cases hlate : s.tickLate with
    | true => rw [tickIsr_of_late hlate]; exact ⟨rfl, rfl⟩
    | false => rw [tickIsr_of_not_late hlate]; exact ⟨rfl, rfl⟩
  cases hrun : s.running with
  | true => exact ⟨fun _ => .inl ⟨rfl, hrun⟩, fun hne => absurd hdelta hne⟩
  | false => exact .of_eq (helapsed.trans (if_neg (by simp [hrun]))) hdelta

/-- Of the commands only Lap and Reset move them, each where it is no silent no-op; it counts as the command of its
channel or as the channel's expiry, whichever dispatches it. -/
theorem dispatch_watchMoves {i : Instr} {c : Channel} (hi : i = commandOf c ∨ i = .debounceExpire c) (s : State) :
    WatchMoves i s (dispatch c s) := by
  cases c <;> rw [dispatch] <;> cases hrun : s.running
  case start.false => rw [startCommand_of_idle hrun]; exact .of_eq rfl rfl
  case start.true => rw [startCommand_of_running hrun]; exact .of_eq rfl rfl
  case stop.false => rw [stopCommand_of_idle hrun]; exact .of_eq rfl rfl
  case stop.true => rw [stopCommand_of_running hrun]; exact .of_eq rfl rfl
  case lap.false => rw [lapCommand_of_idle hrun]; exact .of_eq rfl rfl
  case lap.true =>
    rw [lapCommand_of_running hrun]
    exact ⟨fun hne => absurd rfl hne, fun _ => .inl ⟨hi, hrun⟩⟩
  case reset.false =>
    rw [resetCommand_of_idle hrun]
    exact ⟨fun _ => .inr ⟨hi, hrun, rfl⟩, fun _ => .inr ⟨hi, hrun, rfl⟩⟩
  case reset.true => rw [resetCommand_of_running hrun]; exact .of_eq rfl rfl

theorem expireIsr_watchMoves (c : Channel) (s : State) : WatchMoves (.debounceExpire c) s (expireIsr c s) := by
  cases hd : (chanGet s.ch c).deadline with
  | none =>
    rw [expireIsr_of_disarmed hd]
    exact .of_eq rfl rfl
  | some d =>
    obtain ⟨helapsed, hdelta⟩ :
        WatchMoves (.debounceExpire c) (waitUntil d s) (dispatchIfPressed c (waitUntil d s)) := by
      rw [dispatchIfPressed]
      split
      · exact dispatch_watchMoves (.inr rfl) _
      · exact .of_eq rfl rfl
    rw [expireIsr_of_armed hd]
    exact ⟨helapsed, hdelta⟩

theorem exec_watchMoves {i : Instr} {s t : State} (h : exec i s = .next t) : WatchMoves i s t := by
  cases hi : isHandlerOp i with
  | false =>
    obtain ⟨hwatch, _, _⟩ := exec_noHandlerRan hi h
    exact .of_eq hwatch.elapsed hwatch.lapDelta
  | true =>
    cases i <;> simp only [isHandlerOp, Bool.false_eq_true] at hi <;> obtain rfl := Host.Outcome.next.inj h
    case tick => exact tickIsr_watchMoves s
    case edge c =>
      have hwatch := edgeIsr_stopwatch c s
      exact .of_eq hwatch.elapsed hwatch.lapDelta
    case debounceExpire c => exact expireIsr_watchMoves c s
    case cmdStart => exact dispatch_watchMoves (c := .start) (.inl rfl) s
    case cmdStop => exact dispatch_watchMoves (c := .stop) (.inl rfl) s
    case cmdLap => exact dispatch_watchMoves (c := .lap) (.inl rfl) s
    case cmdReset => exact dispatch_watchMoves (c := .reset) (.inl rfl) s

/-- The instruction that `runEvent_cases` has a queued frame execute is the one `stepInstr` names. -/
theorem stepInstr_of_request {s : State} {e : Event} {rest : List Event} {f : Frame} {i : Instr}
    (hq : s.queue = e :: rest) (he : e = .request f ∨ e = .handlerRequest f) (hf : decode f = .ok i)
    (hinside : e = .handlerRequest f → displayOpOf i = none ∧ s.irqMasked = false)
    (hmask : isHandlerOp i = true → s.irqMasked = false) : stepInstr s = some i := by
  rcases he with rfl | rfl
  · have hscheduled : ¬ (isHandlerOp i && s.irqMasked) = true := by simpa using hmask
    simp only [stepInstr, hq, hf]
    exact if_neg hscheduled
  · obtain ⟨hop, hm⟩ := hinside rfl
    simp [stepInstr, hq, hf, hop, hm]

/-- A step that executes no instruction leaves the stopwatch. -/
theorem step_stopwatch_of_no_instr {s t : State} (h : step s = .next t) (hnone : stepInstr s = none) :
    SameStopwatch s t := by
  obtain ⟨_, ⟨hq, hd, hserved, _⟩ | ⟨_, _, rfl⟩ | ⟨e, rest, hq, hrun⟩⟩ := step_cases h
  · simp [stepInstr, hq, hserved] at hnone
  · exact (foregroundStep_noHandlerRan s).watch
  · suffices hsame : NoHandlerRan { s with queue := rest } t from hsame.of_queue.watch
    rcases runEvent_cases hrun with ⟨f, i, he, hf, _, hinside, hmask⟩ | ⟨_, _, rfl⟩ | ⟨q, rfl⟩ | ⟨_, _, _, rfl⟩ |
      rfl | ⟨ch, l, _, rfl⟩ | ⟨_, _, rfl⟩
    · simp [stepInstr_of_request hq he hf hinside hmask] at hnone
    · exact .of_same ⟨rfl, rfl, rfl, rfl, rfl, rfl⟩ rfl
    · exact (foregroundStep_noHandlerRan { s with queue := q }).of_queue (s := { s with queue := rest })
    · exact .of_same ⟨rfl, rfl, rfl, rfl, rfl, rfl⟩ rfl
    · exact .of_same ⟨rfl, rfl, rfl, rfl, rfl, rfl⟩ rfl
    · exact setLevel_noHandlerRan ch l _
    · exact .of_same ⟨rfl, rfl, rfl, rfl, rfl, rfl⟩ rfl

/-- Settles O23: `exec_watchMoves` of every instruction; a step executes one (`step_executes`) or leaves the stopwatch
(`step_stopwatch_of_no_instr`). -/
theorem onlyTicksLapsAndResetsMoveTheStopwatch : Obligations.OnlyTicksLapsAndResetsMoveTheStopwatch := by
  refine ⟨fun i s t h => ?_, fun s t h => ?_⟩
  · obtain ⟨helapsed, hdelta⟩ := exec_watchMoves h
    exact ⟨helapsed, hdelta⟩
  · cases hi : stepInstr s with
    | none =>
      have hwatch := step_stopwatch_of_no_instr h hi
      exact .inl ⟨hwatch.elapsed, hwatch.lapDelta⟩
    | some i =>
      obtain ⟨q, k, hx⟩ := step_executes h hi
      obtain ⟨helapsed, hdelta⟩ := exec_watchMoves hx
      exact .inr ⟨i, rfl, helapsed, hdelta⟩

/-! ### The sub-field carry chain (44_timekeeping R233) -/

theorem incSub_of_no_carry {m s c : Nat} (hc : c + 1 ≠ 100) (hs : s ≠ 60) (hm : m ≠ 60) :
    incSub (m, s, c) = (m, s, c + 1) := by
  simp [incSub, hc, hs, hm]

theorem incSub_of_carry_to_secs {m s : Nat} (hs : s + 1 ≠ 60) (hm : m ≠ 60) :
    incSub (m, s, 99) = (m, s + 1, 0) := by
  simp [incSub, hs, hm]

theorem incSub_of_carry_to_mins {m : Nat} (hm : m + 1 ≠ 60) : incSub (m, 59, 99) = (m + 1, 0, 0) := by
  simp [incSub, hm]

theorem incSub_of_wrap : incSub (59, 59, 99) = (0, 0, 0) := rfl

/-- The sub-fields of a count, as the digits of its mixed-radix numeral. -/
theorem digits_of_count {e : Nat} (he : e < 360000) :
    e = 6000 * mins e + 100 * secs e + cents e ∧ mins e < 60 ∧ secs e < 60 ∧ cents e < 100 := by
  rw [mins, secs, cents]
  omega

/-- The digits are the sub-fields. -/
theorem displayedTime_of_digits {e m s c : Nat} (he : e = 6000 * m + 100 * s + c) (hs : s < 60) (hc : c < 100) :
    displayedTime e = (m, s, c) := by
  simp only [displayedTime, mins, secs, cents, Prod.mk.injEq]
  omega

/-- Settles O51: the carry ends in the centiseconds, in the seconds or in the minutes, or the counter wraps; each time
the digits of the next count are those that the chain leaves. -/
theorem subfieldsCarryLikeTheCounter : Obligations.SubfieldsCarryLikeTheCounter := by
  intro e he
  obtain ⟨hdigits, hm, hs, hc⟩ := digits_of_count he
  show displayedTime ((e + 1) % 360000) = incSub (mins e, secs e, cents e)
  generalize mins e = m, secs e = s, cents e = c at hdigits hm hs hc ⊢
  by_cases hcents : c + 1 = 100
  · obtain rfl : c = 99 := by omega
    by_cases hsecs : s + 1 = 60
    · obtain rfl : s = 59 := by omega
      by_cases hmins : m + 1 = 60
      · obtain rfl : m = 59 := by omega
        rw [incSub_of_wrap]
        exact displayedTime_of_digits (by omega) (by decide) (by decide)
      · rw [incSub_of_carry_to_mins hmins]
        exact displayedTime_of_digits (by omega) (by decide) (by decide)
    · rw [incSub_of_carry_to_secs hsecs hm.ne]
      exact displayedTime_of_digits (by omega) (by omega) (by decide)
  · rw [incSub_of_no_carry hcents hs.ne hm.ne]
    exact displayedTime_of_digits (by omega) hs (by omega)

end Sys2Proof.Machine
end

section
/-! PROOFS. The statements of the exceptions (60_exceptions): the refusal that is final, the handlers that leave the
display driver alone and may not call it, and fairness. -/

namespace Sys2Proof.Machine

/-! ### A refusal is final (60_exceptions R272) -/

theorem step_of_refused {s : State} (hr : s.refused = true) : step s = .fault .stuck := by
  rw [step, if_pos hr]

/-- Of what an instruction can do, only a refusal writes the mark, and it sets it. -/
theorem exec_keepsRefused {i : Instr} {s t : State} (hr : s.refused = true) (hx : exec i s = .next t) :
    t.refused = true := by
  rcases exec_cases hx with
    ⟨_, hframe⟩ | ⟨_, _, hdisplay⟩ | ⟨_, _, _, _, rfl | ⟨_, rfl⟩⟩ | ⟨_, _, _, rfl⟩
  · exact hframe.refused.trans hr
  · rcases hdisplay with ⟨_, _, _, rfl⟩ | ⟨_, _, _, _, _, rfl, _⟩ | ⟨_, _, _, _, _, _, _, rfl⟩
    · rfl
    · exact hr
    · exact hr
  · rfl
  · exact hr
  · exact hr

/-- Settles O6: `step` looks at the mark first, and `exec_keepsRefused`. -/
theorem refusalIsFinal : Obligations.RefusalIsFinal :=
  fun _ hr => ⟨step_of_refused hr, fun _ _ hx => exec_keepsRefused hr hx⟩

/-! ### Handlers and the display (60_exceptions R270, R273, R276) -/

/-- Settles O22: what it names is part of `HandlerFrame`. -/
theorem handlersLeaveTheDisplayAlone : Obligations.HandlersLeaveTheDisplayAlone := by
  intro i s hi
  obtain ⟨t, hx, hframe⟩ := handler_cases hi s
  exact ⟨t, hx, hframe.driver, hframe.pins, hframe.reader, hframe.hd, hframe.maskResult, hframe.refused,
    hframe.refusal⟩

theorem runHandlerFrame_of_display {f : Frame} {i : Instr} {op : DisplayOp} {s : State} (hd : decode f = .ok i)
    (hop : displayOpOf i = some op) (hm : s.irqMasked = false) :
    runHandlerFrame f s = .next (raise .reentrant (.display op) s) := by
  simp [runHandlerFrame, hm, hd, hop]

/-- Settles O7: the request is refused before the operation is looked at, so the sequencer plays no part. -/
theorem handlersMayNotCallTheDisplay : Obligations.HandlersMayNotCallTheDisplay := by
  intro s f rest i op hr hq hm hd hop
  rw [step_event hr hq]
  exact runHandlerFrame_of_display hd hop hm

/-! ### Fairness (60_exceptions R278, R281) -/

theorem pending_of_mem_enabledHandlers {s : State} {h : Handler} (hh : h ∈ enabledHandlers s) :
    h.pending s = true := by
  rw [enabledHandlers] at hh
  split at hh
  · simp at hh
  · exact (List.mem_filter.1 hh).2

@[simp] theorem pending_drawn (h : Handler) (s : State) : h.pending (drawn s) = h.pending s := by
  cases h <;> rfl

@[simp] theorem workLeft_drawn (s : State) : workLeft (drawn s) = workLeft s := rfl

/-- Whichever enabled handler the draw picks, serving it leaves less to serve. -/
theorem workLeft_step_serves {s t : State} {h : Handler} (hq : s.queue = []) (hn : nextHandler s = some h)
    (hstep : step s = .next t) : workLeft t < workLeft s := by
  obtain ⟨hr, _⟩ := step_cases hstep
  have hx : exec h.instr (drawn s) = .next t := (step_serves hr hq hn).symm.trans hstep
  have hp : h.pending (drawn s) = true := by
    rw [pending_drawn]
    exact pending_of_mem_enabledHandlers (nextHandler_mem hn)
  exact workLeft_drawn s ▸ (served_drops hp hx).2

theorem queue_of_step_alone {s t : State} (hq : s.queue = []) (hstep : step s = .next t) : t.queue = [] := by
  obtain ⟨hr, _⟩ := step_cases hstep
  obtain ⟨u, hu, _, hempty⟩ := alone_step hr hq
  obtain rfl : u = t := Host.Outcome.next.inj (hu.symm.trans hstep)
  exact hempty

theorem IsRun.queue_empty {r : Nat → State} (hrun : IsRun r) (h0 : (r 0).queue = []) : ∀ n, (r n).queue = []
  | 0 => h0
  | n + 1 => queue_of_step_alone (hrun.queue_empty h0 n) (hrun n)

/-- From every moment of a run left alone there comes one at which all handlers are served: until then each step leaves
less to serve. -/
theorem IsRun.exists_all_served {r : Nat → State} (hrun : IsRun r) (h0 : (r 0).queue = []) (n : Nat) :
    ∃ m, n ≤ m ∧ enabledHandlers (r m) = [] := by
  induction hw : workLeft (r n) using Nat.strong_induction_on generalizing n with
  | _ w ih =>
    cases hn : nextHandler (r n) with
    | none => exact ⟨n, le_refl n, nextHandler_none.1 hn⟩
    | some h =>
      have hless : workLeft (r (n + 1)) < w := hw ▸ workLeft_step_serves (hrun.queue_empty h0 n) hn (hrun n)
      obtain ⟨m, hm, hserved⟩ := ih _ hless (n + 1) rfl
      exact ⟨m, Nat.le_of_succ_le hm, hserved⟩

/-- With no event queued and no handler enabled the Foreground moves. -/
theorem foregroundTurn_of_all_served {s : State} (hq : s.queue = []) (hen : enabledHandlers s = []) :
    foregroundTurn s = true := by
  simp [foregroundTurn, hq, nextHandler_none.2 hen]

/-- Settles O9: when all handlers are served (`IsRun.exists_all_served`) none is enabled, and the turn is the
Foreground's. -/
theorem aloneTheBlockIsFair : Obligations.AloneTheBlockIsFair := by
  intro r hrun h0 a n
  obtain ⟨m, hm, hserved⟩ := hrun.exists_all_served h0 n
  refine ⟨m, hm, ?_⟩
  cases a with
  | foreground => exact .inr (foregroundTurn_of_all_served (hrun.queue_empty h0 m) hserved)
  | handler h => exact .inl (by simp [Agent.enabled, hserved])

end Sys2Proof.Machine
end

section
/-! PROOFS. The statements of the reset and the hazards (70_reset_and_hazards): the Enable high time of every transfer. -/

namespace Sys2Proof.Machine

/-! ### The Enable hold (70_reset_and_hazards R310, 41_display_driver R142, R143) -/

/-- A transfer had E high for at least `T_EH_US`: what `EnableHeld.past` says of each. -/
def HeldLong (x : Transfer) : Prop := ∃ h, x.tHigh = some h ∧ Config.tEnableHigh ≤ h

/-- Handlers and delays between two micro-steps only let time pass. -/
theorem pulseTimes_of_same {s t : State} {ph : Pulse} (h : pulseTimes s ph) (hrise : t.eRise = s.eRise)
    (hready : t.fgReady = s.fgReady) (hnow : s.now ≤ t.now) : pulseTimes t ph := by
  cases ph with
  | rest => trivial
  | raised =>
    obtain ⟨r, hr, hle⟩ := h
    exact ⟨r, hrise.trans hr, hle.trans hnow⟩
  | held =>
    obtain ⟨r, hr, hle⟩ := h
    exact ⟨r, hrise.trans hr, hready.symm ▸ hle⟩

theorem EnableHeld.of_same {s t : State} (h : EnableHeld s) (hpins : SamePins s t) (hcfg : t.cfg = s.cfg)
    (hfg : t.fg = s.fg) (hready : t.fgReady = s.fgReady) (hnow : s.now ≤ t.now) : EnableHeld t where
  past := by rw [hpins.transfers]; exact h.past
  running := fun op steps pc hbusy => by
    obtain ⟨c, ph, hc, hright, htimes⟩ := h.running op steps pc (hfg.symm.trans hbusy)
    exact ⟨c, ph, hcfg.trans hc, hright, pulseTimes_of_same htimes hpins.eRise hready hnow⟩

theorem enableHeld_of_idle {s : State} (hpast : ∀ x ∈ s.transfers, HeldLong x) (hfg : s.fg = .idle) : EnableHeld s where
  past := hpast
  running := fun op steps pc hbusy => by simp [hfg] at hbusy

theorem enableHeld_of_busy {s : State} {op : DisplayOp} {steps : List MicroStep} {pc : Nat} {c : DisplayCfg} {ph : Pulse}
    (hpast : ∀ x ∈ s.transfers, HeldLong x) (hfg : s.fg = .busy op steps pc) (hcfg : s.cfg = some c)
    (hright : pulsesRight c.pins.e ph (steps.drop pc) = true) (htimes : pulseTimes s ph) : EnableHeld s where
  past := hpast
  running := fun op' steps' pc' hbusy => by
    rw [hfg] at hbusy
    cases hbusy
    exact ⟨c, ph, hcfg, hright, htimes⟩

/-! ### One micro-step of a pulse -/

theorem eRise_of_sets {s : State} {c : DisplayCfg} {m v : Nat} (hcfg : s.cfg = some c)
    (hrise : sets m v c.pins.e = true) : (microStep (.pinsWrite m v) s).eRise = some s.now := by
  have hv : v.testBit c.pins.e = true := (Bool.and_eq_true_iff.1 hrise).2
  have hlatch : latch m v s = s := latch_of_no_fall hcfg fun ⟨_, hlow, _⟩ => by simp [hv] at hlow
  simp [microStep, drivePins, hlatch, riseTime, hcfg, hrise]

/-- A pin write that makes a transfer lowers E. -/
theorem transfers_pinsWrite {s : State} {c : DisplayCfg} (hcfg : s.cfg = some c) (m v : Nat) :
    (microStep (.pinsWrite m v) s).transfers = s.transfers ∨
    (clears m v c.pins.e = true ∧ ∃ rs data, (microStep (.pinsWrite m v) s).transfers =
      ⟨rs, data, s.now, s.eRise.map fun r => s.now - r⟩ :: s.transfers) := by
  have htransfers : (microStep (.pinsWrite m v) s).transfers = (latch m v s).transfers := rfl
  rw [htransfers]
  by_cases hfall : m.testBit c.pins.e = true ∧ v.testBit c.pins.e = false ∧ pinLevel s.out c.pins.e = .high
  · rw [latch_of_fall hcfg hfall]
    obtain ⟨hm, hv, _⟩ := hfall
    exact .inr ⟨by simp [clears, hm, hv], _, _, rfl⟩
  · rw [latch_of_no_fall hcfg hfall]
    exact .inl rfl

/-- A list that pulses E rightly lowers it in the phase `held` only. -/
theorem held_of_clears {e m v : Nat} {ph : Pulse} {l : List MicroStep}
    (hright : pulsesRight e ph (.pinsWrite m v :: l) = true) (hfall : clears m v e = true) : ph = .held := by
  obtain ⟨hm, hv⟩ : m.testBit e = true ∧ v.testBit e = false := by simpa [clears] using hfall
  cases ph with
  | rest => simp [pulsesRight, sets, hm, hv] at hright
  | raised => simp [pulsesRight] at hright
  | held => rfl

/-- A micro-step at its time, in a pulse, makes only transfers whose E was high long enough. -/
theorem microStep_keepsPast {s : State} {c : DisplayCfg} {ph : Pulse} {m : MicroStep} {l : List MicroStep}
    (hcfg : s.cfg = some c) (hdue : s.fgReady ≤ s.now) (hright : pulsesRight c.pins.e ph (m :: l) = true)
    (htimes : pulseTimes s ph) (hpast : ∀ x ∈ s.transfers, HeldLong x) :
    ∀ x ∈ (microStep m s).transfers, HeldLong x := by
  cases m with
  | wait d => exact hpast
  | pinsWrite m v =>
    rcases transfers_pinsWrite hcfg m v with hsame | ⟨hfall, rs, data, hmade⟩
    · rw [hsame]
      exact hpast
    · obtain rfl := held_of_clears hright hfall
      obtain ⟨r, hr, hheld⟩ := htimes
      rw [hmade]
      refine List.forall_mem_cons.2 ⟨⟨s.now - r, by rw [hr]; rfl, ?_⟩, hpast⟩
      omega

/-- A micro-step at its time leaves the rest of its list in a phase of the pulse whose times are met. -/
theorem microStep_keepsPulse {s : State} {c : DisplayCfg} {ph : Pulse} {m : MicroStep} {l : List MicroStep}
    (hcfg : s.cfg = some c) (hdue : s.fgReady ≤ s.now) (hright : pulsesRight c.pins.e ph (m :: l) = true)
    (htimes : pulseTimes s ph) : ∃ ph', pulsesRight c.pins.e ph' l = true ∧ pulseTimes (microStep m s) ph' := by
  cases ph with
  | rest =>
    cases m with
    | wait d => exact ⟨.rest, hright, trivial⟩
    | pinsWrite m v =>
      by_cases hrise : sets m v c.pins.e = true
      · obtain ⟨_, _, _, _, _, _, hnow, _⟩ := microStep_frame (.pinsWrite m v) s
        exact ⟨.raised, by simpa [pulsesRight, hrise] using hright, s.now, eRise_of_sets hcfg hrise, hnow.ge⟩
      · obtain ⟨_, hrest⟩ : m.testBit c.pins.e = false ∧ pulsesRight c.pins.e .rest l = true := by
          simpa [pulsesRight, hrise] using hright
        exact ⟨.rest, hrest, trivial⟩
  | raised =>
    obtain ⟨r, hr, hle⟩ := htimes
    cases m with
    | wait d =>
      by_cases hlong : Config.tEnableHigh ≤ d
      · exact ⟨.held, by simpa [pulsesRight, hlong] using hright, r, hr, Nat.add_le_add hle hlong⟩
      · exact ⟨.raised, by simpa [pulsesRight, hlong] using hright, r, hr, hle⟩
    | pinsWrite m v => simp [pulsesRight] at hright
  | held =>
    obtain ⟨r, hr, hheld⟩ := htimes
    cases m with
    | wait d => exact ⟨.held, hright, r, hr, (hheld.trans hdue).trans (Nat.le_add_right _ d)⟩
    | pinsWrite m v => exact ⟨.rest, (Bool.and_eq_true_iff.1 hright).2, trivial⟩

/-! ### Every step -/

theorem foregroundStep_keepsEnableHeld {s : State} (hs : EnableHeld s) : EnableHeld (foregroundStep s) := by
  rcases foregroundStep_cases s with ⟨_, h⟩ | ⟨_, _, _, _, _, h⟩ | ⟨op, steps, pc, m, hfg, hm, h⟩ <;> rw [h]
  · exact hs
  · exact enableHeld_of_idle hs.past rfl
  · obtain ⟨c, ph, hcfg, hright, htimes⟩ := hs.running op steps pc hfg
    obtain ⟨hlt, rfl⟩ := List.getElem?_eq_some_iff.1 hm
    rw [List.drop_eq_getElem_cons hlt] at hright
    have hdue : (foregroundTime s).fgReady ≤ (foregroundTime s).now := le_max_right _ _
    have htimes' : pulseTimes (foregroundTime s) ph := pulseTimes_of_same htimes rfl rfl (le_max_left _ _)
    have hpast := microStep_keepsPast (s := foregroundTime s) hcfg hdue hright htimes' hs.past
    by_cases hnext : pc + 1 < steps.length
    · obtain ⟨_, _, _, hkept, _⟩ := microStep_frame steps[pc] (foregroundTime s)
      obtain ⟨ph', hright', htimes''⟩ := microStep_keepsPulse (s := foregroundTime s) hcfg hdue hright htimes'
      exact enableHeld_of_busy hpast (if_pos hnext) (hkept.trans hcfg) hright'
        (pulseTimes_of_same htimes'' rfl rfl le_rfl)
    · exact enableHeld_of_idle hpast (if_neg hnext)

/-- The configuration keeps E apart from RS and the data lines, so that a list writes E in its pulses only. -/
def CfgKeepsEnableApart (s : State) : Prop := ∀ c, s.cfg = some c → CfgOk c

theorem exec_keepsEnableApart {i : Instr} {s t : State} (hs : CfgKeepsEnableApart s) (h : exec i s = .next t) :
    CfgKeepsEnableApart t := by
  intro c hc
  rcases exec_cfg h with hsame | ⟨_, c', _, hwf, _, hset⟩
  · exact hs c (hsame.symm.trans hc)
  · obtain rfl : c' = c := Option.some.inj (hset.symm.trans hc)
    exact cfgOk_of hwf

/-- Every starting step leaves a list that pulses E rightly from its head. -/
theorem exec_keepsEnableHeld {i : Instr} {s t : State} (hcfgs : CfgKeepsEnableApart s) (hs : EnableHeld s)
    (h : exec i s = .next t) : EnableHeld t := by
  rcases exec_cases h with
    ⟨_, hframe⟩ | ⟨op, _, hdisplay⟩ | ⟨_, _, _, _, rfl | ⟨_, rfl⟩⟩ | ⟨_, _, _, rfl⟩
  · exact hs.of_same hframe.pins hframe.driver.cfg hframe.driver.fg hframe.driver.fgReady hframe.now
  · rcases hdisplay with ⟨_, _, hn, rfl⟩ | ⟨c, steps, _, hcfg, _, rfl, hsteps⟩ | ⟨pins, w, _, _, _, hwf, _, rfl⟩
    · exact hs.of_same ⟨rfl, rfl, rfl, rfl⟩ rfl rfl rfl hn
    · have hok : CfgOk c := hcfgs c hcfg
      have hends : endsRest c.pins.e .rest steps = true := by
        rcases hsteps with ⟨rs, b, rfl⟩ | ⟨rc, tx, rfl⟩ | ⟨rc, rc', tx, tx', rfl⟩
        · exact er_sendByte hok rs b
        · exact er_line hok s.par rc tx
        · exact er_append _ _ _ _ (er_line hok s.par rc tx) (er_line hok s.par rc' tx')
      exact enableHeld_of_busy hs.past rfl hcfg (pr_of_er _ _ hends) trivial
    · have hok : CfgOk ⟨pins, w⟩ := cfgOk_of hwf
      exact enableHeld_of_busy hs.past rfl rfl (pr_of_er _ _ (er_init hok s.par)) trivial
  · exact hs.of_same ⟨rfl, rfl, rfl, rfl⟩ rfl rfl rfl le_rfl
  · exact hs.of_same ⟨rfl, rfl, rfl, rfl⟩ rfl rfl rfl le_rfl
  · exact hs.of_same ⟨rfl, rfl, rfl, rfl⟩ rfl rfl rfl le_rfl

/-- Settles O21: an instruction starts a list of right pulses, a Foreground step follows one, and all else between the
micro-steps only lets time pass. -/
theorem stepKeepsEnableHeld : Obligations.StepKeepsEnableHeld := by
  intro s t hpins hs h
  have hboth : CfgKeepsEnableApart t ∧ EnableHeld t := step_keeps (P := fun u => CfgKeepsEnableApart u ∧ EnableHeld u)
    (hbook := fun _ _ _ _ _ ⟨hok, hu⟩ => ⟨hok, hu.of_same ⟨rfl, rfl, rfl, rfl⟩ rfl rfl rfl le_rfl⟩)
    (hexec := fun _ _ _ ⟨hok, hu⟩ hx => ⟨exec_keepsEnableApart hok hx, exec_keepsEnableHeld hok hu hx⟩)
    (hraise := fun _ _ _ ⟨hok, hu⟩ => ⟨hok, hu.of_same ⟨rfl, rfl, rfl, rfl⟩ rfl rfl rfl le_rfl⟩)
    (hfg := fun u ⟨hok, hu⟩ => by
      obtain ⟨_, _, _, hkept, _⟩ := foregroundStep_frame u
      exact ⟨fun c hc => hok c (hkept.symm.trans hc), foregroundStep_keepsEnableHeld hu⟩)
    (htime := fun _ _ ⟨hok, hu⟩ hn => ⟨hok, hu.of_same ⟨rfl, rfl, rfl, rfl⟩ rfl rfl rfl hn⟩)
    (hlevel := fun ch l u ⟨hok, hu⟩ => by
      have hframe := handlerFrame_setLevel ch l u
      exact ⟨fun c hc => hok c (hframe.driver.cfg.symm.trans hc),
        hu.of_same hframe.pins hframe.driver.cfg hframe.driver.fg hframe.driver.fgReady hframe.now⟩)
    ⟨fun c hc => cfgOk_of (hpins.wellFormed c hc).1, hs⟩ h
  exact hboth.2

end Sys2Proof.Machine
end
